-- ==== Sys2Proof/Word.lean ====
section
/-! DEFINITION. The widths of WTOSC's words (00_scope.md R16; 10_state.md; 30_encoding.md R90). -/

namespace Sys2Proof

/-- A 32-bit word: a sample, a register-port word or a binary32 pattern (00_scope.md R19, 20_memory.md R72). -/
abbrev Word := BitVec 32

/-- A 48-bit command word (30_encoding.md R90). -/
abbrev CmdWord := BitVec 48

/-- A phase register or the step register: `PHASE_W` = 24 bits (00_scope.md R9). -/
abbrev Phase := BitVec 24

end Sys2Proof
end

