-- ==== Sys2Proof/Config.lean ====
section
/-! DEFINITION. The elaboration parameters of 00_scope.md R9 as plain data, the fixed constants, and the configurations of 95_test_vectors.md. -/

namespace Sys2Proof

/-- `WCLK_MODE` (40_command_fifo.md R120): whether the producers' clock is the engine's clock. -/
inductive WclkMode where
  | same
  | async
  deriving DecidableEq, Repr

/-- The parameters of 00_scope.md section 4.  They are constants of one block (10_state.md R46): no step changes
them.  The policy `ARB` is a free choice at each edge (40_command_fifo.md R126); only the reset value of its state
is held here. -/
structure Config where
  /-- `NP`, the number of producer ports. -/
  np : Nat
  /-- `TABLE_LEN[0]`, the length of the sine bank. -/
  lenSine : Nat
  /-- `TABLE_LEN[1]`, the length of the square bank. -/
  lenSquare : Nat
  /-- `TABLE_LEN[2]`, the length of the sawtooth bank. -/
  lenSawtooth : Nat
  /-- `TABLE_LEN[3]`, the length of the triangle bank. -/
  lenTriangle : Nat
  /-- `SAMPLE_RATE`, a binary32 pattern. -/
  sampleRate : Word
  /-- `FPB`, frames per buffer. -/
  fpb : Nat
  /-- `AMPLITUDE`, a binary32 pattern. -/
  amplitude : Word
  /-- `SINE_ROM`: `none` where bank 0 is built by 20_memory.md R61, `some image` where an image meeting R62 is
  supplied. -/
  sineRom : Option (List Word)
  /-- `WCLK_MODE`. -/
  wclkMode : WclkMode
  /-- The reset value of `ARBST` (10_state.md R44), a code of the arbitration policy's own. -/
  arbReset : Nat
  deriving DecidableEq, Repr

/-- `DEPTH`, the FIFO's capacity (00_scope.md R10). -/
def depth : Nat := 1024

/-- CFG-8 of 95_test_vectors.md: sample rate 8.0, four banks of 8, buffers of 4 frames, amplitude 1.0, one port. -/
def Config.cfg8 : Config where
  np := 1
  lenSine := 8
  lenSquare := 8
  lenSawtooth := 8
  lenTriangle := 8
  sampleRate := 0x41000000#32
  fpb := 4
  amplitude := 0x3F800000#32
  sineRom := none
  wclkMode := .same
  arbReset := 0

/-- CFG-B of 95_test_vectors.md: sample rate 44100.0, four banks of 1000. -/
def Config.cfgB : Config :=
  { Config.cfg8 with
    lenSine := 1000, lenSquare := 1000, lenSawtooth := 1000, lenTriangle := 1000, sampleRate := 0x472C4400#32 }

/-- CFG-8T of 95_test_vectors.md: CFG-8 with a triangle bank of 4. -/
def Config.cfg8T : Config := { Config.cfg8 with lenTriangle := 4 }

/-- CFG-8S of 95_test_vectors.md: CFG-8 with banks of 1000, 8, 1000, 1000. -/
def Config.cfg8S : Config :=
  { Config.cfg8 with lenSine := 1000, lenSawtooth := 1000, lenTriangle := 1000 }

end Sys2Proof
end

