-- ==== Sys2Proof/Syntax.lean ====
section
/-! DEFINITION. The WTOSC command set, version 1 (00_scope.md R2): one constructor per row of
spec/opcode_table.json, and the producer-side forms of 30_encoding.md R104 to R107. -/

namespace Sys2Proof

/-- A decoded command: the seven lines of 30_encoding.md R98, each with the operands its rule reads. -/
inductive Instr where
  /-- NOTE_ON: the note number `n = PAYLOAD[7:0]` (30_encoding.md R93, 41_commands.md R150). -/
  | noteOn (n : BitVec 8)
  /-- NOTE_OFF: no operand (30_encoding.md R94, 41_commands.md R151). -/
  | noteOff
  /-- SET_PARAM of parameter id 0x00, "frequency": the binary32 pattern `v` (30_encoding.md R95, 41_commands.md R152). -/
  | setParam (v : Word)
  /-- SET_PARAM of an unknown parameter id (30_encoding.md R96, 41_commands.md R165). -/
  | setParamUnknown (id : BitVec 8)
  /-- SET_WAVE of a valid kind (30_encoding.md R97, R99, 41_commands.md R160). -/
  | setWave (k : BitVec 2)
  /-- SET_WAVE of an invalid kind (30_encoding.md R97, 41_commands.md R163). -/
  | setWaveInvalid (kind : Word)
  /-- A word with a reserved opcode (30_encoding.md R101, 41_commands.md R170). -/
  | reserved (opc : BitVec 8)
  deriving DecidableEq, Repr

/-- One line of assembler (30_encoding.md R105). -/
inductive AsmLine where
  /-- `NOTE_ON n` -/
  | noteOn (n : BitVec 8)
  /-- `NOTE_OFF` -/
  | noteOff
  /-- `SET_PARAM id, v` with the operand written as a bit pattern. -/
  | setParam (id : BitVec 8) (v : Word)
  /-- `SET_WAVE k` -/
  | setWave (k : Word)
  /-- `.WORD48 w` -/
  | word48 (w : CmdWord)
  deriving DecidableEq, Repr

/-- A pseudo-instruction (30_encoding.md R106). -/
inductive Pseudo where
  | setFreq (v : Word)
  | sine
  | square
  | sawtooth
  | triangle
  | midi (status data : BitVec 8)
  | silence
  deriving DecidableEq, Repr

/-- A token of the textual command surface after the producer's own parsing of the text, which is outside the
block (30_encoding.md R107, 00_scope.md R6): a float is given by its binary32 pattern. -/
inductive TextToken where
  | sine
  | square
  | sawtooth
  | triangle
  /-- The parameter name `"frequency"` with a float value. -/
  | frequency (v : Word)
  /-- An unrecognised token that parses as a float. -/
  | bareFloat (v : Word)
  /-- Neither a known keyword nor a valid float. -/
  | unparsable
  deriving DecidableEq, Repr

end Sys2Proof
end

