-- ==== Sys2Proof/WellFormed.lean ====
section
/-! DEFINITION. Which terms of `Instr` stand for a command word: the conditions that separate the lines of
30_encoding.md R98. -/

namespace Sys2Proof

/-- SET_PARAM with an unknown id has an id other than 0x00 (30_encoding.md R96). -/
def Instr.unknownIdOk (id : BitVec 8) : Bool := id != 0x00#8

/-- An invalid waveform kind is above 3 (30_encoding.md R97). -/
def Instr.invalidKindOk (kind : Word) : Bool := decide (3 < kind.toNat)

/-- A reserved opcode is none of 0x01, 0x02, 0x80 and 0x90 (30_encoding.md R101). -/
def Instr.reservedOpcOk (opc : BitVec 8) : Bool :=
  opc != 0x90#8 && opc != 0x80#8 && opc != 0x01#8 && opc != 0x02#8

/-- Every check of every constructor; the operand widths leave nothing else to check. -/
def Instr.wf : Instr → Bool
  | .noteOn _ => true
  | .noteOff => true
  | .setParam _ => true
  | .setParamUnknown id => Instr.unknownIdOk id
  | .setWave _ => true
  | .setWaveInvalid kind => Instr.invalidKindOk kind
  | .reserved opc => Instr.reservedOpcOk opc

end Sys2Proof
end

