-- ==== Sys2Proof/Decode.lean ====
section
/-! DEFINITION. Decoding and encoding of command words (30_encoding.md), and the producer-side forms. -/

namespace Sys2Proof

/-- `OPC`, bits [47:40] (30_encoding.md R91). -/
def opcField (w : CmdWord) : BitVec 8 := w.extractLsb' 40 8

/-- `SUB`, bits [39:32] (30_encoding.md R91). -/
def subField (w : CmdWord) : BitVec 8 := w.extractLsb' 32 8

/-- `PAYLOAD`, bits [31:0] (30_encoding.md R91). -/
def payloadField (w : CmdWord) : Word := w.extractLsb' 0 32

/-- The NOTE_ON operand, `PAYLOAD[7:0]` (30_encoding.md R93). -/
def noteField (w : CmdWord) : BitVec 8 := w.extractLsb' 0 8

/-- The SET_WAVE operand once it is known to be at most 3, `w[1:0]` (41_commands.md R160). -/
def kindField (w : CmdWord) : BitVec 2 := w.extractLsb' 0 2

/-- Decoding: the first line of 30_encoding.md R98 whose condition the word meets.  Total: no word is refused
(R103). -/
def decode (w : CmdWord) : Instr :=
  if opcField w = 0x90#8 then .noteOn (noteField w)
  else if opcField w = 0x80#8 then .noteOff
  else if opcField w = 0x01#8 then
    if subField w = 0x00#8 then .setParam (payloadField w) else .setParamUnknown (subField w)
  else if opcField w = 0x02#8 then
    if (payloadField w).toNat ≤ 3 then .setWave (kindField w) else .setWaveInvalid (payloadField w)
  else .reserved (opcField w)

/-- The word with the three fields of 30_encoding.md R91. -/
def mkWord (opc sub : BitVec 8) (payload : Word) : CmdWord := opc ++ sub ++ payload

/-- Encoding: the word an assembler writes, every ignored field zero (30_encoding.md R100, R105). -/
def encode : Instr → CmdWord
  | .noteOn n => mkWord 0x90#8 0x00#8 (n.setWidth 32)
  | .noteOff => mkWord 0x80#8 0x00#8 0x00000000#32
  | .setParam v => mkWord 0x01#8 0x00#8 v
  | .setParamUnknown id => mkWord 0x01#8 id 0x00000000#32
  | .setWave k => mkWord 0x02#8 0x00#8 (k.setWidth 32)
  | .setWaveInvalid kind => mkWord 0x02#8 0x00#8 kind
  | .reserved opc => mkWord opc 0x00#8 0x00000000#32

/-- The bits of a word that the line of 30_encoding.md R98 it meets reads; the others are ignored (R100, and the
`PAYLOAD` of R165, the `SUB` and `PAYLOAD` of R170). -/
def careMask : Instr → CmdWord
  | .noteOn _ => 0xFF00000000FF#48
  | .noteOff => 0xFF0000000000#48
  | .setParam _ => 0xFFFFFFFFFFFF#48
  | .setParamUnknown _ => 0xFFFF00000000#48
  | .setWave _ => 0xFF00FFFFFFFF#48
  | .setWaveInvalid _ => 0xFF00FFFFFFFF#48
  | .reserved _ => 0xFF0000000000#48

/-- The word of a MIDI event `(status, data)` forwarded unchanged (30_encoding.md R104). -/
def midiWord (status data : BitVec 8) : CmdWord := mkWord status 0x00#8 (data.setWidth 32)

/-- The assembler (30_encoding.md R105). -/
def assemble : AsmLine → CmdWord
  | .noteOn n => mkWord 0x90#8 0x00#8 (n.setWidth 32)
  | .noteOff => mkWord 0x80#8 0x00#8 0x00000000#32
  | .setParam id v => mkWord 0x01#8 id v
  | .setWave k => mkWord 0x02#8 0x00#8 k
  | .word48 w => w

/-- The expansion of a pseudo-instruction (30_encoding.md R106). -/
def expandPseudo : Pseudo → AsmLine
  | .setFreq v => .setParam 0x00#8 v
  | .sine => .setWave 0x00000000#32
  | .square => .setWave 0x00000001#32
  | .sawtooth => .setWave 0x00000002#32
  | .triangle => .setWave 0x00000003#32
  | .midi status data => .word48 (midiWord status data)
  | .silence => .noteOff

/-- The word a text token gives, or none for a local parse error (30_encoding.md R107). -/
def textWord : TextToken → Option CmdWord
  | .sine => some (assemble (expandPseudo .sine))
  | .square => some (assemble (expandPseudo .square))
  | .sawtooth => some (assemble (expandPseudo .sawtooth))
  | .triangle => some (assemble (expandPseudo .triangle))
  | .frequency v => some (assemble (expandPseudo (.setFreq v)))
  | .bareFloat v => some (assemble (expandPseudo (.setFreq v)))
  | .unparsable => none

/-- The command word whose bits are `w`, its bits from `nbits` up zero. -/
def tableWord (nbits w : Nat) : CmdWord := BitVec.ofNat 48 (w % 2 ^ nbits)

/-- What the decoder reads from a word numbered as spec/opcode_table.json numbers it (bit 0 the least significant
bit of the one 48-bit word).  No word is refused (30_encoding.md R103). -/
def decodeTableWord (nbits w : Nat) : Option Instr := some (decode (tableWord nbits w))

end Sys2Proof
end

