-- ==== Sys2Proof/Machine/State.lean ====
section
/-! DEFINITION. The state of WTOSC as plain data (10_state.md), the levels of its inputs, the agents' actions, the
reasons a step can stop, and the state after reset (70_reset_and_hazards.md R280). -/

namespace Sys2Proof.Machine

/-- `ESTATE` (10_state.md R36).  `undefinedCode` stands for the encodings 5, 6 and 7, which never occur. -/
inductive EState where
  /-- 0, waiting for a cycle start. -/
  | idle
  /-- 1, applying commands. -/
  | drain
  /-- 2, computing the step. -/
  | step
  /-- 3, moving sample words. -/
  | emit
  /-- 4, stopped. -/
  | fatal
  /-- 5 + c: an encoding that never occurs (93_implementation_defined.md K24). -/
  | undefinedCode (c : Fin 3)
  deriving DecidableEq, Repr

/-- One diagnostic event: the pair that `raise Diag` appends (60_exceptions.md R244). -/
structure Event where
  /-- `diag_code` (60_exceptions.md R243). -/
  code : BitVec 4
  /-- `diag_info`. -/
  info : Word
  deriving DecidableEq, Repr

/-- The inputs of one producer port (40_command_fifo.md R120). -/
structure PortPins where
  /-- `p_valid[p]` -/
  valid : Bool
  /-- `p_data[p]` -/
  data : CmdWord
  /-- `p_attach[p]` -/
  attach : Bool
  deriving DecidableEq, Repr

/-- A port nobody drives. -/
def PortPins.low : PortPins := ⟨false, 0#48, false⟩

/-- The levels of every input of the block: reset (70_reset_and_hazards.md R280), the driver interface and the
register port's address (43_buffer_cycle.md R210), and the producer ports (40_command_fifo.md R120). -/
structure Pins where
  /-- `rst` -/
  rst : Bool
  /-- `cyc_start` -/
  cycStart : Bool
  /-- `cyc_in_len` -/
  cycInLen : Word
  /-- `cyc_out_len` -/
  cycOutLen : Word
  /-- `cyc_in_ovf` -/
  cycInOvf : Bool
  /-- `cyc_out_unf` -/
  cycOutUnf : Bool
  /-- `drv_fatal` -/
  drvFatal : Bool
  /-- `in_valid` -/
  inValid : Bool
  /-- `in_data`; no rule reads it (43_buffer_cycle.md R219). -/
  inData : Word
  /-- `out_ready` -/
  outReady : Bool
  /-- `csr_addr` -/
  csrAddr : BitVec 4
  /-- The producer ports' inputs, port 0 first; a port not listed is driven low. -/
  ports : List PortPins
  deriving DecidableEq, Repr

/-- Every input low (log entry 4). -/
def Pins.low : Pins where
  rst := false
  cycStart := false
  cycInLen := 0#32
  cycOutLen := 0#32
  cycInOvf := false
  cycOutUnf := false
  drvFatal := false
  inValid := false
  inData := 0#32
  outReady := false
  csrAddr := 0#4
  ports := []

/-- A step of one agent (00_scope.md R14). -/
inductive Action where
  /-- The host side sets the levels of the inputs: R14 (d). -/
  | drive (pins : Pins)
  /-- A rising edge of `clk`: one step of the engine, R14 (c). -/
  | clk
  /-- A rising edge of `wclk`: the arbiter grants at most one port and goes to a state of its own,
  both free choices (40_command_fifo.md R126); R14 (a). -/
  | wclk (grant : Option Nat) (arb : Nat)
  /-- A crossing step (40_command_fifo.md R128); R14 (b). -/
  | cross
  /-- The crossing agent samples `p_attach[p]` into `ATT[p]` (40_command_fifo.md R121). -/
  | sampleAttach (port : Nat)
  deriving DecidableEq, Repr

/-- Everything the spec gives the machine (10_state.md), the present levels of its inputs, and the model's own
fields `cfg`, `schedule`, `outFull`, `inFull`, `rstClkEdges` and `rstWclkEdges`. -/
structure State where
  /-- The block's elaboration parameters; no step changes them (10_state.md R46, log entry 1). -/
  cfg : Config
  /-- `FREQ`, a binary32 pattern (R30). -/
  freq : Word
  /-- `LPHASE` (R31). -/
  lphase : Phase
  /-- `RPHASE` (R32). -/
  rphase : Phase
  /-- `WAVE_SEL` (R33). -/
  waveSel : BitVec 2
  /-- `STEP` (R34). -/
  phaseStep : Phase
  /-- `SILENT` (R35). -/
  silent : Bool
  /-- `ESTATE` (R36). -/
  estate : EState
  /-- `DRAIN_LEFT` (R37). -/
  drainLeft : BitVec 11
  /-- `OUT_CNT` (R38, log entry 6). -/
  outCnt : BitVec 31
  /-- `OUT_CNT` stands at `2^31`, the last count of a buffer of `2^30` frames (R38, log entry 6). -/
  outFull : Bool
  /-- `IN_CNT` (R38, log entry 6). -/
  inCnt : BitVec 31
  /-- The same of `IN_CNT` (R38, log entry 6). -/
  inFull : Bool
  /-- `FATAL` (R39). -/
  fatal : Bool
  /-- `FATAL_CAUSE` (R39). -/
  fatalCause : BitVec 2
  /-- `DISC_LOGGED` (R40). -/
  discLogged : Bool
  /-- `CNT_UNKNOWN_PARAM` (R41). -/
  cntUnknownParam : Word
  /-- `CNT_UNSUPPORTED` (R41). -/
  cntUnsupported : Word
  /-- `CNT_BAD_WAVE` (R41). -/
  cntBadWave : Word
  /-- `CNT_IN_OVF` (R41). -/
  cntInOvf : Word
  /-- `CNT_OUT_UNF` (R41). -/
  cntOutUnf : Word
  /-- `CNT_CYCLES` (R41). -/
  cntCycles : Word
  /-- `Q`, oldest word first (R42). -/
  q : List CmdWord
  /-- `V`, how many words of `Q` are visible (R42). -/
  v : BitVec 11
  /-- `V` as the register port shows it: its value after the most recent `clk` edge (43_buffer_cycle.md R230, log
  entry 16). -/
  levelShown : BitVec 11
  /-- `ARBST`, in a code of the policy's own (R44). -/
  arbst : Nat
  /-- `ATT`, port 0 first (R45). -/
  att : List Bool
  /-- The event sequence since reset (60_exceptions.md R244, log entry 7). -/
  events : List Event
  /-- The output words transferred in the current buffer cycle (00_scope.md R15, log entry 7). -/
  outWords : List Word
  /-- The present levels of the inputs (log entry 4). -/
  pins : Pins
  /-- `clk` edges the present assertion of `rst` has had, counted to 2 (R282, log entry 12). -/
  rstClkEdges : Nat
  /-- `wclk` edges the present assertion of `rst` has had, counted to 2 (R282, log entry 12). -/
  rstWclkEdges : Nat
  /-- Which agents move next, in order (00_scope.md R14, log entry 2). -/
  schedule : List Action
  deriving DecidableEq, Repr

/-- Why the machine stops with a fault.  No run from reset reaches one. -/
inductive Fault where
  /-- A wavetable ROM read with an index at or above the bank's length (20_memory.md R68), raised by the output
  word of an EMIT edge.  Safe: the spec says such a read is never issued and that a model must fault. -/
  | waveRomIndexOutOfRange
  /-- A pop with `V = 0` or an empty `Q` (40_command_fifo.md R131), raised by the drain step.  Safe: the spec says a
  model that reaches it must fault. -/
  | popFromEmptyFifo
  /-- A `clk` edge with one of the `ESTATE` encodings 5, 6 and 7 (10_state.md R36), raised by the engine.  Safe: the
  spec says the encodings never occur. -/
  | undefinedEstate
  deriving DecidableEq, Repr

/-- Why the model gives no next state. -/
inductive Refusal where
  /-- An instruction without a meaning.  No arm of `exec` raises it.  Safe. -/
  | notModelled (mnemonic : String)
  /-- The configuration is not legal (00_scope.md R11), raised by every step.  Safe: the block's behaviour under one
  is not specified. -/
  | illegalConfiguration
  /-- The environment ends a reset before two edges of each clock (70_reset_and_hazards.md R282), raised by the
  action `drive`.  Safe: a shorter reset leaves the state unspecified. -/
  | resetTooShort
  deriving DecidableEq, Repr

/-- The state after reset of a block built with the configuration `c` (70_reset_and_hazards.md R280, R281). -/
def State.resetOf (c : Config) : State where
  cfg := c
  freq := 0x00000000#32
  lphase := 0#24
  rphase := 0#24
  waveSel := 0#2
  phaseStep := 0#24
  silent := true
  estate := .idle
  drainLeft := 0#11
  outCnt := 0#31
  outFull := false
  inCnt := 0#31
  inFull := false
  fatal := false
  fatalCause := 0#2
  discLogged := false
  cntUnknownParam := 0#32
  cntUnsupported := 0#32
  cntBadWave := 0#32
  cntInOvf := 0#32
  cntOutUnf := 0#32
  cntCycles := 0#32
  q := []
  v := 0#11
  levelShown := 0#11
  arbst := c.arbReset
  att := List.replicate c.np false
  events := []
  outWords := []
  pins := Pins.low
  rstClkEdges := 0
  rstWclkEdges := 0
  schedule := []

/-- The machine right after reset, built as CFG-8 of 95_test_vectors.md (log entry 1). -/
def State.reset : State := State.resetOf Config.cfg8

end Sys2Proof.Machine
end

