-- ==== Sys2Proof/Machine/Float32.lean ====
section
/-! DEFINITION. binary32 arithmetic (00_scope.md R19, R20): fields, values, `rnd32` of a rational, `div32`,
`i2f32`, `floor`.  Everything is computed exactly on naturals and rounded once. -/

namespace Sys2Proof.Machine

/-- The sign, bit [31]. -/
def signBit (b : Word) : Bool := b.getLsbD 31

/-- The biased exponent, bits [30:23]. -/
def expField (b : Word) : Nat := (b.extractLsb' 23 8).toNat

/-- The fraction, bits [22:0]. -/
def fracField (b : Word) : Nat := (b.extractLsb' 0 23).toNat

/-- A NaN pattern. -/
def isNaN32 (b : Word) : Bool := expField b == 255 && fracField b != 0

/-- An infinity of either sign. -/
def isInf32 (b : Word) : Bool := expField b == 255 && fracField b == 0

/-- A finite pattern. -/
def isFinite32 (b : Word) : Bool := expField b != 255

/-- `isZero32(b)` is `b[30:0] == 0` (00_scope.md R19). -/
def isZero32 (b : Word) : Bool := b.extractLsb' 0 31 == 0#31

/-- A finite pattern whose exponent field is not 0. -/
def isNormal32 (b : Word) : Bool := expField b != 0 && expField b != 255

/-- The significand of a finite pattern as an integer: the hidden bit stands for exponents above 0. -/
def significand (b : Word) : Nat := if expField b = 0 then fracField b else 2 ^ 23 + fracField b

/-- `2^150` times the magnitude of a finite pattern.  Subnormals have the exponent of biased exponent 1. -/
def scaledMag (b : Word) : Nat := significand b * 2 ^ max (expField b) 1

/-- The magnitude that the bits [30:0] of a finite pattern stand for, in units of `2^-149`. -/
def magUnits (m : Nat) : Nat := if m < 2 ^ 23 then m else (2 ^ 23 + m % 2 ^ 23) * 2 ^ (m / 2 ^ 23 - 1)

/-- Half a unit in the last place of a finite pattern, times `2^150`. -/
def halfUlp (b : Word) : Nat := 2 ^ (max (expField b) 1 - 1)

/-- `val(b)` of a finite pattern (00_scope.md R19). -/
def val32 (b : Word) : ℚ := (if signBit b then -1 else 1) * (scaledMag b / 2 ^ 150)

/-- `y / d` rounded to the nearest natural, ties to even. -/
def roundHalfEven (y d : Nat) : Nat :=
  if 2 * (y % d) < d then y / d
  else if d < 2 * (y % d) then y / d + 1
  else y / d + (y / d) % 2

/-- How many bits beyond the 24 of a significand the quotient `q = x * 2^149` has: the rounding position. -/
def excessBits (q : Nat) : Nat := Nat.log2 q - 23

/-- The bits [30:0] of `rnd32` of the magnitude `num / den`: the quotient in units of `2^-149` is rounded at the
significand's last place, and the exponent is added to it, so that a carry moves to the next exponent and an
overflow gives the pattern of infinity. -/
def roundMag (num den : Nat) : Nat :=
  let y := num * 2 ^ 149
  let sh := excessBits (y / den)
  min 0x7F800000 (roundHalfEven y (den * 2 ^ sh) + sh * 2 ^ 23)

/-- A pattern from a sign and the bits [30:0]. -/
def withSign (neg : Bool) (mag : Nat) : Word := BitVec.ofNat 32 ((if neg then 2 ^ 31 else 0) + mag)

/-- `rnd32` of the rational `num / den`, negated if `neg` (00_scope.md R19): `rnd32(0)` is +0.0, and a value that
rounds to zero keeps its sign (20_memory.md R66). -/
def rnd32 (neg : Bool) (num den : Nat) : Word :=
  if num = 0 then 0x00000000#32 else withSign neg (roundMag num den)

/-- An infinity of the given sign. -/
def inf32 (neg : Bool) : Word := withSign neg 0x7F800000

/-- A zero of the given sign. -/
def zero32 (neg : Bool) : Word := withSign neg 0

/-- `div32(a, b)` (00_scope.md R19, R20).  `none` is a NaN; its payload is not observable (log entry 10). -/
def div32 (a b : Word) : Option Word :=
  let neg := signBit a ^^ signBit b
  if isNaN32 a || isNaN32 b then none
  else if isInf32 a then (if isInf32 b then none else some (inf32 neg))
  else if isInf32 b then some (zero32 neg)
  else if isZero32 b then (if isZero32 a then none else some (inf32 neg))
  else if isZero32 a then some (zero32 neg)
  else some (withSign neg (roundMag (scaledMag a) (scaledMag b)))

/-- `i2f32(n)` (00_scope.md R19), exact for `n ≤ 2^24`. -/
def i2f32 (n : Nat) : Word := rnd32 false n 1

/-- `floor(val(b))` of a finite pattern that is not negative (00_scope.md R19). -/
def floor32 (b : Word) : Nat := scaledMag b / 2 ^ 150

end Sys2Proof.Machine
end

