-- ==== Sys2Proof/Machine/Rom.lean ====
section
/-! DEFINITION. The wavetable ROM and the note ROM (20_memory.md), and the legality of a configuration
(00_scope.md R11, 20_memory.md R62). -/

namespace Sys2Proof.Machine

/-- `TABLE_LEN[k]` (00_scope.md R9). -/
def tableLen (c : Config) (k : BitVec 2) : Nat :=
  match k.toNat with
  | 0 => c.lenSine
  | 1 => c.lenSquare
  | 2 => c.lenSawtooth
  | _ => c.lenTriangle

/-- The pattern with bit 31 inverted. -/
def negate32 (b : Word) : Word := b ^^^ 0x80000000#32

/-! ### Bank 0, sine -/

/-- `floor(pi * 2^200)`. -/
def piScaled : Nat := 5048344754617993871973410141242436836214643421488662971535368

/-- How many factors `1 - t^2/(m(m+1))` the sine polynomial has. -/
def sineTerms : Nat := 28

/-- The numerator and denominator of the nested factors of the Taylor polynomial of `sin t / t` at `t = a / 2^200`:
`1 - t^2/(2*3) * (1 - t^2/(4*5) * (...))`, `n` factors of which the innermost is number `k + n`. -/
def sineNest (a : Nat) : Nat → Nat → Nat × Nat
  | _, 0 => (1, 1)
  | k, n + 1 =>
    let inner := sineNest a (k + 1) n
    let m := (2 * (k + 1)) * (2 * (k + 1) + 1) * (2 ^ 200 * 2 ^ 200)
    (inner.2 * m - a * a * inner.1, inner.2 * m)

/-- `sin` of `pi * num / len` between two fractions with the denominator returned last, for
`0 < num ≤ len / 2`: the polynomial less and plus `2^-190`, which covers its remainder and the error of `pi`. -/
def sineBounds (num len : Nat) : Nat × Nat × Nat :=
  let a := num * piScaled / len
  let nest := sineNest a 0 sineTerms
  (a * nest.1 - nest.2 * 2 ^ 10, a * nest.1 + nest.2 * 2 ^ 10, nest.2 * 2 ^ 200)

/-- The angle `2*pi*i/len` folded to the first quadrant: whether the sine is negative, and the numerator `num` of
the angle `pi*num/len` with the same magnitude of the sine. -/
def foldAngle (len i : Nat) : Bool × Nat :=
  let half := (2 * i) % len
  (decide (len ≤ 2 * i), if len < 2 * half then len - half else half)

/-- `|sin|` of the folded angle between `lo / den` and `hi / den`: exact at the multiples of a right angle and
where the sine is a half, an enclosure elsewhere. -/
def sineMagBounds (len num : Nat) : Nat × Nat × Nat :=
  if num = 0 then (0, 0, 1)
  else if 2 * num = len then (1, 1, 1)
  else if 6 * num = len then (1, 1, 2)
  else sineBounds num len

/-- With `cos ψ = c / e` and `0 < ψ < pi`: how many half turns `k` the angle `j * ψ` has, and the integers
`(-1)^k * W j` and `(-1)^k * W (j+1)` of the recurrence `W (j+2) = 2*c * W (j+1) - e^2 * W j` from 0 and 1, whose
`W j` is `sin (j*ψ)` times a positive number.  The next multiple of `ψ` stays in the half turn exactly when its
sine has the half turn's sign. -/
def halfTurns (c e : Int) : Nat → Nat × Int × Int
  | 0 => (0, 0, 1)
  | j + 1 =>
    let (k, u, v) := halfTurns c e j
    if 0 < v then (k, v, 2 * c * v - e * e * u) else (k + 1, -v, -(2 * c * v - e * e * u))

/-- How `sin (pi*num/len)` stands to the fraction `a / b`, decided in integers, for `2*num ≤ len`: with
`cos ψ = 1 - 2*(a/b)^2`, which is `a/b = sin (ψ/2)`, by how many half turns `len * ψ` has beside `2*num`. -/
def sineOrderExact (len num a b : Nat) : Ordering :=
  if a = 0 then if num = 0 then .eq else .gt
  else if a < b then
    let t := halfTurns ((b * b : Nat) - (2 * (a * a) : Nat)) (b * b : Nat) len
    if t.1 < 2 * num then .gt else if t.1 = 2 * num ∧ t.2.1 = 0 then .eq else .lt
  else if a = b ∧ 2 * num = len then .eq
  else .lt

/-- How the sine of a folded angle stands to the fraction `a / b`: by its enclosure where that settles it, and
exactly in integers where it does not. -/
def sineOrder (len num a b : Nat) : Ordering :=
  let s := sineMagBounds len num
  if a * s.2.2 < s.1 * b then .gt
  else if s.2.1 * b < a * s.2.2 then .lt
  else sineOrderExact len num a b

/-- Whether `A` times the sine of a folded angle rounds above the magnitude `m`: it lies beyond the middle between
`m` and `m + 1`, or in the middle with `m` odd (00_scope.md R19). -/
def sineRoundsAbove (amplitude : Word) (len num m : Nat) : Bool :=
  match sineOrder len num (magUnits m + magUnits (m + 1)) (scaledMag amplitude) with
  | .gt => true
  | .eq => m % 2 == 1
  | .lt => false

/-- The rounded magnitude, from a magnitude `m` not above it, with at most `n` steps upward. -/
def sineRoundFrom (amplitude : Word) (len num : Nat) : Nat → Nat → Nat
  | m, 0 => m
  | m, n + 1 =>
    if sineRoundsAbove amplitude len num m then sineRoundFrom amplitude len num (m + 1) n else m

/-- The entry of bank 0 (20_memory.md R61): `rnd32(A * sin(2*pi*i/L))`.  The result lies between the roundings of
the two ends of the enclosure; where these differ the middles between them are compared with the exact sine. -/
def sineEntry (amplitude : Word) (len i : Nat) : Word :=
  let folded := foldAngle len i
  let b := sineMagBounds len folded.2
  if b.2.1 = 0 then 0x00000000#32
  else
    let lo := roundMag (scaledMag amplitude * b.1) (b.2.2 * 2 ^ 150)
    let hi := roundMag (scaledMag amplitude * b.2.1) (b.2.2 * 2 ^ 150)
    withSign folded.1 (sineRoundFrom amplitude len folded.2 lo (hi - lo))

/-! ### Banks 1, 2 and 3 -/

/-- The entry of bank 1 (20_memory.md R63). -/
def squareEntry (amplitude : Word) (len i : Nat) : Word :=
  if 2 * i < len then amplitude else negate32 amplitude

/-- The entry of bank 2 (20_memory.md R64): `rnd32(A * (2*i - L) / L)`. -/
def sawtoothEntry (amplitude : Word) (len i : Nat) : Word :=
  if 2 * i < len then rnd32 true (scaledMag amplitude * (len - 2 * i)) (len * 2 ^ 150)
  else rnd32 false (scaledMag amplitude * (2 * i - len)) (len * 2 ^ 150)

/-- The entry of bank 3 (20_memory.md R65): `A*4*i/L`, then `A*(2 - 4*i/L)`, then `A*(4*i/L - 4)`. -/
def triangleEntry (amplitude : Word) (len i : Nat) : Word :=
  if 4 * i ≤ len then rnd32 false (scaledMag amplitude * (4 * i)) (len * 2 ^ 150)
  else if 4 * i ≤ 2 * len then rnd32 false (scaledMag amplitude * (2 * len - 4 * i)) (len * 2 ^ 150)
  else if 4 * i ≤ 3 * len then rnd32 true (scaledMag amplitude * (4 * i - 2 * len)) (len * 2 ^ 150)
  else rnd32 true (scaledMag amplitude * (4 * len - 4 * i)) (len * 2 ^ 150)

/-- The entry of bank 0: supplied as an image, or built by R61 (00_scope.md section 4, `SINE_ROM`). -/
def sineRomEntry (c : Config) (i : Nat) : Option Word :=
  match c.sineRom with
  | none => some (sineEntry c.amplitude c.lenSine i)
  | some image => image[i]?

/-- `WaveRom(k, i)` (00_scope.md R18), defined below `TABLE_LEN[k]`; `none` is the read of 20_memory.md R68 that is
never issued. -/
def waveRom (c : Config) (k : BitVec 2) (i : Nat) : Option Word :=
  if i < tableLen c k then
    match k.toNat with
    | 0 => sineRomEntry c i
    | 1 => some (squareEntry c.amplitude c.lenSquare i)
    | 2 => some (sawtoothEntry c.amplitude c.lenSawtooth i)
    | _ => some (triangleEntry c.amplitude c.lenTriangle i)
  else none

/-! ### The note ROM -/

/-- The first octave of the note ROM, notes 0 to 11 (20_memory.md R71). -/
def noteOctave : List Word :=
  [0x4102D013#32, 0x410A9760#32, 0x4112D517#32, 0x411B9041#32, 0x4124D054#32, 0x412E9D37#32,
   0x4138FF49#32, 0x4143FF6A#32, 0x414FA700#32, 0x415C0000#32, 0x416914F6#32, 0x4176F110#32]

/-- The note ROM's contents (20_memory.md R71): each octave is the one below with its exponent one higher
("`NoteRom(n + 12)` is `2 * NoteRom(n)` exactly").  The last of the 22 octaves reaches beyond note 255. -/
def noteTable : List Word :=
  (List.range 22).flatMap (fun o => noteOctave.map (fun w => w + BitVec.ofNat 32 (o * 2 ^ 23)))

/-- `NoteRom(n)` (20_memory.md R69, R71), defined for every `n` in `0..255`. -/
def noteRom (n : BitVec 8) : Word := noteTable.getD n.toNat 0x00000000#32

/-! ### Legal configurations -/

/-- A positive finite normal binary32 pattern (00_scope.md R11). -/
def posNormal (b : Word) : Bool := !signBit b && isNormal32 b

/-- A table length of 00_scope.md R11. -/
def lenOk (n : Nat) : Bool := decide (1 ≤ n) && decide (n ≤ 2 ^ 24)

/-- 20_memory.md R62 (g) for an entry `s`: it is within half a unit in its last place of `A * sin(2*pi*i/L)`, the
sine compared exactly.  An entry of the other sign is within that distance only if both lie near zero. -/
def sineImageNear (c : Config) (i : Nat) (s : Word) : Bool :=
  let folded := foldAngle c.lenSine i
  let order := fun a => sineOrder c.lenSine folded.2 a (scaledMag c.amplitude)
  if signBit s == folded.1 then
    order (scaledMag s + halfUlp s) != .gt
      && (decide (scaledMag s ≤ halfUlp s) || order (scaledMag s - halfUlp s) != .lt)
  else decide (scaledMag s ≤ halfUlp s) && order (halfUlp s - scaledMag s) != .gt

/-- The checks of 20_memory.md R62 (b), (c), (d), (e) and (g) on one entry of a supplied image. -/
def sineImageEntryOk (c : Config) (i : Nat) (s : Word) : Bool :=
  let len := c.lenSine
  isFinite32 s && decide (scaledMag s ≤ scaledMag c.amplitude)
    && (i != 0 || s == 0x00000000#32)
    && (2 * i != len || s == 0x00000000#32)
    && (4 * i != len || s == c.amplitude)
    && (4 * i != 3 * len || s == negate32 c.amplitude)
    && sineImageNear c i s

/-- 20_memory.md R62 for a supplied image: (a) its length, (f) its antisymmetry, and each entry's checks. -/
def sineImageOk (c : Config) (image : List Word) : Bool :=
  image.length == c.lenSine
    && image.zipIdx.all (fun e => sineImageEntryOk c e.2 e.1)
    && (image.tail.zip image.tail.reverse).zipIdx.all
        (fun e => 2 * (e.2 + 1) == c.lenSine || e.1.2 == negate32 e.1.1)

/-- The legal configurations: the ranges of 00_scope.md R11, and a supplied `SINE_ROM` meets 20_memory.md R62. -/
def configLegal (c : Config) : Bool :=
  decide (1 ≤ c.np) && decide (c.np ≤ 16)
    && lenOk c.lenSine && lenOk c.lenSquare && lenOk c.lenSawtooth && lenOk c.lenTriangle
    && posNormal c.sampleRate && posNormal c.amplitude
    && decide (1 ≤ c.fpb) && decide (c.fpb ≤ 2 ^ 30)
    && (match c.sineRom with
        | none => true
        | some image => sineImageOk c image)

end Sys2Proof.Machine
end

