-- ==== Sys2Proof/Machine/Operands.lean ====
section
/-! DEFINITION. What the commands compute from their operands (41_commands.md). -/

namespace Sys2Proof.Machine

/-- The frequency a note number stands for (41_commands.md R150). -/
def noteFreq (n : BitVec 8) : Word := noteRom n

/-- The frequency of a silent oscillator, +0.0 exactly (41_commands.md R151). -/
def silentFreq : Word := 0x00000000#32

/-- A cursor after a table swap: its value, or the last index of the new table if that is smaller
(41_commands.md R160, R161). -/
def clampPhase (c : Config) (k : BitVec 2) (ph : Phase) : Phase :=
  BitVec.ofNat 24 (min ph.toNat (tableLen c k - 1))

/-- `zext32` of an 8-bit field (00_scope.md R16). -/
def zext8 (b : BitVec 8) : Word := b.setWidth 32

end Sys2Proof.Machine
end

