-- ==== Sys2Proof/Machine/Flags.lean ====
section
/-! DEFINITION. The flags and status fields (10_state.md R35 to R40, R50) and the conditions that set them. -/

namespace Sys2Proof.Machine

/-- The silence test (42_synthesis.md R182), the value of `SILENT`. -/
def silentFlag (freq : Word) : Bool := isZero32 freq

/-- The disconnection condition (40_command_fifo.md R134): every `ATT` is 0 and `V = 0`. -/
def disconnected (s : State) : Bool := s.att.all (fun a => !a) && s.v == 0#11

/-- The states in which a cycle start is an overlap (43_buffer_cycle.md R221). -/
def busy (e : EState) : Bool := e == .drain || e == .step || e == .emit

/-- The 3-bit encoding of `ESTATE` (10_state.md R36). -/
def estateCode : EState → BitVec 3
  | .idle => 0#3
  | .drain => 1#3
  | .step => 2#3
  | .emit => 3#3
  | .fatal => 4#3
  | .undefinedCode c => BitVec.ofNat 3 (5 + c.val)

/-- The STATUS register of the register port (10_state.md R50): `WAVE_SEL`, `ESTATE`, `SILENT`, `DISC_LOGGED`,
`FATAL_CAUSE`, `FATAL`, from bit 9 down to bit 0. -/
def statusWord (s : State) : Word :=
  0#22 ++ s.waveSel ++ estateCode s.estate ++ BitVec.ofBool s.silent ++ BitVec.ofBool s.discLogged
    ++ s.fatalCause ++ BitVec.ofBool s.fatal

end Sys2Proof.Machine
end

