-- ==== Sys2Proof/Machine/Ops.lean ====
section
/-! DEFINITION. The named operations: writing registers, raising events, entering FATAL and leaving it by reset,
the FIFO's transfer, crossing and pop. -/

namespace Sys2Proof.Machine

/-- What a step answers. -/
abbrev Result := Host.Outcome State Fault Refusal

/-! ### Registers -/

/-- `FREQ <- f` (10_state.md R30). -/
def setFreq (f : Word) (s : State) : State := { s with freq := f }

/-- `WAVE_SEL <- k` with both cursors clamped to the new table (41_commands.md R160, R161). -/
def selectWave (k : BitVec 2) (s : State) : State :=
  { s with
    waveSel := k
    lphase := clampPhase s.cfg k s.lphase
    rphase := clampPhase s.cfg k s.rphase }

/-- `CNT_UNKNOWN_PARAM <- CNT_UNKNOWN_PARAM + 1`, wrapping (10_state.md R48). -/
def countUnknownParam (s : State) : State := { s with cntUnknownParam := s.cntUnknownParam + 1#32 }

/-- `CNT_UNSUPPORTED <- CNT_UNSUPPORTED + 1`, wrapping (10_state.md R48). -/
def countUnsupported (s : State) : State := { s with cntUnsupported := s.cntUnsupported + 1#32 }

/-- `CNT_BAD_WAVE <- CNT_BAD_WAVE + 1`, wrapping (10_state.md R48). -/
def countBadWave (s : State) : State := { s with cntBadWave := s.cntBadWave + 1#32 }

/-- `CNT_IN_OVF <- CNT_IN_OVF + 1`, wrapping (10_state.md R48). -/
def countInOvf (s : State) : State := { s with cntInOvf := s.cntInOvf + 1#32 }

/-- `CNT_OUT_UNF <- CNT_OUT_UNF + 1`, wrapping (10_state.md R48). -/
def countOutUnf (s : State) : State := { s with cntOutUnf := s.cntOutUnf + 1#32 }

/-- What a count of the buffer cycle stands at: its 31 bits, and `2^31` where it is full (10_state.md R38, log entry 6). -/
def countOf (bits : BitVec 31) (full : Bool) : Nat := bits.toNat + if full then 2 ^ 31 else 0

/-- Whether a count is full once it has gone up by one (log entry 6). -/
def nextFull (bits : BitVec 31) (full : Bool) : Bool := full ^^ (bits == BitVec.allOnes 31)

/-- `OUT_CNT` as a number in `0..2*FPB` (10_state.md R38). -/
def outCount (s : State) : Nat := countOf s.outCnt s.outFull

/-- `IN_CNT` as a number in `0..2*FPB` (10_state.md R38). -/
def inCount (s : State) : Nat := countOf s.inCnt s.inFull

/-- `OUT_CNT <- 0; IN_CNT <- 0` (43_buffer_cycle.md R211). -/
def clearCounts (s : State) : State := { s with outCnt := 0#31, outFull := false, inCnt := 0#31, inFull := false }

/-- `OUT_CNT <- OUT_CNT + 1` (43_buffer_cycle.md R218). -/
def countOutput (s : State) : State := { s with outCnt := s.outCnt + 1#31, outFull := nextFull s.outCnt s.outFull }

/-- `IN_CNT <- IN_CNT + 1` (43_buffer_cycle.md R219). -/
def countInput (s : State) : State := { s with inCnt := s.inCnt + 1#31, inFull := nextFull s.inCnt s.inFull }

/-- The register port shows `V` as it is after a `clk` edge, until the next one (43_buffer_cycle.md R230). -/
def latchLevel (s : State) : State := { s with levelShown := s.v }

/-! ### Events -/

/-- UNKNOWN_PARAM (60_exceptions.md R243). -/
def codeUnknownParam : BitVec 4 := 0x1#4
/-- UNSUPPORTED_CMD (60_exceptions.md R243). -/
def codeUnsupportedCmd : BitVec 4 := 0x2#4
/-- BAD_WAVE (60_exceptions.md R243). -/
def codeBadWave : BitVec 4 := 0x3#4
/-- DISCONNECTED (60_exceptions.md R243). -/
def codeDisconnected : BitVec 4 := 0x4#4
/-- IN_OVERFLOW (60_exceptions.md R243). -/
def codeInOverflow : BitVec 4 := 0x5#4
/-- OUT_UNDERFLOW (60_exceptions.md R243). -/
def codeOutUnderflow : BitVec 4 := 0x6#4
/-- FATAL (60_exceptions.md R243). -/
def codeFatal : BitVec 4 := 0x7#4

/-- `raise Diag(code, info)` (60_exceptions.md R244): appends to the event sequence and writes no register. -/
def raiseDiag (code : BitVec 4) (info : Word) (s : State) : State :=
  { s with events := s.events ++ [⟨code, info⟩] }

/-! ### Entering FATAL, and the only way out -/

/-- LEN_MISMATCH (60_exceptions.md R247). -/
def causeLenMismatch : BitVec 2 := 1#2
/-- DRIVER_FATAL (60_exceptions.md R247). -/
def causeDriverFatal : BitVec 2 := 2#2
/-- CYCLE_OVERLAP (60_exceptions.md R247). -/
def causeCycleOverlap : BitVec 2 := 3#2

/-- `raise Fatal(cause)` (60_exceptions.md R245): nothing in FATAL; elsewhere the flag, the cause, the state and the
event, and nothing else of the raising step. -/
def raiseFatal (cause : BitVec 2) (s : State) : State :=
  if s.estate = .fatal then s
  else raiseDiag codeFatal (cause.setWidth 32) { s with fatal := true, fatalCause := cause, estate := .fatal }

/-- A `clk` edge with `rst` high (70_reset_and_hazards.md R280, R281): every state element takes its reset value, the
FIFO is emptied, no event is raised.  The inputs, what the agents do next and the edge counts are not the block's. -/
def applyReset (s : State) : State :=
  { State.resetOf s.cfg with
    pins := s.pins
    schedule := s.schedule
    rstClkEdges := min 2 (s.rstClkEdges + 1)
    rstWclkEdges := s.rstWclkEdges }

/-! ### The command FIFO -/

/-- The inputs of port `p`; a port not driven is low. -/
def portPins (s : State) (p : Nat) : PortPins := s.pins.ports.getD p PortPins.low

/-- `p_ready[p]` at an edge where the arbiter grants `grant` (40_command_fifo.md R123). -/
def portReady (s : State) (grant : Option Nat) (p : Nat) : Bool :=
  grant == some p && decide (p < s.cfg.np) && decide (s.q.length < depth) && !s.pins.rst && s.estate != .fatal

/-- Appending a transferred word (40_command_fifo.md R124). -/
def enqueue (w : CmdWord) (s : State) : State := { s with q := s.q ++ [w] }

/-- The transfer of an edge (40_command_fifo.md R122): from the granted port, if it is ready and offers a word. -/
def transferAt (grant : Option Nat) (s : State) : State :=
  match grant with
  | none => s
  | some p =>
    if portReady s grant p && (portPins s p).valid then enqueue (portPins s p).data s else s

/-- A rising edge of `wclk`.  While reset is asserted no transfer happens (40_command_fifo.md R138) and the edge is
counted (log entry 12). -/
def wclkEdge (grant : Option Nat) (arb : Nat) (s : State) : State :=
  if s.pins.rst then { s with rstWclkEdges := min 2 (s.rstWclkEdges + 1) }
  else { transferAt grant s with arbst := arb }

/-- A crossing step (40_command_fifo.md R128): the oldest invisible word becomes visible.  It is not enabled while
reset is asserted (R138) or when every word is visible. -/
def crossStep (s : State) : State :=
  if !s.pins.rst && decide (s.v.toNat < s.q.length) then { s with v := s.v + 1#11 } else s

/-- `ATT[p] <- p_attach[p]` (40_command_fifo.md R121), a step of the crossing agent: none while reset is asserted
(70_reset_and_hazards.md R281, log entry 17). -/
def sampleAttachStep (p : Nat) (s : State) : State :=
  if s.pins.rst then s else { s with att := s.att.set p (portPins s p).attach }

/-- `FifoPop()` (40_command_fifo.md R131): the word and the state without it; `none` where its precondition fails. -/
def fifoPop (s : State) : Option (CmdWord × State) :=
  match s.q with
  | [] => none
  | w :: rest => if s.v = 0#11 then none else some (w, { s with q := rest, v := s.v - 1#11 })

/-! ### The host side -/

/-- Whether the present assertion of `rst` has had too few edges (70_reset_and_hazards.md R282). -/
def resetTooShort (s : State) : Bool :=
  decide (s.rstClkEdges < 2) || (s.cfg.wclkMode == .async && decide (s.rstWclkEdges < 2))

/-- The host side drives the inputs (00_scope.md R14 (d)).  Ending a reset too early is refused
(93_implementation_defined.md K21). -/
def drivePins (pins : Pins) (s : State) : Result :=
  if s.pins.rst && !pins.rst && resetTooShort s then .refused .resetTooShort
  else
    .next
      { s with
        pins := pins
        rstClkEdges := if pins.rst then s.rstClkEdges else 0
        rstWclkEdges := if pins.rst then s.rstWclkEdges else 0 }

end Sys2Proof.Machine
end

