-- ==== Sys2Proof/Machine/Notes.lean ====
section
/-! DEFINITION. The note commands (41_commands.md section 1). -/

namespace Sys2Proof.Machine

/-- NOTE_ON (41_commands.md R150): `FREQ <- NoteRom(n)`. -/
def execNoteOn (n : BitVec 8) (s : State) : Result := .next (setFreq (noteFreq n) s)

/-- NOTE_OFF (41_commands.md R151): `FREQ <- 0x0000_0000`. -/
def execNoteOff (s : State) : Result := .next (setFreq silentFreq s)

end Sys2Proof.Machine
end

