-- ==== Sys2Proof/Machine/Params.lean ====
section
/-! DEFINITION. The parameter commands (41_commands.md section 2). -/

namespace Sys2Proof.Machine

/-- SET_PARAM frequency (41_commands.md R152): a bit-exact copy into `FREQ`. -/
def execSetParam (v : Word) (s : State) : Result := .next (setFreq v s)

/-- SET_PARAM with an unknown id (41_commands.md R165): a diagnostic and a count. -/
def execSetParamUnknown (id : BitVec 8) (s : State) : Result :=
  .next (countUnknownParam (raiseDiag codeUnknownParam (zext8 id) s))

end Sys2Proof.Machine
end

