-- ==== Sys2Proof/Machine/Reserved.lean ====
section
/-! DEFINITION. Reserved words (41_commands.md section 4). -/

namespace Sys2Proof.Machine

/-- A reserved opcode (41_commands.md R170): a diagnostic and a count. -/
def execReserved (opc : BitVec 8) (s : State) : Result :=
  .next (countUnsupported (raiseDiag codeUnsupportedCmd (zext8 opc) s))

end Sys2Proof.Machine
end

