-- ==== Sys2Proof/Machine/Waves.lean ====
section
/-! DEFINITION. The waveform commands (41_commands.md section 3). -/

namespace Sys2Proof.Machine

/-- SET_WAVE (41_commands.md R160, R161): the bank and the clamped cursors. -/
def execSetWave (k : BitVec 2) (s : State) : Result := .next (selectWave k s)

/-- SET_WAVE with an invalid kind (41_commands.md R163): a diagnostic and a count. -/
def execSetWaveInvalid (kind : Word) (s : State) : Result :=
  .next (countBadWave (raiseDiag codeBadWave kind s))

end Sys2Proof.Machine
end

