-- ==== Sys2Proof/Machine/Dispatch.lean ====
section
/-! DEFINITION. One arm per command of 30_encoding.md R98: what `Apply` of 41_commands.md R171 performs. -/

namespace Sys2Proof.Machine

def exec (i : Instr) (s : State) : Host.Outcome State Fault Refusal :=
  match i with
  | .noteOn n => Sys2Proof.Machine.execNoteOn n s
  | .noteOff => Sys2Proof.Machine.execNoteOff s
  | .setParam v => Sys2Proof.Machine.execSetParam v s
  | .setParamUnknown id => Sys2Proof.Machine.execSetParamUnknown id s
  | .setWave k => Sys2Proof.Machine.execSetWave k s
  | .setWaveInvalid kind => Sys2Proof.Machine.execSetWaveInvalid kind s
  | .reserved opc => Sys2Proof.Machine.execReserved opc s

end Sys2Proof.Machine
end

