-- ==== Sys2Proof/Machine/Synthesis.lean ====
section
/-! DEFINITION. The step computation, the sample lookup and the phase advance (42_synthesis.md). -/

namespace Sys2Proof.Machine

/-- `STEP` of a frequency that is not zero (42_synthesis.md R181, R183, R184): two binary32 divisions in the order
written, then the floor modulo the table length; 0 for a quotient that is a NaN, an infinity, zero or negative. -/
def stepOfFreq (sampleRate freq : Word) (len : Nat) : Phase :=
  match div32 sampleRate freq with
  | none => 0#24
  | some q1 =>
    match div32 (i2f32 len) q1 with
    | none => 0#24
    | some q2 =>
      if isInf32 q2 || signBit q2 || isZero32 q2 then 0#24 else BitVec.ofNat 24 (floor32 q2 % len)

/-- The step computation (42_synthesis.md R181): writes `SILENT` and `STEP`. -/
def stepComputation (s : State) : State :=
  if silentFlag s.freq then { s with silent := true, phaseStep := 0#24 }
  else
    { s with
      silent := false
      phaseStep := stepOfFreq s.cfg.sampleRate s.freq (tableLen s.cfg s.waveSel) }

/-- `Advance(ph)` (42_synthesis.md R187) with the table length and the step. -/
def advance (len : Nat) (step ph : Phase) : Phase :=
  let t := ph.toNat + step.toNat
  BitVec.ofNat 24 (if len ≤ t then t - len else t)

/-- Both cursors advance, once, after the right word (42_synthesis.md R185, 43_buffer_cycle.md R218). -/
def advanceCursors (s : State) : State :=
  let len := tableLen s.cfg s.waveSel
  { s with
    lphase := advance len s.phaseStep s.lphase
    rphase := advance len s.phaseStep s.rphase }

/-- The word of output index `j` (43_buffer_cycle.md R218): +0.0 in a silent buffer (42_synthesis.md R186), else the
table entry at the left cursor for an even index and at the right cursor for an odd one (R185, R190).  `none` is the
read of 20_memory.md R68 that is never issued. -/
def sampleWord (s : State) (j : Nat) : Option Word :=
  if s.silent then some 0x00000000#32
  else waveRom s.cfg s.waveSel (if j % 2 = 0 then s.lphase else s.rphase).toNat

end Sys2Proof.Machine
end

