-- ==== Sys2Proof/Machine/Sequencer.lean ====
section
/-! DEFINITION. The engine: the buffer-cycle sequencer (43_buffer_cycle.md) and the priority of the conditions of one
`clk` edge (60_exceptions.md R250). -/

namespace Sys2Proof.Machine

/-- The buffer length in words, `N = 2*FPB` (43_buffer_cycle.md R210). -/
def bufferWords (s : State) : Nat := 2 * s.cfg.fpb

/-- The length check fails (43_buffer_cycle.md R212). -/
def lengthMismatch (s : State) : Bool :=
  s.pins.cycInLen.toNat != bufferWords s || s.pins.cycOutLen.toNat != bufferWords s

/-- The input-overflowed condition of a cycle start (43_buffer_cycle.md R214). -/
def reportInOvf (s : State) : State :=
  if s.pins.cycInOvf then countInOvf (raiseDiag codeInOverflow s.cntCycles s) else s

/-- The output-underflowed condition of a cycle start (43_buffer_cycle.md R214). -/
def reportOutUnf (s : State) : State :=
  if s.pins.cycOutUnf then countOutUnf (raiseDiag codeOutUnderflow s.cntCycles s) else s

/-- A cycle start (43_buffer_cycle.md R211 to R214): the length check; then the counts are cleared, the stream
conditions are reported, and the number of visible words is the drain's. -/
def cycleStart (s : State) : State :=
  if lengthMismatch s then raiseFatal causeLenMismatch s
  else
    let s1 := reportOutUnf (reportInOvf { clearCounts s with outWords := [] })
    { s1 with drainLeft := s1.v, estate := .drain }

/-- `Apply(w)` (41_commands.md R171). -/
def applyWord (w : CmdWord) (s : State) : Result := exec (decode w) s

/-- A drain step (43_buffer_cycle.md R215): pop a word, apply it, count it. -/
def drainStep (s : State) : Result :=
  match fifoPop s with
  | none => .fault .popFromEmptyFifo
  | some (w, s1) =>
    match applyWord w s1 with
    | .next s2 => .next { s2 with drainLeft := s2.drainLeft - 1#11 }
    | .fault f => .fault f
    | .refused r => .refused r

/-- The disconnection check (40_command_fifo.md R134), reported at most once per reset. -/
def disconnectionCheck (s : State) : State :=
  if disconnected s && !s.discLogged then
    { raiseDiag codeDisconnected 0x00000000#32 s with discLogged := true }
  else s

/-- The drain's end (43_buffer_cycle.md R216). -/
def drainEnd (s : State) : State := { disconnectionCheck s with estate := .step }

/-- The step state (43_buffer_cycle.md R217). -/
def stepState (s : State) : State := { stepComputation s with estate := .emit }

/-- Output words are left to move (43_buffer_cycle.md R218). -/
def outPending (s : State) : Bool := decide (outCount s < bufferWords s)

/-- Input words are left to move (43_buffer_cycle.md R219). -/
def inPending (s : State) : Bool := decide (inCount s < bufferWords s)

/-- The transfer of the presented word `w` (43_buffer_cycle.md R218): after the right word of a sounding frame both
cursors advance. -/
def takeOutput (w : Word) (s : State) : State :=
  let s1 := { countOutput s with outWords := s.outWords ++ [w] }
  if outCount s % 2 = 1 ∧ s.silent = false then advanceCursors s1 else s1

/-- The output stream at an EMIT edge (43_buffer_cycle.md R218): while words are left one is presented, which reads
the table, and it moves if the driver is ready. -/
def outputSide (s : State) : Result :=
  if outPending s then
    match sampleWord s (outCount s) with
    | none => .fault .waveRomIndexOutOfRange
    | some w => .next (if s.pins.outReady then takeOutput w s else s)
  else .next s

/-- The input stream at an EMIT edge (43_buffer_cycle.md R219): the word is counted and discarded. -/
def inputSide (s : State) : State :=
  if inPending s && s.pins.inValid then countInput s else s

/-- Cycle completion (43_buffer_cycle.md R220). -/
def completeCycle (s : State) : State := { s with cntCycles := s.cntCycles + 1#32, estate := .idle }

/-- An EMIT edge: completion when both streams are complete before it (43_buffer_cycle.md R220), else the transfers,
of which both may happen at one edge (R219). -/
def emitStep (s : State) : Result :=
  if outCount s = bufferWords s ∧ inCount s = bufferWords s then .next (completeCycle s)
  else
    match outputSide s with
    | .next s1 => .next (inputSide s1)
    | .fault f => .fault f
    | .refused r => .refused r

/-- The engine's own step for `ESTATE` (43_buffer_cycle.md R225).  In IDLE without a cycle start and in FATAL it takes
none (R224, 60_exceptions.md R241). -/
def engineStep (s : State) : Result :=
  match s.estate with
  | .idle => .next (if s.pins.cycStart then cycleStart s else s)
  | .drain => if s.drainLeft = 0#11 then .next (drainEnd s) else drainStep s
  | .step => .next (stepState s)
  | .emit => emitStep s
  | .fatal => .next s
  | .undefinedCode _ => .fault .undefinedEstate

/-- What happens at a `clk` edge (60_exceptions.md R250): reset, then a driver fatal error (43_buffer_cycle.md R222), then a cycle
start while busy (R221), then the engine's own step. -/
def clkStep (s : State) : Result :=
  if s.pins.rst then .next (applyReset s)
  else if s.pins.drvFatal && s.estate != .fatal then .next (raiseFatal causeDriverFatal s)
  else if s.pins.cycStart && busy s.estate then .next (raiseFatal causeCycleOverlap s)
  else engineStep s

/-- One `clk` edge: what happens at it, and then the register port shows the state it leaves (43_buffer_cycle.md R230). -/
def clkEdge (s : State) : Result :=
  match clkStep s with
  | .next t => .next (latchLevel t)
  | .fault f => .fault f
  | .refused r => .refused r

end Sys2Proof.Machine
end

