-- ==== Sys2Proof/Machine/Ports.lean ====
section
/-! DEFINITION. The outputs of the block as functions of the state (43_buffer_cycle.md R210, 70_reset_and_hazards.md
R283) and the read-only register port (10_state.md R49, R50).  `p_ready` is `portReady` of Machine/Ops.lean. -/

namespace Sys2Proof.Machine

/-- `cyc_idle` -/
def cycIdleOut (s : State) : Bool := !s.pins.rst && s.estate == .idle

/-- `out_valid` (43_buffer_cycle.md R218). -/
def outValidOut (s : State) : Bool := !s.pins.rst && s.estate == .emit && outPending s

/-- `out_data` (43_buffer_cycle.md R218), where `out_valid` is 1 (log entry 21). -/
def outDataOut (s : State) : Option Word := if outValidOut s then sampleWord s (outCount s) else none

/-- `out_last` (43_buffer_cycle.md R218). -/
def outLastOut (s : State) : Bool := outValidOut s && outCount s + 1 == bufferWords s

/-- `in_ready` (43_buffer_cycle.md R219). -/
def inReadyOut (s : State) : Bool := !s.pins.rst && s.estate == .emit && inPending s

/-- `fatal` (60_exceptions.md R241). -/
def fatalOut (s : State) : Bool := !s.pins.rst && s.fatal

/-- `fatal_cause` (60_exceptions.md R241). -/
def fatalCauseOut (s : State) : BitVec 2 := if s.pins.rst then 0#2 else s.fatalCause

/-- The events the diagnostic port shows, one edge each, during a step from `s` to `t` that is not a reset
(60_exceptions.md R242, 70_reset_and_hazards.md R298). -/
def eventsShown (s t : State) : List Event := t.events.drop s.events.length

/-- The register at `addr` (10_state.md R50), as of the most recent `clk` edge (43_buffer_cycle.md R230): of what the map
shows only `V` changes between two edges, so `levelShown` stands for it.  All 16 addresses are assigned. -/
def csrRead (s : State) (addr : BitVec 4) : Word :=
  match addr.toNat with
  | 0x0 => 0x57540001#32
  | 0x1 => statusWord s
  | 0x2 => s.freq
  | 0x3 => s.lphase.setWidth 32
  | 0x4 => s.rphase.setWidth 32
  | 0x5 => s.phaseStep.setWidth 32
  | 0x6 => s.levelShown.setWidth 32
  | 0x7 => s.cntUnknownParam
  | 0x8 => s.cntUnsupported
  | 0x9 => s.cntBadWave
  | 0xA => s.cntInOvf
  | 0xB => s.cntOutUnf
  | 0xC => s.cntCycles
  | 0xD => BitVec.ofNat 32 s.cfg.fpb
  | 0xE => s.cfg.sampleRate
  | _ => BitVec.ofNat 32 (tableLen s.cfg s.waveSel)

/-- `csr_rdata` (43_buffer_cycle.md R230): the register at `csr_addr`, and its reset value while reset is asserted. -/
def csrRdataOut (s : State) : Word :=
  csrRead (if s.pins.rst then State.resetOf s.cfg else s) s.pins.csrAddr

end Sys2Proof.Machine
end

