-- ==== Sys2Proof/Machine/Agents.lean ====
section
/-! DEFINITION. One step of one agent (00_scope.md R14), which agent moves next, and placing a command word where the
next step takes it. -/

namespace Sys2Proof.Machine

/-- A step of the agent an action names.  An agent that is not enabled changes nothing (log entry 3). -/
def perform (a : Action) (s : State) : Result :=
  match a with
  | .drive pins => drivePins pins s
  | .clk => clkEdge s
  | .wclk grant arb => .next (wclkEdge grant arb s)
  | .cross => .next (crossStep s)
  | .sampleAttach p => .next (sampleAttachStep p s)

/-- The step of the agent that `schedule` names first, or of the engine where it names none (log entry 2); an illegal
configuration is refused (00_scope.md R11). -/
def nextStep (s : State) : Result :=
  if configLegal s.cfg then
    match s.schedule with
    | [] => perform .clk s
    | a :: rest => perform a { s with schedule := rest }
  else .refused .illegalConfiguration

/-- A list of agents' steps one after another, stopping at the first fault or refusal. -/
def performAll : List Action → State → Result
  | [], s => .next s
  | a :: rest, s =>
    match perform a s with
    | .next t => performAll rest t
    | .fault f => .fault f
    | .refused r => .refused r

/-- A command word at the FIFO's head, visible, with a drain under way and an engine step next, so that the next step
pops and applies exactly it (43_buffer_cycle.md R215, log entry 8). -/
def placeCommand (w : CmdWord) (s : State) : State :=
  { s with
    q := w :: s.q.tail
    v := if s.v = 0#11 then 1#11 else s.v
    drainLeft := if s.drainLeft = 0#11 then 1#11 else s.drainLeft
    estate := .drain
    fatal := false
    fatalCause := 0#2
    pins := { s.pins with rst := false, cycStart := false, drvFatal := false }
    schedule := .clk :: s.schedule }

end Sys2Proof.Machine
end

