-- ==== Sys2Proof/Safety.lean ====
section
/-! DEFINITION. The terms claims use: failed runs, the machine's invariant, paths of steps, whole executions with
their fairness and the driver's duties, and what it means for a pattern to be the rounding of a real number. -/

namespace Sys2Proof.Safety

open Sys2Proof.Machine

/-! ### Runs -/

/-- FATAL is a fault state, never a successful end of a run (60_exceptions.md R241, log entry 5). -/
def failed (s : State) : Bool := s.estate == .fatal

/-- A run that ends with a next state that is not failed. -/
def successfulEnd : Result → Bool
  | .next s => !failed s
  | .fault _ => false
  | .refused _ => false

/-- The next step is an edge of `clk`. -/
def clkNext (s : State) : Bool := s.schedule.head?.getD .clk == .clk

/-- The next step is a `clk` edge with reset asserted. -/
def resetNext (s : State) : Bool := clkNext s && s.pins.rst

/-- The state once the schedule's first entry has been taken. -/
def taken (s : State) : State := { s with schedule := s.schedule.tail }

/-- A path of steps all of whose states have the `ESTATE` `e`. -/
inductive StaysIn (e : EState) : State → State → Prop where
  | refl (s : State) : s.estate = e → StaysIn e s s
  | tail (s t u : State) : StaysIn e s t → step t = .next u → u.estate = e → StaysIn e s u

/-- Applying words one after another, each seeing the state the previous one left (41_commands.md R172). -/
def applyAll : List CmdWord → State → Result
  | [], s => .next s
  | w :: rest, s =>
    match applyWord w s with
    | .next t => applyAll rest t
    | .fault f => .fault f
    | .refused r => .refused r

/-- How many events of a sequence have a code. -/
def countEvents (code : BitVec 4) (events : List Event) : Nat := (events.filter (fun e => e.code == code)).length

/-! ### The invariant -/

/-- What holds at reset of a legal block and is kept by every step. -/
structure Inv (s : State) : Prop where
  /-- 00_scope.md R11. -/
  legal : configLegal s.cfg = true
  /-- 10_state.md R31. -/
  lphase_lt : s.lphase.toNat < tableLen s.cfg s.waveSel
  /-- 10_state.md R32. -/
  cursors_eq : s.lphase = s.rphase
  /-- 10_state.md R34. -/
  step_lt : s.estate = .emit → s.phaseStep.toNat < tableLen s.cfg s.waveSel
  /-- 42_synthesis.md R189: `SILENT` is the silence test of `FREQ` throughout EMIT, and a silent buffer has step 0. -/
  emit_silent : s.estate = .emit → s.silent = isZero32 s.freq ∧ (s.silent = true → s.phaseStep = 0#24)
  /-- 10_state.md R42. -/
  v_le : s.v.toNat ≤ s.q.length
  /-- 10_state.md R42. -/
  q_le : s.q.length ≤ depth
  /-- 40_command_fifo.md R131. -/
  drain_le : s.drainLeft.toNat ≤ s.v.toNat
  /-- 10_state.md R37: nothing is left to apply once the drain is over. -/
  drain_over : s.estate = .idle ∨ s.estate = .step ∨ s.estate = .emit → s.drainLeft = 0#11
  /-- 10_state.md R39. -/
  fatal_iff : s.fatal = true ↔ s.estate = .fatal
  /-- 10_state.md R39. -/
  cause_iff : s.fatalCause = 0#2 ↔ s.fatal = false
  /-- 10_state.md R36: the encodings 5, 6 and 7 never occur. -/
  estate_defined : ∀ c, s.estate ≠ .undefinedCode c
  /-- 10_state.md R38. -/
  out_le : outCount s ≤ bufferWords s
  /-- 10_state.md R38. -/
  in_le : inCount s ≤ bufferWords s
  /-- 43_buffer_cycle.md R211: the counts are clear until EMIT. -/
  counts_clear : s.estate = .drain ∨ s.estate = .step → outCount s = 0 ∧ inCount s = 0
  /-- 10_state.md R38: `OUT_CNT` counts the words of the present cycle. -/
  out_words : s.outWords.length = outCount s
  /-- 10_state.md R45. -/
  att_len : s.att.length = s.cfg.np
  /-- 60_exceptions.md R243: codes 0x0 and 0x8 to 0xF are never raised. -/
  event_codes : ∀ e ∈ s.events, 1 ≤ e.code.toNat ∧ e.code.toNat ≤ 7
  /-- 10_state.md R40: DISCONNECTED is reported once per reset at most, exactly when `DISC_LOGGED` is set. -/
  disc_once : countEvents codeDisconnected s.events = s.discLogged.toNat
  /-- 60_exceptions.md R246: one FATAL event at most. -/
  fatal_once : countEvents codeFatal s.events = s.fatal.toNat
  /-- 10_state.md R41: the counters count their events, modulo `2^32`. -/
  cnt_unknown : s.cntUnknownParam = BitVec.ofNat 32 (countEvents codeUnknownParam s.events)
  cnt_unsupported : s.cntUnsupported = BitVec.ofNat 32 (countEvents codeUnsupportedCmd s.events)
  cnt_bad_wave : s.cntBadWave = BitVec.ofNat 32 (countEvents codeBadWave s.events)
  cnt_in_ovf : s.cntInOvf = BitVec.ofNat 32 (countEvents codeInOverflow s.events)
  cnt_out_unf : s.cntOutUnf = BitVec.ofNat 32 (countEvents codeOutUnderflow s.events)
  /-- 70_reset_and_hazards.md R282: no edges are counted while `rst` is low. -/
  rst_counts : s.pins.rst = false → s.rstClkEdges = 0 ∧ s.rstWclkEdges = 0

/-! ### Whole executions -/

/-- An infinite sequence of agents' steps (00_scope.md R14). -/
def IsExecution (a : Nat → Action) (s : Nat → State) : Prop :=
  Inv (s 0) ∧ ∀ t, perform (a t) (s t) = .next (s (t + 1))

/-- Reset is never asserted. -/
def NeverReset (s : Nat → State) : Prop := ∀ t, (s t).pins.rst = false

/-- Weak fairness of the crossing step (40_command_fifo.md R129): not enabled for ever without being taken. -/
def FairCrossing (a : Nat → Action) (s : Nat → State) : Prop :=
  ∀ t, (∀ u, t ≤ u → (s u).v.toNat < (s u).q.length) → ∃ u, t ≤ u ∧ a u = .cross

/-- The action is an edge of `wclk`. -/
def isWclk : Action → Bool
  | .wclk _ _ => true
  | _ => false

/-- A transfer from port `p` happens (40_command_fifo.md R122). -/
def transfersFrom (p : Nat) : Action → State → Bool
  | .wclk grant _, s => portReady s grant p && (portPins s p).valid
  | _, _ => false

/-- The write side may take a word: room, no reset, not FATAL (40_command_fifo.md R123). -/
def writeOpen (s : State) : Bool := decide (s.q.length < depth) && !s.pins.rst && s.estate != .fatal

/-- Fairness (a) of 40_command_fifo.md R127. -/
def FairTransfer (a : Nat → Action) (s : Nat → State) : Prop :=
  ∀ t, (∀ n, ∃ u, n ≤ u ∧ isWclk (a u) = true) →
    (∃ p, p < (s t).cfg.np ∧ ∀ u, t ≤ u → isWclk (a u) = true →
      writeOpen (s u) = true ∧ (portPins (s u) p).valid = true) →
    ∃ u p, t ≤ u ∧ transfersFrom p (a u) (s u) = true

/-- Fairness (b) of 40_command_fifo.md R127 for the port `p`. -/
def FairPort (p : Nat) (a : Nat → Action) (s : Nat → State) : Prop :=
  ∀ t, (∀ u, t ≤ u → isWclk (a u) = true → (portPins (s u) p).valid = true) →
    (∀ n, ∃ u, n ≤ u ∧ isWclk (a u) = true ∧ writeOpen (s u) = true) →
    ∃ u, t ≤ u ∧ transfersFrom p (a u) (s u) = true

/-- The driver's duties (43_buffer_cycle.md R223): starts only in IDLE, right lengths, handshakes in finite time. -/
def DriverDuties (a : Nat → Action) (s : Nat → State) : Prop :=
  (∀ t, a t = .clk → (s t).pins.cycStart = true → cycIdleOut (s t) = true ∧ lengthMismatch (s t) = false) ∧
  (∀ t, (∀ u, t ≤ u → outValidOut (s u) = true) → ∃ u, t ≤ u ∧ a u = .clk ∧ (s u).pins.outReady = true) ∧
  (∀ t, (∀ u, t ≤ u → inReadyOut (s u) = true) → ∃ u, t ≤ u ∧ a u = .clk ∧ (s u).pins.inValid = true)

/-! ### Rounding of real numbers -/

/-- `w` is `rnd32(x)` (00_scope.md R19, 20_memory.md R66): +0.0 for 0; an infinity of the sign of `x` from
`2^128 - 2^103` on; else the finite pattern with the sign of `x` that is nearest, and even in its last place where
another value is as near. -/
structure IsRnd32 (x : ℝ) (w : Word) : Prop where
  zero : x = 0 → w = 0x00000000#32
  overflow : (2 : ℝ) ^ 128 - 2 ^ 103 ≤ |x| → isInf32 w = true ∧ (signBit w = true ↔ x < 0)
  nearest : x ≠ 0 → |x| < (2 : ℝ) ^ 128 - 2 ^ 103 →
    isFinite32 w = true ∧ (signBit w = true ↔ x < 0) ∧
    ∀ u : Word, isFinite32 u = true →
      |x - (val32 w : ℝ)| ≤ |x - (val32 u : ℝ)| ∧
      (|x - (val32 w : ℝ)| = |x - (val32 u : ℝ)| → val32 u ≠ val32 w → w.getLsbD 0 = false)

/-- One unit in the last place of a finite pattern. -/
noncomputable def ulp32 (w : Word) : ℝ := 2 ^ max (expField w) 1 / 2 ^ 150

/-- What 20_memory.md R62 lets a model assume of bank 0 in its clauses (b) to (g), of the entries of a bank; (a) is the
bank's length. -/
structure SineImageRules (amplitude : Word) (len : Nat) (entry : Nat → Word) : Prop where
  /-- (b) -/
  bounded : ∀ i, i < len → isFinite32 (entry i) = true ∧ |val32 (entry i)| ≤ val32 amplitude
  /-- (c) -/
  first : entry 0 = 0x00000000#32
  /-- (d) -/
  middle : ∀ i, 2 * i = len → entry i = 0x00000000#32
  /-- (e) -/
  quarters : ∀ i, 4 * i = len → entry i = amplitude ∧ entry (3 * i) = negate32 amplitude
  /-- (f) -/
  antisymmetric : ∀ i, 1 ≤ i → i < len → 2 * i ≠ len → entry (len - i) = negate32 (entry i)
  /-- (g) -/
  near : ∀ i, i < len →
    |(val32 (entry i) : ℝ) - (val32 amplitude : ℝ) * Real.sin (2 * Real.pi * i / len)| ≤ ulp32 (entry i) / 2

end Sys2Proof.Safety
end

