-- ==== Sys2Proof/Certificates/Slice0/Obligations.lean ====
section
/-! DEFINITION. The statements for the provers.  Each docstring names the rule or the sections of spec/ it formalises
and the log entries it rests on. -/

open Sys2Proof Sys2Proof.Machine Sys2Proof.Safety

/-! ### Encoding -/

/-- 30_encoding.md sections 1 and 4: no operand bit of a well-formed instruction is lost by encoding. -/
def Obligations.DecodeOfEncodeIsIdentity : Prop :=
  ∀ i : Instr, i.wf = true → decode (encode i) = i

/-- 30_encoding.md sections 1 to 3: encoding what a word decodes to gives the word with the bits its line ignores
cleared, and what a word decodes to is well-formed. -/
def Obligations.EncodeOfDecodeKeepsTheReadBits : Prop :=
  ∀ w : CmdWord, encode (decode w) = w &&& careMask (decode w) ∧ (decode w).wf = true

/-- 30_encoding.md R98: each line of the list is taken exactly when its condition holds, with the operands of R93 to
R97 and R101. -/
def Obligations.DecodeTakesTheMatchingLine : Prop :=
  ∀ w : CmdWord,
    (∀ n, decode w = .noteOn n ↔ opcField w = 0x90#8 ∧ n = w.extractLsb' 0 8) ∧
    (decode w = .noteOff ↔ opcField w = 0x80#8) ∧
    (∀ v, decode w = .setParam v ↔ opcField w = 0x01#8 ∧ subField w = 0x00#8 ∧ v = w.extractLsb' 0 32) ∧
    (∀ id, decode w = .setParamUnknown id ↔ opcField w = 0x01#8 ∧ subField w ≠ 0x00#8 ∧ id = w.extractLsb' 32 8) ∧
    (∀ k, decode w = .setWave k ↔
      opcField w = 0x02#8 ∧ (payloadField w).toNat ≤ 3 ∧ k = w.extractLsb' 0 2) ∧
    (∀ kind, decode w = .setWaveInvalid kind ↔
      opcField w = 0x02#8 ∧ 3 < (payloadField w).toNat ∧ kind = w.extractLsb' 0 32) ∧
    (∀ o, decode w = .reserved o ↔
      opcField w ≠ 0x90#8 ∧ opcField w ≠ 0x80#8 ∧ opcField w ≠ 0x01#8 ∧ opcField w ≠ 0x02#8 ∧
        o = w.extractLsb' 40 8)

/-- 30_encoding.md R100: `SUB` of NOTE_ON, NOTE_OFF and SET_WAVE, `PAYLOAD[31:8]` of NOTE_ON and `PAYLOAD` of NOTE_OFF
do not change what a word decodes to. -/
def Obligations.IgnoredFieldsDecodeTheSame : Prop :=
  ∀ (sub sub' : BitVec 8) (p p' : Word),
    (p.extractLsb' 0 8 = p'.extractLsb' 0 8 → decode (mkWord 0x90#8 sub p) = decode (mkWord 0x90#8 sub' p')) ∧
    decode (mkWord 0x80#8 sub p) = decode (mkWord 0x80#8 sub' p') ∧
    decode (mkWord 0x02#8 sub p) = decode (mkWord 0x02#8 sub' p)

/-- 30_encoding.md R108: the example lines assemble to the words of its table. -/
def Obligations.ExampleLinesAssembleToTheirWords : Prop :=
  assemble (.noteOn 69#8) = 0x900000000045#48 ∧
  assemble (.noteOn 21#8) = 0x900000000015#48 ∧
  assemble .noteOff = 0x800000000000#48 ∧
  assemble (expandPseudo (.setFreq (rnd32 false 440 1))) = 0x010043DC0000#48 ∧
  assemble (expandPseudo (.setFreq 0x7FC00000#32)) = 0x01007FC00000#48 ∧
  assemble (.setParam 7#8 (rnd32 false 1 1)) = 0x01073F800000#48 ∧
  assemble (expandPseudo .sine) = 0x020000000000#48 ∧
  assemble (expandPseudo .square) = 0x020000000001#48 ∧
  assemble (expandPseudo .sawtooth) = 0x020000000002#48 ∧
  assemble (expandPseudo .triangle) = 0x020000000003#48 ∧
  assemble (.setWave 4#32) = 0x020000000004#48 ∧
  assemble (expandPseudo (.midi 0xB0#8 7#8)) = 0xB00000000007#48

/-- 30_encoding.md sections 1 and 5: one written-out word of each of the seven decode lines (the words of R108 and of
95_test_vectors.md T1 to T16) decodes to the instruction it stands for. -/
def Obligations.WrittenWordsDecode : Prop :=
  decode 0x90FFFFFFFF45#48 = .noteOn 69#8 ∧
  decode 0x801234567845#48 = .noteOff ∧
  decode 0x010043DC0000#48 = .setParam 0x43DC0000#32 ∧
  decode 0x01073F800000#48 = .setParamUnknown 7#8 ∧
  decode 0x02AB00000001#48 = .setWave 1#2 ∧
  decode 0x020000010000#48 = .setWaveInvalid 0x00010000#32 ∧
  decode 0x910000000045#48 = .reserved 0x91#8

/-- 30_encoding.md section 4: a forwarded MIDI event (its status byte has bit 7 set) is NOTE_ON of its data byte for
status 0x90, NOTE_OFF for 0x80, and a reserved word for every other status. -/
def Obligations.MidiEventsForwardUnchanged : Prop :=
  ∀ status data : BitVec 8, status.getLsbD 7 = true →
    decode (midiWord status data) =
      if status = 0x90#8 then .noteOn data else if status = 0x80#8 then .noteOff else .reserved status

/-! ### Fetch and step -/

/-- 43_buffer_cycle.md R215 within one step: where the schedule names an engine edge with no reset, driver error or
overlap, a drain is under way and a word is visible, the step is `exec` of what that word decodes to on the state
without the word, and then one word fewer is left and the register port shows the new `V` (R230). -/
def Obligations.StepRunsTheDecodedWord : Prop :=
  ∀ (s : State) (w : CmdWord) (rest : List CmdWord),
    configLegal s.cfg = true → clkNext s = true →
    s.pins.rst = false → s.pins.drvFatal = false → s.pins.cycStart = false →
    s.estate = .drain → s.drainLeft ≠ 0#11 → s.v ≠ 0#11 → s.q = w :: rest →
    step s =
      match exec (decode w) { s with schedule := s.schedule.tail, q := rest, v := s.v - 1#11 } with
      | .next t => .next { t with drainLeft := t.drainLeft - 1#11, levelShown := t.v }
      | .fault f => .fault f
      | .refused r => .refused r

/-- 00_scope.md R11, and 20_memory.md R62 for a supplied `SINE_ROM`: a step is refused exactly for a configuration with a
parameter outside its range, or with an image of bank 0 that has not the properties (a) to (g).  That such an image makes
the configuration illegal is the model's reading of R62 (log entry 9). -/
def Obligations.IllegalConfigurationIsRefused : Prop :=
  ∀ s : State,
    ((step s = .refused .illegalConfiguration) ↔
      ¬ ((∀ k, 1 ≤ tableLen s.cfg k ∧ tableLen s.cfg k ≤ 2 ^ 24) ∧
          (signBit s.cfg.sampleRate = false ∧ 1 ≤ expField s.cfg.sampleRate ∧ expField s.cfg.sampleRate ≤ 254) ∧
          (signBit s.cfg.amplitude = false ∧ 1 ≤ expField s.cfg.amplitude ∧ expField s.cfg.amplitude ≤ 254) ∧
          (1 ≤ s.cfg.fpb ∧ s.cfg.fpb ≤ 2 ^ 30) ∧ (1 ≤ s.cfg.np ∧ s.cfg.np ≤ 16) ∧
          ∀ image, s.cfg.sineRom = some image →
            image.length = s.cfg.lenSine ∧
              SineImageRules s.cfg.amplitude s.cfg.lenSine (fun i => image.getD i 0x00000000#32)))

/-! ### Commands -/

/-- 41_commands.md R150: NOTE_ON writes `FREQ` only, with the note ROM's word at `w[7:0]`, for every word with its
opcode; the example word gives 440.0. -/
def Obligations.NoteOnWritesTheNoteFrequency : Prop :=
  (∀ (w : CmdWord) (s : State), opcField w = 0x90#8 →
    exec (decode w) s = .next { s with freq := noteRom (w.extractLsb' 0 8) }) ∧
  ∀ s : State, exec (decode 0x900000000045#48) s = .next { s with freq := 0x43DC0000#32 }

/-- 41_commands.md R151: NOTE_OFF writes +0.0 to `FREQ` and nothing else, whatever `FREQ` was. -/
def Obligations.NoteOffWritesZero : Prop :=
  ∀ (w : CmdWord) (s : State), opcField w = 0x80#8 → exec (decode w) s = .next { s with freq := 0x00000000#32 }

/-- 41_commands.md section 2: SET_PARAM of id 0 copies the payload into `FREQ` bit for bit and writes nothing else. -/
def Obligations.SetParamCopiesThePattern : Prop :=
  ∀ (w : CmdWord) (s : State), opcField w = 0x01#8 → subField w = 0x00#8 →
    exec (decode w) s = .next { s with freq := w.extractLsb' 0 32 }

/-- 41_commands.md R165: an unknown parameter id raises UNKNOWN_PARAM with the id, counts it, and changes nothing else;
the payload is not read. -/
def Obligations.UnknownParamIsCountedOnly : Prop :=
  (∀ (w : CmdWord) (s : State), opcField w = 0x01#8 → subField w ≠ 0x00#8 →
    exec (decode w) s =
      .next
        { s with
          cntUnknownParam := s.cntUnknownParam + 1#32
          events := s.events ++ [⟨0x1#4, (w.extractLsb' 32 8).setWidth 32⟩] }) ∧
  ∀ s : State,
    exec (decode 0x01073F800000#48) s =
      .next
        { s with
          cntUnknownParam := s.cntUnknownParam + 1#32
          events := s.events ++ [⟨0x1#4, 0x00000007#32⟩] }

/-- 41_commands.md R160: SET_WAVE selects the bank and replaces each cursor by the smaller of it and the last index of
the new bank; nothing else changes. -/
def Obligations.SetWaveSelectsTheBank : Prop :=
  ∀ (w : CmdWord) (s : State), opcField w = 0x02#8 → (payloadField w).toNat ≤ 3 →
    exec (decode w) s =
      .next
        { s with
          waveSel := w.extractLsb' 0 2
          lphase := BitVec.ofNat 24 (min s.lphase.toNat (tableLen s.cfg (w.extractLsb' 0 2) - 1))
          rphase := BitVec.ofNat 24 (min s.rphase.toNat (tableLen s.cfg (w.extractLsb' 0 2) - 1)) }

/-- 41_commands.md R161: across a table swap a cursor below the new length keeps its value, any other becomes the last
index, and both are below the length of the selected bank. -/
def Obligations.TableSwapKeepsThePhase : Prop :=
  (∀ (k : BitVec 2) (s : State), configLegal s.cfg = true →
    ∃ t, exec (.setWave k) s = .next t ∧
      t.lphase.toNat = (if s.lphase.toNat < tableLen s.cfg k then s.lphase.toNat else tableLen s.cfg k - 1) ∧
      t.rphase.toNat = (if s.rphase.toNat < tableLen s.cfg k then s.rphase.toNat else tableLen s.cfg k - 1) ∧
      t.lphase.toNat < tableLen t.cfg t.waveSel ∧ t.rphase.toNat < tableLen t.cfg t.waveSel) ∧
  ∀ (k : BitVec 2) (s : State), tableLen s.cfg k = 8 → s.lphase = 500#24 →
    ∃ t, exec (.setWave k) s = .next t ∧ t.lphase = 7#24

/-- 41_commands.md R163: an invalid kind raises BAD_WAVE with the payload, counts it, and changes nothing else. -/
def Obligations.InvalidKindIsCountedOnly : Prop :=
  (∀ (w : CmdWord) (s : State), opcField w = 0x02#8 → 3 < (payloadField w).toNat →
    exec (decode w) s =
      .next
        { s with
          cntBadWave := s.cntBadWave + 1#32
          events := s.events ++ [⟨0x3#4, w.extractLsb' 0 32⟩] }) ∧
  ∀ s : State,
    exec (decode 0x020000000004#48) s =
      .next
        { s with
          cntBadWave := s.cntBadWave + 1#32
          events := s.events ++ [⟨0x3#4, 0x00000004#32⟩] }

/-- 41_commands.md R170: a reserved opcode raises UNSUPPORTED_CMD with the opcode, counts it, and changes nothing
else. -/
def Obligations.ReservedOpcodeIsCountedOnly : Prop :=
  (∀ (w : CmdWord) (s : State),
    opcField w ≠ 0x90#8 → opcField w ≠ 0x80#8 → opcField w ≠ 0x01#8 → opcField w ≠ 0x02#8 →
    exec (decode w) s =
      .next
        { s with
          cntUnsupported := s.cntUnsupported + 1#32
          events := s.events ++ [⟨0x2#4, (w.extractLsb' 40 8).setWidth 32⟩] }) ∧
  ∀ s : State,
    exec (decode 0xB00000000007#48) s =
      .next
        { s with
          cntUnsupported := s.cntUnsupported + 1#32
          events := s.events ++ [⟨0x2#4, 0x000000B0#32⟩] }

/-- 41_commands.md R153: of a NOTE_ON and a SET_PARAM applied one after the other the later decides `FREQ`. -/
def Obligations.LaterFrequencyCommandWins : Prop :=
  ∀ (n : BitVec 8) (v : Word) (s : State),
    applyAll [encode (.noteOn n), encode (.setParam v)] s = .next { s with freq := v } ∧
    applyAll [encode (.setParam v), encode (.noteOn n)] s = .next { s with freq := noteRom n }

/-- 41_commands.md R173: every word completes, enters no fatal state, leaves the sequencer and the FIFO alone and reads
no signal of the driver; in a reachable state its drain step completes. -/
def Obligations.EveryWordCompletes : Prop :=
  (∀ (w : CmdWord) (s : State),
    ∃ t, applyWord w s = .next t ∧ t.estate = s.estate ∧ t.fatal = s.fatal ∧ t.fatalCause = s.fatalCause ∧
      ∀ p : Pins, applyWord w { s with pins := p } = .next { t with pins := p }) ∧
  ∀ s : State, Inv s → s.estate = .drain → s.drainLeft ≠ 0#11 →
    ∃ t, drainStep s = .next t ∧ t.estate = .drain ∧ t.drainLeft.toNat + 1 = s.drainLeft.toNat

/-- 41_commands.md sections 1 to 4, "State written" of every command: the frame.  NOTE_ON, NOTE_OFF and SET_PARAM change
`FREQ` only, SET_WAVE the bank and the cursors only, each ignored word its counter and the event sequence only. -/
def Obligations.CommandsWriteOnlyTheirRegisters : Prop :=
  ∀ (i : Instr) (s t : State), exec i s = .next t →
    match i with
    | .noteOn _ | .noteOff | .setParam _ => t = { s with freq := t.freq }
    | .setWave _ => t = { s with waveSel := t.waveSel, lphase := t.lphase, rphase := t.rphase }
    | .setParamUnknown _ => t = { s with cntUnknownParam := t.cntUnknownParam, events := t.events }
    | .setWaveInvalid _ => t = { s with cntBadWave := t.cntBadWave, events := t.events }
    | .reserved _ => t = { s with cntUnsupported := t.cntUnsupported, events := t.events }

/-! ### binary32 -/

/-- 00_scope.md section 6 (`rnd32`): the model's rounding of every rational is the nearest binary32 value, ties to
even, with overflow to infinity and gradual underflow. -/
def Obligations.RationalsRoundToNearestEven : Prop :=
  ∀ (neg : Bool) (num den : Nat), 0 < den →
    IsRnd32 ((if neg then -1 else 1) * ((num : ℝ) / (den : ℝ))) (rnd32 neg num den)

/-- 00_scope.md section 6 (`div32`): the quotient of finite operands that are not zero is rounded once. -/
def Obligations.QuotientsAreRoundedOnce : Prop :=
  ∀ a b : Word, isFinite32 a = true → isFinite32 b = true → isZero32 a = false → isZero32 b = false →
    ∃ w, div32 a b = some w ∧ IsRnd32 ((val32 a : ℝ) / (val32 b : ℝ)) w

/-- 00_scope.md section 6 (the special cases of `div32`); `none` is a NaN (log entry 10). -/
def Obligations.DivisionSpecialCases : Prop :=
  ∀ a b : Word,
    (div32 a b = none ↔
      isNaN32 a = true ∨ isNaN32 b = true ∨ (isZero32 a = true ∧ isZero32 b = true) ∨
        (isInf32 a = true ∧ isInf32 b = true)) ∧
    (isFinite32 a = true → isZero32 a = false → isZero32 b = true →
      div32 a b = some (inf32 (signBit a ^^ signBit b))) ∧
    (isInf32 a = true → isFinite32 b = true → div32 a b = some (inf32 (signBit a ^^ signBit b))) ∧
    (isFinite32 a = true → isInf32 b = true → div32 a b = some (zero32 (signBit a ^^ signBit b))) ∧
    (isZero32 a = true → isFinite32 b = true → isZero32 b = false →
      div32 a b = some (zero32 (signBit a ^^ signBit b))) ∧
    (∀ w, div32 a b = some w → signBit w = (signBit a ^^ signBit b))

/-! ### The ROMs -/

/-- 20_memory.md section 3: every entry of the note ROM is the correctly rounded equal-tempered frequency, a positive
normal pattern; notes 21 and 69 are exact. -/
def Obligations.NoteRomIsCorrectlyRounded : Prop :=
  (∀ n : BitVec 8, posNormal (noteRom n) = true ∧
    IsRnd32 (27.5 * (2 : ℝ) ^ (((n.toNat : ℝ) - 21) / 12)) (noteRom n)) ∧
  noteRom 21#8 = 0x41DC0000#32 ∧ noteRom 69#8 = 0x43DC0000#32

/-- 20_memory.md R61: bank 0, where the block builds it, holds the correctly rounded sine at every index, +0.0 at the
zeros and the amplitude and its negation at the quarters. -/
def Obligations.SineBankIsCorrectlyRounded : Prop :=
  ∀ c : Config, configLegal c = true → c.sineRom = none →
    (∀ i, i < c.lenSine → ∃ w, waveRom c 0#2 i = some w ∧
      IsRnd32 ((val32 c.amplitude : ℝ) * Real.sin (2 * Real.pi * i / c.lenSine)) w) ∧
    waveRom c 0#2 0 = some 0x00000000#32 ∧
    (∀ i, 2 * i = c.lenSine → waveRom c 0#2 i = some 0x00000000#32) ∧
    (∀ i, 4 * i = c.lenSine →
      waveRom c 0#2 i = some c.amplitude ∧ waveRom c 0#2 (3 * i) = some (negate32 c.amplitude))

/-- 20_memory.md section 2 (R62): the bank 0 that the model builds has the properties (b) to (g) a model may assume of a
supplied one, for every amplitude and length; (a) is its length. -/
def Obligations.BuiltSineBankMeetsTheImageRules : Prop :=
  ∀ (amp : Word) (len : Nat), posNormal amp = true → 1 ≤ len → len ≤ 2 ^ 24 →
    SineImageRules amp len (sineEntry amp len)

/-- 20_memory.md R63: the square bank holds the amplitude in the first half and its negation in the rest, `L/2` entries
each for an even length and `(L+1)/2` to `(L-1)/2` for an odd one. -/
def Obligations.SquareBankHasTwoLevels : Prop :=
  ∀ c : Config, configLegal c = true →
    (∀ i, i < c.lenSquare →
      waveRom c 1#2 i = some (if 2 * i < c.lenSquare then c.amplitude else c.amplitude ^^^ 0x80000000#32)) ∧
    ((List.range c.lenSquare).filter (fun i => waveRom c 1#2 i == some c.amplitude)).length = (c.lenSquare + 1) / 2 ∧
    ((List.range c.lenSquare).filter
      (fun i => waveRom c 1#2 i == some (c.amplitude ^^^ 0x80000000#32))).length = c.lenSquare / 2

/-- 20_memory.md R64: the sawtooth bank holds the correctly rounded ramp `A*(2*i - L)/L`, `-A` first and +0.0 in the
middle of an even length. -/
def Obligations.SawtoothBankIsARoundedRamp : Prop :=
  ∀ c : Config, configLegal c = true →
    (∀ i, i < c.lenSawtooth → ∃ w, waveRom c 2#2 i = some w ∧
      IsRnd32 ((val32 c.amplitude : ℝ) * (2 * (i : ℝ) - c.lenSawtooth) / c.lenSawtooth) w) ∧
    waveRom c 2#2 0 = some (negate32 c.amplitude) ∧
    (∀ i, 2 * i = c.lenSawtooth → waveRom c 2#2 i = some 0x00000000#32)

/-- 20_memory.md R65: the triangle bank holds the correctly rounded three-piece line. -/
def Obligations.TriangleBankIsRounded : Prop :=
  ∀ c : Config, configLegal c = true → ∀ i, i < c.lenTriangle →
    ∃ w, waveRom c 3#2 i = some w ∧
      (4 * i ≤ c.lenTriangle → IsRnd32 ((val32 c.amplitude : ℝ) * (4 * (i : ℝ) / c.lenTriangle)) w) ∧
      (c.lenTriangle < 4 * i → 4 * i ≤ 3 * c.lenTriangle →
        IsRnd32 ((val32 c.amplitude : ℝ) * (2 - 4 * (i : ℝ) / c.lenTriangle)) w) ∧
      (3 * c.lenTriangle < 4 * i →
        IsRnd32 ((val32 c.amplitude : ℝ) * (4 * (i : ℝ) / c.lenTriangle - 4)) w)

/-- 20_memory.md section 2 (R68, R62): in a legal configuration a bank has a word at exactly the indexes below its length,
and a supplied image of bank 0 is read word by word; no state that meets the invariant presents an output word out of
range, and a state that presents one, taken or not, faults (log entry 18). -/
def Obligations.TableReadsAreInRange : Prop :=
  (∀ (c : Config) (k : BitVec 2) (i : Nat), configLegal c = true →
    ((waveRom c k i).isSome = true ↔ i < tableLen c k)) ∧
  (∀ (c : Config) (image : List Word) (i : Nat), configLegal c = true → c.sineRom = some image →
    waveRom c 0#2 i = image[i]?) ∧
  (∀ (s : State) (j : Nat), Inv s → (sampleWord s j).isSome = true) ∧
  ∀ s : State, outPending s = true → s.silent = false →
    tableLen s.cfg s.waveSel ≤ (if outCount s % 2 = 0 then s.lphase else s.rphase).toNat →
    outputSide s = .fault .waveRomIndexOutOfRange

/-! ### Synthesis -/

/-- 42_synthesis.md section 1 (R181, R184) and 43_buffer_cycle.md R217: a `clk` edge in STEP makes the step computation,
goes to EMIT and does nothing else; for a positive finite frequency the step is the floor of the second of two binary32
quotients, each rounded, modulo the table length. -/
def Obligations.StepIsTheFloorOfTwoRoundedQuotients : Prop :=
  (∀ s : State, s.estate = .step → s.pins.rst = false → s.pins.drvFatal = false → s.pins.cycStart = false →
    perform .clk s =
      .next
        { s with
          silent := (stepComputation s).silent, phaseStep := (stepComputation s).phaseStep
          estate := .emit, levelShown := s.v }) ∧
  ∀ (s : State) (q1 q2 : Word),
    posNormal s.cfg.sampleRate = true → 1 ≤ tableLen s.cfg s.waveSel → tableLen s.cfg s.waveSel ≤ 2 ^ 24 →
    isFinite32 s.freq = true → signBit s.freq = false → isZero32 s.freq = false →
    IsRnd32 ((val32 s.cfg.sampleRate : ℝ) / (val32 s.freq : ℝ)) q1 → isFinite32 q1 = true → isZero32 q1 = false →
    IsRnd32 ((tableLen s.cfg s.waveSel : ℝ) / (val32 q1 : ℝ)) q2 → isFinite32 q2 = true →
    stepComputation s =
      { s with
        silent := false
        phaseStep := BitVec.ofNat 24 (⌊val32 q2⌋₊ % tableLen s.cfg s.waveSel) }

/-- 42_synthesis.md R182: the buffer is silent exactly when `FREQ` is +0.0 or -0.0; a NaN is not silent. -/
def Obligations.SilenceIsEitherZero : Prop :=
  ∀ s : State,
    ((stepComputation s).silent = true ↔ s.freq = 0x00000000#32 ∨ s.freq = 0x80000000#32) ∧
    (isNaN32 s.freq = true → (stepComputation s).silent = false)

/-- 42_synthesis.md section 1 (R183): step 0 in a sounding buffer for a NaN, an infinite or a negative frequency that is
not zero, and for a positive finite one whose first quotient is rounded to an infinity or to zero, or whose second is
rounded to an infinity. -/
def Obligations.OddFrequenciesGiveStepZero : Prop :=
  (∀ s : State, configLegal s.cfg = true →
    (isNaN32 s.freq = true ∨ isInf32 s.freq = true ∨ (signBit s.freq = true ∧ isZero32 s.freq = false)) →
    stepComputation s = { s with silent := false, phaseStep := 0#24 }) ∧
  (∀ (s : State) (q1 : Word), configLegal s.cfg = true →
    isFinite32 s.freq = true → signBit s.freq = false → isZero32 s.freq = false →
    IsRnd32 ((val32 s.cfg.sampleRate : ℝ) / (val32 s.freq : ℝ)) q1 → (isInf32 q1 = true ∨ isZero32 q1 = true) →
    stepComputation s = { s with silent := false, phaseStep := 0#24 }) ∧
  ∀ (s : State) (q1 q2 : Word), configLegal s.cfg = true →
    isFinite32 s.freq = true → signBit s.freq = false → isZero32 s.freq = false →
    IsRnd32 ((val32 s.cfg.sampleRate : ℝ) / (val32 s.freq : ℝ)) q1 → isFinite32 q1 = true → isZero32 q1 = false →
    IsRnd32 ((tableLen s.cfg s.waveSel : ℝ) / (val32 q1 : ℝ)) q2 → isInf32 q2 = true →
    stepComputation s = { s with silent := false, phaseStep := 0#24 }

/-- 42_synthesis.md R187: both cursors advance by `STEP` modulo the table length, stay below it, and nothing else is
written. -/
def Obligations.AdvanceIsAdditionModulo : Prop :=
  (∀ s : State, configLegal s.cfg = true →
    s.lphase.toNat < tableLen s.cfg s.waveSel → s.rphase.toNat < tableLen s.cfg s.waveSel →
    s.phaseStep.toNat < tableLen s.cfg s.waveSel →
    ∃ l r : Phase, advanceCursors s = { s with lphase := l, rphase := r } ∧
      l.toNat = (s.lphase.toNat + s.phaseStep.toNat) % tableLen s.cfg s.waveSel ∧
      r.toNat = (s.rphase.toNat + s.phaseStep.toNat) % tableLen s.cfg s.waveSel ∧
      l.toNat < tableLen s.cfg s.waveSel ∧ r.toNat < tableLen s.cfg s.waveSel) ∧
  advance 1000 9#24 995#24 = 4#24

/-- 42_synthesis.md R191: a buffer whose step computation starts from cursor `p0` ends, whatever the agents do in
between, with output words `2f` and `2f+1` the table's entry `(p0 + f*STEP) mod L`, or all zero if silent, and the
cursors at `(p0 + FPB*STEP) mod L`, or still at `p0`. -/
def Obligations.BufferHasItsClosedForm : Prop :=
  ∀ s s0 t u : State, Inv s → s.estate = .step → step s = .next s0 →
    StaysIn .emit s0 t → step t = .next u → u.estate = .idle → t.pins.rst = false →
    u.lphase = u.rphase ∧ u.cntCycles = t.cntCycles + 1#32 ∧
    (isZero32 s.freq = true →
      u.outWords = List.replicate (2 * s.cfg.fpb) 0x00000000#32 ∧ u.lphase = s.lphase) ∧
    (isZero32 s.freq = false →
      u.outWords.map some =
        (List.range (2 * s.cfg.fpb)).map (fun j =>
          waveRom s.cfg s.waveSel ((s.lphase.toNat + j / 2 * u.phaseStep.toNat) % tableLen s.cfg s.waveSel)) ∧
      u.lphase.toNat = (s.lphase.toNat + s.cfg.fpb * u.phaseStep.toNat) % tableLen s.cfg s.waveSel ∧
      u.phaseStep = (stepComputation s).phaseStep)

/-! ### The command FIFO -/

/-- 40_command_fifo.md section 1 (R122, R124): at a `wclk` edge the granted port transfers exactly when it is ready and
offers a word; the word goes behind every other, and nothing else changes but the arbiter's own state.  That a granted
port with room is ready, and that the spurious full of R123 is an edge with no grant, is the model's choice (log entry
13). -/
def Obligations.TransferAppendsTheWord : Prop :=
  ∀ (s : State) (arb : Nat), s.pins.rst = false →
    wclkEdge none arb s = { s with arbst := arb } ∧
    ∀ p : Nat,
      wclkEdge (some p) arb s =
        if p < s.cfg.np ∧ s.q.length < depth ∧ s.estate ≠ .fatal ∧ (portPins s p).valid = true then
          { s with q := s.q ++ [(portPins s p).data], arbst := arb }
        else { s with arbst := arb }

/-- 40_command_fifo.md R123: at one edge at most one port is ready, and none unless there is room, reset is not asserted
and the block is not in FATAL. -/
def Obligations.AtMostOnePortIsReady : Prop :=
  ∀ (s : State) (grant : Option Nat) (p p' : Nat),
    (portReady s grant p = true → portReady s grant p' = true → p = p') ∧
    (portReady s grant p = true →
      s.q.length < depth ∧ s.pins.rst = false ∧ s.estate ≠ .fatal ∧ grant = some p) ∧
    (s.q.length = depth → portReady s grant p = false ∧ ∀ arb, (wclkEdge grant arb s).q = s.q)

/-- 40_command_fifo.md R128: the crossing step, enabled when `V < |Q|`, makes the oldest invisible word visible; and
section 1 (R121): an attach sample writes one bit of `ATT`. -/
def Obligations.CrossingMovesOneWordOrOneSample : Prop :=
  ∀ s : State, s.pins.rst = false → s.q.length ≤ depth →
    (s.v.toNat < s.q.length →
      perform .cross s = .next { s with v := s.v + 1#11 } ∧ (s.v + 1#11).toNat = s.v.toNat + 1) ∧
    (s.q.length ≤ s.v.toNat → perform .cross s = .next s) ∧
    ∀ p b, (portPins s p).attach = b → perform (.sampleAttach p) s = .next { s with att := s.att.set p b }

/-- 40_command_fifo.md R131: a pop takes the oldest word; its precondition holds wherever a drain step is made, and a pop
with `V = 0` faults. -/
def Obligations.PopTakesTheOldestWord : Prop :=
  (∀ (s : State) (w : CmdWord) (rest : List CmdWord), s.q = w :: rest → s.v ≠ 0#11 →
    fifoPop s = some (w, { s with q := rest, v := s.v - 1#11 })) ∧
  (∀ s : State, Inv s → s.estate = .drain → s.drainLeft ≠ 0#11 → (fifoPop s).isSome = true) ∧
  ∀ s : State, s.v = 0#11 → drainStep s = .fault .popFromEmptyFifo

/-- 20_memory.md section 6 (R78, R79): every step outside reset leaves the FIFO's words in place and applies none; or it is
a drain step that takes the oldest and applies exactly that word; or it is a `wclk` edge that appends the word its granted
port offers. -/
def Obligations.WordsStayInTransferOrder : Prop :=
  ∀ s t : State, Inv s → step s = .next t → resetNext s = false →
    (t.q = s.q ∧ t.freq = s.freq ∧ t.waveSel = s.waveSel ∧ t.cntUnknownParam = s.cntUnknownParam ∧
      t.cntUnsupported = s.cntUnsupported ∧ t.cntBadWave = s.cntBadWave) ∨
    (∃ (w : CmdWord) (s2 : State), s.q = w :: t.q ∧ s.estate = .drain ∧ s.v ≠ 0#11 ∧
      applyWord w { taken s with q := t.q, v := s.v - 1#11 } = .next s2 ∧
      t = { s2 with drainLeft := s2.drainLeft - 1#11, levelShown := s2.v }) ∨
    ∃ p arb, s.schedule.head? = some (.wclk (some p) arb) ∧ portReady s (some p) p = true ∧
      (portPins s p).valid = true ∧ t = { taken s with q := s.q ++ [(portPins s p).data], arbst := arb }

/-- 20_memory.md R80: the drain of a buffer cycle applies exactly the words visible at its start, in order, and no others,
whatever crosses or is transferred meanwhile. -/
def Obligations.DrainAppliesTheSnapshot : Prop :=
  ∀ s0 s t u : State, Inv s0 → s0.estate = .idle → step s0 = .next s → s.estate = .drain →
    StaysIn .drain s t → step t = .next u → u.estate = .step →
    ∃ (r : State) (new : List CmdWord),
      applyAll (s.q.take s0.v.toNat) s = .next r ∧
      u.q = s.q.drop s0.v.toNat ++ new ∧
      u.freq = r.freq ∧ u.waveSel = r.waveSel ∧ u.lphase = r.lphase ∧ u.rphase = r.rphase ∧
      u.cntUnknownParam = r.cntUnknownParam ∧ u.cntUnsupported = r.cntUnsupported ∧ u.cntBadWave = r.cntBadWave

/-- 40_command_fifo.md section 2 (R129): under weak fairness of the crossing and without reset, the oldest invisible word
becomes visible. -/
def Obligations.EveryWordBecomesVisible : Prop :=
  ∀ (a : Nat → Action) (s : Nat → State), IsExecution a s → NeverReset s → FairCrossing a s →
    ∀ t, (s t).v.toNat < (s t).q.length →
      ∃ u, t ≤ u ∧ a u = .cross ∧ (s (u + 1)).v.toNat = (s u).v.toNat + 1 ∧
        (s u).q[(s u).v.toNat]? = (s t).q[(s t).v.toNat]?

/-- 20_memory.md R81: only the engine's edge writes the oscillator's registers. -/
def Obligations.OnlyTheEngineWritesTheOscillator : Prop :=
  ∀ (a : Action) (s t : State), a ≠ .clk → perform a s = .next t →
    t.freq = s.freq ∧ t.lphase = s.lphase ∧ t.rphase = s.rphase ∧ t.waveSel = s.waveSel ∧
      t.phaseStep = s.phaseStep ∧ t.silent = s.silent

/-! ### The buffer cycle -/

/-- 43_buffer_cycle.md section 2 (R211, R213, R214): an accepted cycle start clears the counts, reports the two stream
conditions in order with `CNT_CYCLES`, takes the visible count and goes to DRAIN.  It empties the record of the output
words too, which is the model's choice (log entry 7); `outFull` and `inFull` are part of the counts (log entry 6). -/
def Obligations.CycleStartTakesTheSnapshot : Prop :=
  ∀ s : State, s.estate = .idle → s.pins.rst = false → s.pins.drvFatal = false → s.pins.cycStart = true →
    s.pins.cycInLen.toNat = 2 * s.cfg.fpb → s.pins.cycOutLen.toNat = 2 * s.cfg.fpb →
    perform .clk s =
      .next
        { s with
          outCnt := 0#31, outFull := false
          inCnt := 0#31, inFull := false
          outWords := []
          cntInOvf := if s.pins.cycInOvf then s.cntInOvf + 1#32 else s.cntInOvf
          cntOutUnf := if s.pins.cycOutUnf then s.cntOutUnf + 1#32 else s.cntOutUnf
          events :=
            s.events ++ (if s.pins.cycInOvf then [⟨0x5#4, s.cntCycles⟩] else [])
              ++ (if s.pins.cycOutUnf then [⟨0x6#4, s.cntCycles⟩] else [])
          drainLeft := s.v
          estate := .drain
          levelShown := s.v }

/-- 43_buffer_cycle.md R212: a cycle start with a wrong length goes to FATAL with cause 1 and does nothing else; as after
every `clk` edge the register port then shows the present `V` (R230). -/
def Obligations.WrongLengthIsFatal : Prop :=
  ∀ s : State, s.estate = .idle → s.pins.rst = false → s.pins.drvFatal = false → s.pins.cycStart = true →
    (s.pins.cycInLen.toNat ≠ 2 * s.cfg.fpb ∨ s.pins.cycOutLen.toNat ≠ 2 * s.cfg.fpb) →
    perform .clk s =
      .next
        { s with
          fatal := true, fatalCause := 1#2, estate := .fatal, events := s.events ++ [⟨0x7#4, 0x00000001#32⟩]
          levelShown := s.v }

/-- 43_buffer_cycle.md R216 with 40_command_fifo.md R134: the drain's end reports a disconnection once and goes to STEP. -/
def Obligations.DrainEndChecksTheConnection : Prop :=
  ∀ s : State, s.estate = .drain → s.drainLeft = 0#11 →
    s.pins.rst = false → s.pins.drvFatal = false → s.pins.cycStart = false →
    perform .clk s =
      if (∀ b ∈ s.att, b = false) ∧ s.v = 0#11 ∧ s.discLogged = false then
        .next
          { s with
            estate := .step, discLogged := true, events := s.events ++ [⟨0x4#4, 0x00000000#32⟩]
            levelShown := s.v }
      else .next { s with estate := .step, levelShown := s.v }

/-- 43_buffer_cycle.md section 2 (R218, R219): at an EMIT edge with output words left one is presented, and moves when the
driver is ready, the input word when the driver offers one, independently; the cursors advance after the right word of
a sounding frame.  With the output complete and input words left nothing is presented and only input words move.  The
counts are the numbers of R38, `2^31` among them (log entry 6).  That `out_data` has no value while `out_valid` is 0 is
the model's choice (log entry 21). -/
def Obligations.EmitMovesTheStreams : Prop :=
  ∀ s : State, configLegal s.cfg = true → s.estate = .emit →
    s.pins.rst = false → s.pins.drvFatal = false → s.pins.cycStart = false →
    (∀ w : Word, outCount s < 2 * s.cfg.fpb → sampleWord s (outCount s) = some w →
      outValidOut s = true ∧ outDataOut s = some w ∧
      (outLastOut s = true ↔ outCount s + 1 = 2 * s.cfg.fpb) ∧
      (inReadyOut s = true ↔ inCount s < 2 * s.cfg.fpb) ∧
      ∃ t, perform .clk s = .next t ∧ t.estate = .emit ∧
        outCount t = (if s.pins.outReady then outCount s + 1 else outCount s) ∧
        t.outWords = (if s.pins.outReady then s.outWords ++ [w] else s.outWords) ∧
        inCount t = (if s.pins.inValid ∧ inCount s < 2 * s.cfg.fpb then inCount s + 1 else inCount s) ∧
        t.lphase = (if s.pins.outReady ∧ outCount s % 2 = 1 ∧ s.silent = false
          then advance (tableLen s.cfg s.waveSel) s.phaseStep s.lphase else s.lphase) ∧
        t.rphase = (if s.pins.outReady ∧ outCount s % 2 = 1 ∧ s.silent = false
          then advance (tableLen s.cfg s.waveSel) s.phaseStep s.rphase else s.rphase) ∧
        t = { s with
              outCnt := t.outCnt, outFull := t.outFull, outWords := t.outWords, inCnt := t.inCnt, inFull := t.inFull
              lphase := t.lphase, rphase := t.rphase, levelShown := s.v }) ∧
    (outCount s = 2 * s.cfg.fpb → inCount s < 2 * s.cfg.fpb →
      outValidOut s = false ∧ outDataOut s = none ∧ outLastOut s = false ∧ inReadyOut s = true ∧
      ∃ t, perform .clk s = .next t ∧
        inCount t = (if s.pins.inValid then inCount s + 1 else inCount s) ∧
        t = { s with inCnt := t.inCnt, inFull := t.inFull, levelShown := s.v })

/-- 43_buffer_cycle.md section 2 (R220, R224): when both streams are complete the cycle is counted and the engine goes to
IDLE; while one is not it stays in EMIT; an edge in IDLE without a cycle start changes nothing. -/
def Obligations.CycleCompletesWhenBothStreamsAre : Prop :=
  (∀ s : State, s.estate = .emit → s.pins.rst = false → s.pins.drvFatal = false → s.pins.cycStart = false →
    outCount s = 2 * s.cfg.fpb → inCount s = 2 * s.cfg.fpb →
    perform .clk s = .next { s with cntCycles := s.cntCycles + 1#32, estate := .idle, levelShown := s.v }) ∧
  (∀ s t : State, s.estate = .emit → s.pins.rst = false → s.pins.drvFatal = false → s.pins.cycStart = false →
    (outCount s ≠ 2 * s.cfg.fpb ∨ inCount s ≠ 2 * s.cfg.fpb) → perform .clk s = .next t →
    t.estate = .emit ∧ t.cntCycles = s.cntCycles) ∧
  ∀ s : State, s.estate = .idle → s.pins.rst = false → s.pins.drvFatal = false → s.pins.cycStart = false →
    perform .clk s = .next { s with levelShown := s.v }

/-- 43_buffer_cycle.md R225: the sequencer's transitions and no others, for every step that is not a reset edge. -/
def Obligations.SequencerTakesOnlyItsTransitions : Prop :=
  ∀ s t : State, Inv s → step s = .next t →
    if resetNext s then t.estate = .idle
    else if clkNext s ∧ s.pins.drvFatal = true ∧ s.estate ≠ .fatal then t.estate = .fatal ∧ t.fatalCause = 2#2
    else if clkNext s then
      match s.estate with
      | .idle =>
        t.estate = (if s.pins.cycStart then (if lengthMismatch s then .fatal else .drain) else .idle) ∧
        (s.pins.cycStart = true → lengthMismatch s = true → t.fatalCause = 1#2)
      | .drain =>
        if s.pins.cycStart then t.estate = .fatal ∧ t.fatalCause = 3#2
        else t.estate = (if s.drainLeft = 0#11 then .step else .drain)
      | .step => if s.pins.cycStart then t.estate = .fatal ∧ t.fatalCause = 3#2 else t.estate = .emit
      | .emit =>
        if s.pins.cycStart then t.estate = .fatal ∧ t.fatalCause = 3#2
        else t.estate =
          (if outCount s = 2 * s.cfg.fpb ∧ inCount s = 2 * s.cfg.fpb then .idle else .emit)
      | .fatal => t.estate = .fatal
      | .undefinedCode _ => False
    else t.estate = s.estate

/-! ### Fatal events, reset, outputs -/

/-- 60_exceptions.md section 3 (R250) with 43_buffer_cycle.md R221, R222: a driver fatal error comes before everything but
reset, an overlapping cycle start before the engine's own step, and reset before both (which empties the event record, log
entry 7). -/
def Obligations.FatalConditionsHavePriority : Prop :=
  ∀ s : State,
    (s.pins.rst = false → s.pins.drvFatal = true → s.estate ≠ .fatal →
      perform .clk s =
        .next
          { s with
            fatal := true, fatalCause := 2#2, estate := .fatal, events := s.events ++ [⟨0x7#4, 0x00000002#32⟩]
            levelShown := s.v }) ∧
    (s.pins.rst = false → s.pins.drvFatal = false → s.pins.cycStart = true →
      (s.estate = .drain ∨ s.estate = .step ∨ s.estate = .emit) →
      perform .clk s =
        .next
          { s with
            fatal := true, fatalCause := 3#2, estate := .fatal, events := s.events ++ [⟨0x7#4, 0x00000003#32⟩]
            levelShown := s.v }) ∧
    (s.pins.rst = true → ∃ t, perform .clk s = .next t ∧ t.estate = .idle ∧ t.fatal = false ∧ t.events = [])

/-- 60_exceptions.md R246: once in FATAL, no step but a reset edge raises an event or changes the cause, the state, an
oscillator register, a count, a counter, a flag or a word of the FIFO.  Only what other agents write may change: `V`, the
attach samples, the arbiter's state, the inputs with their edge counts, and what the register port shows of `V`. -/
def Obligations.FatalKeepsTheFirstCause : Prop :=
  ∀ s t : State, Inv s → s.estate = .fatal → step s = .next t → resetNext s = false →
    t.estate = .fatal ∧ t.fatal = true ∧ t.fatalCause = s.fatalCause ∧ t.events = s.events ∧ t.q = s.q ∧
      t =
        { s with
          v := t.v, att := t.att, arbst := t.arbst, pins := t.pins, levelShown := t.levelShown
          rstClkEdges := t.rstClkEdges, rstWclkEdges := t.rstWclkEdges, schedule := t.schedule }

/-- 60_exceptions.md section 1 (R241), 43_buffer_cycle.md section 2 (R210, R218, R219): the outputs without reset.  In FATAL
every handshake is 0, `fatal` is 1 and the cause is shown; `cyc_idle` is 1 in IDLE and nowhere else; outside EMIT no
sample word is presented or accepted; outside FATAL `fatal` and `fatal_cause` are 0.  That `out_data` has no value while
`out_valid` is 0 is the model's choice (log entry 21). -/
def Obligations.OutputsFollowTheSequencer : Prop :=
  (∀ (s : State) (grant : Option Nat) (p : Nat), Inv s → s.estate = .fatal → s.pins.rst = false →
    outValidOut s = false ∧ inReadyOut s = false ∧ portReady s grant p = false ∧ cycIdleOut s = false ∧
      fatalOut s = true ∧ fatalCauseOut s = s.fatalCause ∧ fatalCauseOut s ≠ 0#2 ∧
      csrRdataOut s = csrRead s s.pins.csrAddr) ∧
  (∀ s : State, s.pins.rst = false →
    (cycIdleOut s = true ↔ s.estate = .idle) ∧
    (s.estate = .idle ∨ s.estate = .drain ∨ s.estate = .step →
      outValidOut s = false ∧ outDataOut s = none ∧ outLastOut s = false ∧ inReadyOut s = false)) ∧
  ∀ s : State, Inv s → s.estate ≠ .fatal → fatalOut s = false ∧ fatalCauseOut s = 0#2

/-- 70_reset_and_hazards.md section 1 (R280, R281): a `clk` edge with reset asserted gives every state element its reset
value and empties the FIFO, from any state; meanwhile no word is transferred and none crosses.  The records of events and
output words are emptied too (log entry 7); `outFull` and `inFull` are part of the counts (log entry 6).  The inputs and
the agents' order stay (log entries 4 and 2), and the edge is counted (log entry 12). -/
def Obligations.ResetEdgeResetsEverything : Prop :=
  ∀ s : State, s.pins.rst = true →
    ∃ t, perform .clk s = .next t ∧
      t.freq = 0x00000000#32 ∧ t.lphase = 0#24 ∧ t.rphase = 0#24 ∧ t.waveSel = 0#2 ∧ t.phaseStep = 0#24 ∧
      t.silent = true ∧ t.estate = .idle ∧ t.drainLeft = 0#11 ∧ t.outCnt = 0#31 ∧ t.outFull = false ∧
      t.inCnt = 0#31 ∧ t.inFull = false ∧
      t.fatal = false ∧ t.fatalCause = 0#2 ∧ t.discLogged = false ∧
      t.cntUnknownParam = 0#32 ∧ t.cntUnsupported = 0#32 ∧ t.cntBadWave = 0#32 ∧
      t.cntInOvf = 0#32 ∧ t.cntOutUnf = 0#32 ∧ t.cntCycles = 0#32 ∧
      t.att = List.replicate s.cfg.np false ∧ t.arbst = s.cfg.arbReset ∧ t.q = [] ∧ t.v = 0#11 ∧
      t.levelShown = 0#11 ∧ t.events = [] ∧ t.outWords = [] ∧
      t.cfg = s.cfg ∧ t.pins = s.pins ∧ t.schedule = s.schedule ∧ t.rstClkEdges = min 2 (s.rstClkEdges + 1) ∧
      perform .cross s = .next s ∧
      ∀ grant arb p, portReady s grant p = false ∧ (wclkEdge grant arb s).q = s.q

/-- 70_reset_and_hazards.md section 1 (R283): the outputs while reset is asserted, and a reset edge gives IDLE with an empty
event record, whatever `cyc_start` and `drv_fatal` are.  That the record of events is emptied is the model's choice (log
entry 7). -/
def Obligations.ResetQuietsTheOutputs : Prop :=
  ∀ (s : State) (grant : Option Nat) (p : Nat), s.pins.rst = true →
    cycIdleOut s = false ∧ outValidOut s = false ∧ outLastOut s = false ∧ inReadyOut s = false ∧
      portReady s grant p = false ∧ fatalOut s = false ∧ fatalCauseOut s = 0#2 ∧
      csrRdataOut s = csrRead (State.resetOf s.cfg) s.pins.csrAddr ∧
      ∃ t, perform .clk s = .next t ∧ t.events = [] ∧ t.estate = .idle

/-- 70_reset_and_hazards.md section 1 (R282, log entry 12): while reset is asserted each clock's edges are counted, and
ending it before two edges (of both clocks if they differ) is refused. -/
def Obligations.ShortResetIsRefused : Prop :=
  ∀ (s : State) (p : Pins), s.pins.rst = true → p.rst = false →
    (drivePins p s = .refused .resetTooShort ↔
      s.rstClkEdges < 2 ∨ (s.cfg.wclkMode = .async ∧ s.rstWclkEdges < 2)) ∧
    (∃ t, perform .clk s = .next t ∧ t.rstClkEdges = min 2 (s.rstClkEdges + 1)) ∧
    ∀ grant arb, (wclkEdge grant arb s).rstWclkEdges = min 2 (s.rstWclkEdges + 1) ∧ (wclkEdge grant arb s).q = s.q

/-- 10_state.md R50: the register port's map, field by field; the STATUS bits in their places; the reset values.  With
43_buffer_cycle.md R230: without reset the port shows the register at its address, FIFO_LEVEL is `V` after the most
recent `clk` edge, and a step of another agent changes no register that the port shows (log entry 16). -/
def Obligations.RegisterPortShowsTheMap : Prop :=
  (∀ s : State,
    csrRead s 0x0#4 = 0x57540001#32 ∧
    (csrRead s 0x1#4).getLsbD 0 = s.fatal ∧
    (csrRead s 0x1#4).extractLsb' 1 2 = s.fatalCause ∧
    (csrRead s 0x1#4).getLsbD 3 = s.discLogged ∧
    (csrRead s 0x1#4).getLsbD 4 = s.silent ∧
    (csrRead s 0x1#4).extractLsb' 5 3 = estateCode s.estate ∧
    (csrRead s 0x1#4).extractLsb' 8 2 = s.waveSel ∧
    (csrRead s 0x1#4).extractLsb' 10 22 = 0#22 ∧
    csrRead s 0x2#4 = s.freq ∧
    (csrRead s 0x3#4).toNat = s.lphase.toNat ∧ (csrRead s 0x4#4).toNat = s.rphase.toNat ∧
    (csrRead s 0x5#4).toNat = s.phaseStep.toNat ∧
    csrRead s 0x7#4 = s.cntUnknownParam ∧ csrRead s 0x8#4 = s.cntUnsupported ∧ csrRead s 0x9#4 = s.cntBadWave ∧
    csrRead s 0xA#4 = s.cntInOvf ∧ csrRead s 0xB#4 = s.cntOutUnf ∧ csrRead s 0xC#4 = s.cntCycles ∧
    csrRead s 0xE#4 = s.cfg.sampleRate ∧
    (configLegal s.cfg = true →
      (csrRead s 0xD#4).toNat = s.cfg.fpb ∧ (csrRead s 0xF#4).toNat = tableLen s.cfg s.waveSel)) ∧
  (∀ s : State, s.pins.rst = false → csrRdataOut s = csrRead s s.pins.csrAddr) ∧
  (∀ s t : State, perform .clk s = .next t → (csrRead t 0x6#4).toNat = t.v.toNat) ∧
  (∀ (a : Action) (s t : State), a ≠ .clk → perform a s = .next t → ∀ addr, csrRead t addr = csrRead s addr) ∧
  ∀ c : Config, csrRead (State.resetOf c) 0x1#4 = 0x00000010#32 ∧
    ∀ a : BitVec 4, 2 ≤ a.toNat → a.toNat ≤ 12 → csrRead (State.resetOf c) a = 0x00000000#32

/-- 10_state.md section 4 (R46) and 60_exceptions.md R244: no step changes a parameter, and outside a reset edge the event
sequence only grows at its end. -/
def Obligations.ParametersStayAndEventsAppend : Prop :=
  ∀ s t : State, step s = .next t →
    t.cfg = s.cfg ∧ (resetNext s = false → ∃ new, t.events = s.events ++ new ∧ new.length ≤ 2)

/-! ### Invariants -/

/-- 10_state.md sections 1 to 3: every step of a state that meets the invariant gives one that does. -/
def Obligations.EveryStepKeepsTheInvariant : Prop :=
  ∀ s t : State, Inv s → step s = .next t → Inv t

/-- 70_reset_and_hazards.md section 1: the invariant holds right after reset of every legal block, and of the model's own
(log entry 1). -/
def Obligations.InvariantHoldsAtReset : Prop :=
  (∀ c : Config, configLegal c = true → Inv (State.resetOf c)) ∧ Inv State.reset

/-- 93_implementation_defined.md section 2 (K22, K23, K24): no state that meets the invariant faults; the only refusal
left is a reset ended too early (log entry 12). -/
def Obligations.InvariantExcludesFaults : Prop :=
  ∀ s : State, Inv s →
    (∀ f, step s ≠ .fault f) ∧ (∀ r, step s = .refused r → r = .resetTooShort ∧ s.pins.rst = true)
end

