-- ==== Sys2Proof/Laws/Encoding.lean ====
section
/-! SUPPORT. The fields of a word that `mkWord` builds, and the word rebuilt from its fields. -/

namespace Sys2Proof

theorem toNat_mkWord (o s : BitVec 8) (p : Word) :
    (mkWord o s p).toNat = o.toNat * 2 ^ 40 + s.toNat * 2 ^ 32 + p.toNat := by
  have hs : s.toNat < 2 ^ 8 := s.isLt
  have hp : p.toNat < 2 ^ 32 := p.isLt
  simp only [mkWord, BitVec.toNat_append]
  rw [← Nat.shiftLeft_add_eq_or_of_lt hs, ← Nat.shiftLeft_add_eq_or_of_lt hp, Nat.shiftLeft_eq, Nat.shiftLeft_eq]
  omega

theorem toNat_field (w : CmdWord) (lo n : Nat) : (w.extractLsb' lo n).toNat = w.toNat / 2 ^ lo % 2 ^ n := by
  simp [BitVec.extractLsb'_toNat, Nat.shiftRight_eq_div_pow]

@[simp] theorem opcField_mkWord (o s : BitVec 8) (p : Word) : opcField (mkWord o s p) = o := by
  apply BitVec.eq_of_toNat_eq
  have := o.isLt; have := s.isLt; have := p.isLt
  rw [opcField, toNat_field, toNat_mkWord]
  omega

@[simp] theorem subField_mkWord (o s : BitVec 8) (p : Word) : subField (mkWord o s p) = s := by
  apply BitVec.eq_of_toNat_eq
  have := o.isLt; have := s.isLt; have := p.isLt
  rw [subField, toNat_field, toNat_mkWord]
  omega

@[simp] theorem payloadField_mkWord (o s : BitVec 8) (p : Word) : payloadField (mkWord o s p) = p := by
  apply BitVec.eq_of_toNat_eq
  have := o.isLt; have := s.isLt; have := p.isLt
  rw [payloadField, toNat_field, toNat_mkWord]
  omega

@[simp] theorem noteField_mkWord (o s : BitVec 8) (p : Word) : noteField (mkWord o s p) = p.extractLsb' 0 8 := by
  apply BitVec.eq_of_toNat_eq
  have := o.isLt; have := s.isLt; have := p.isLt
  rw [noteField, toNat_field, toNat_mkWord, BitVec.extractLsb'_toNat, Nat.shiftRight_eq_div_pow]
  omega

@[simp] theorem kindField_mkWord (o s : BitVec 8) (p : Word) : kindField (mkWord o s p) = p.extractLsb' 0 2 := by
  apply BitVec.eq_of_toNat_eq
  have := o.isLt; have := s.isLt; have := p.isLt
  rw [kindField, toNat_field, toNat_mkWord, BitVec.extractLsb'_toNat, Nat.shiftRight_eq_div_pow]
  omega

/-- A word is its three fields (30_encoding.md R91). -/
theorem mkWord_fields (w : CmdWord) : mkWord (opcField w) (subField w) (payloadField w) = w := by
  apply BitVec.eq_of_toNat_eq
  have := w.isLt
  rw [toNat_mkWord, opcField, subField, payloadField, toNat_field, toNat_field, toNat_field]
  omega

/-- A mask acts on each field. -/
theorem mkWord_and (o s mo ms : BitVec 8) (p mp : Word) :
    mkWord o s p &&& mkWord mo ms mp = mkWord (o &&& mo) (s &&& ms) (p &&& mp) := by
  unfold mkWord
  rw [← BitVec.and_append, ← BitVec.and_append]

/-- The two low bits of a payload of at most 3 are the payload. -/
theorem setWidth_kind_of_le (p : Word) (h : p.toNat ≤ 3) : (p.extractLsb' 0 2).setWidth 32 = p := by
  apply BitVec.eq_of_toNat_eq
  simp only [BitVec.toNat_setWidth, BitVec.extractLsb'_toNat, Nat.shiftRight_zero]
  omega

/-- A note number survives its extension to the payload. -/
@[simp] theorem extract_setWidth_note (n : BitVec 8) : (n.setWidth 32).extractLsb' 0 8 = n := by
  apply BitVec.eq_of_toNat_eq
  have := n.isLt
  simp only [BitVec.toNat_setWidth, BitVec.extractLsb'_toNat, Nat.shiftRight_zero]
  omega

/-- A waveform kind survives its extension to the payload. -/
@[simp] theorem extract_setWidth_kind (k : BitVec 2) : (k.setWidth 32).extractLsb' 0 2 = k := by
  apply BitVec.eq_of_toNat_eq
  have := k.isLt
  simp only [BitVec.toNat_setWidth, BitVec.extractLsb'_toNat, Nat.shiftRight_zero]
  omega

end Sys2Proof
end

