-- ==== Sys2Proof/Laws/State.lean ====
section
/-! SUPPORT. One lemma per field per named update of the state: what the update leaves and what it writes. -/

namespace Sys2Proof.Machine

/-! ### `setFreq` -/

@[simp] theorem setFreq_cfg (f : Word) (s : State) : (setFreq f s).cfg = s.cfg := rfl
@[simp] theorem setFreq_freq (f : Word) (s : State) : (setFreq f s).freq = f := rfl
@[simp] theorem setFreq_lphase (f : Word) (s : State) : (setFreq f s).lphase = s.lphase := rfl
@[simp] theorem setFreq_rphase (f : Word) (s : State) : (setFreq f s).rphase = s.rphase := rfl
@[simp] theorem setFreq_waveSel (f : Word) (s : State) : (setFreq f s).waveSel = s.waveSel := rfl
@[simp] theorem setFreq_phaseStep (f : Word) (s : State) : (setFreq f s).phaseStep = s.phaseStep := rfl
@[simp] theorem setFreq_silent (f : Word) (s : State) : (setFreq f s).silent = s.silent := rfl
@[simp] theorem setFreq_estate (f : Word) (s : State) : (setFreq f s).estate = s.estate := rfl
@[simp] theorem setFreq_drainLeft (f : Word) (s : State) : (setFreq f s).drainLeft = s.drainLeft := rfl
@[simp] theorem setFreq_outCnt (f : Word) (s : State) : (setFreq f s).outCnt = s.outCnt := rfl
@[simp] theorem setFreq_outFull (f : Word) (s : State) : (setFreq f s).outFull = s.outFull := rfl
@[simp] theorem setFreq_inCnt (f : Word) (s : State) : (setFreq f s).inCnt = s.inCnt := rfl
@[simp] theorem setFreq_inFull (f : Word) (s : State) : (setFreq f s).inFull = s.inFull := rfl
@[simp] theorem setFreq_fatal (f : Word) (s : State) : (setFreq f s).fatal = s.fatal := rfl
@[simp] theorem setFreq_fatalCause (f : Word) (s : State) : (setFreq f s).fatalCause = s.fatalCause := rfl
@[simp] theorem setFreq_discLogged (f : Word) (s : State) : (setFreq f s).discLogged = s.discLogged := rfl
@[simp] theorem setFreq_cntUnknownParam (f : Word) (s : State) : (setFreq f s).cntUnknownParam = s.cntUnknownParam := rfl
@[simp] theorem setFreq_cntUnsupported (f : Word) (s : State) : (setFreq f s).cntUnsupported = s.cntUnsupported := rfl
@[simp] theorem setFreq_cntBadWave (f : Word) (s : State) : (setFreq f s).cntBadWave = s.cntBadWave := rfl
@[simp] theorem setFreq_cntInOvf (f : Word) (s : State) : (setFreq f s).cntInOvf = s.cntInOvf := rfl
@[simp] theorem setFreq_cntOutUnf (f : Word) (s : State) : (setFreq f s).cntOutUnf = s.cntOutUnf := rfl
@[simp] theorem setFreq_cntCycles (f : Word) (s : State) : (setFreq f s).cntCycles = s.cntCycles := rfl
@[simp] theorem setFreq_q (f : Word) (s : State) : (setFreq f s).q = s.q := rfl
@[simp] theorem setFreq_v (f : Word) (s : State) : (setFreq f s).v = s.v := rfl
@[simp] theorem setFreq_levelShown (f : Word) (s : State) : (setFreq f s).levelShown = s.levelShown := rfl
@[simp] theorem setFreq_arbst (f : Word) (s : State) : (setFreq f s).arbst = s.arbst := rfl
@[simp] theorem setFreq_att (f : Word) (s : State) : (setFreq f s).att = s.att := rfl
@[simp] theorem setFreq_events (f : Word) (s : State) : (setFreq f s).events = s.events := rfl
@[simp] theorem setFreq_outWords (f : Word) (s : State) : (setFreq f s).outWords = s.outWords := rfl
@[simp] theorem setFreq_pins (f : Word) (s : State) : (setFreq f s).pins = s.pins := rfl
@[simp] theorem setFreq_rstClkEdges (f : Word) (s : State) : (setFreq f s).rstClkEdges = s.rstClkEdges := rfl
@[simp] theorem setFreq_rstWclkEdges (f : Word) (s : State) : (setFreq f s).rstWclkEdges = s.rstWclkEdges := rfl
@[simp] theorem setFreq_schedule (f : Word) (s : State) : (setFreq f s).schedule = s.schedule := rfl

/-! ### `selectWave` -/

@[simp] theorem selectWave_cfg (k : BitVec 2) (s : State) : (selectWave k s).cfg = s.cfg := rfl
@[simp] theorem selectWave_freq (k : BitVec 2) (s : State) : (selectWave k s).freq = s.freq := rfl
@[simp] theorem selectWave_lphase (k : BitVec 2) (s : State) : (selectWave k s).lphase = clampPhase s.cfg k s.lphase := rfl
@[simp] theorem selectWave_rphase (k : BitVec 2) (s : State) : (selectWave k s).rphase = clampPhase s.cfg k s.rphase := rfl
@[simp] theorem selectWave_waveSel (k : BitVec 2) (s : State) : (selectWave k s).waveSel = k := rfl
@[simp] theorem selectWave_phaseStep (k : BitVec 2) (s : State) : (selectWave k s).phaseStep = s.phaseStep := rfl
@[simp] theorem selectWave_silent (k : BitVec 2) (s : State) : (selectWave k s).silent = s.silent := rfl
@[simp] theorem selectWave_estate (k : BitVec 2) (s : State) : (selectWave k s).estate = s.estate := rfl
@[simp] theorem selectWave_drainLeft (k : BitVec 2) (s : State) : (selectWave k s).drainLeft = s.drainLeft := rfl
@[simp] theorem selectWave_outCnt (k : BitVec 2) (s : State) : (selectWave k s).outCnt = s.outCnt := rfl
@[simp] theorem selectWave_outFull (k : BitVec 2) (s : State) : (selectWave k s).outFull = s.outFull := rfl
@[simp] theorem selectWave_inCnt (k : BitVec 2) (s : State) : (selectWave k s).inCnt = s.inCnt := rfl
@[simp] theorem selectWave_inFull (k : BitVec 2) (s : State) : (selectWave k s).inFull = s.inFull := rfl
@[simp] theorem selectWave_fatal (k : BitVec 2) (s : State) : (selectWave k s).fatal = s.fatal := rfl
@[simp] theorem selectWave_fatalCause (k : BitVec 2) (s : State) : (selectWave k s).fatalCause = s.fatalCause := rfl
@[simp] theorem selectWave_discLogged (k : BitVec 2) (s : State) : (selectWave k s).discLogged = s.discLogged := rfl
@[simp] theorem selectWave_cntUnknownParam (k : BitVec 2) (s : State) : (selectWave k s).cntUnknownParam = s.cntUnknownParam := rfl
@[simp] theorem selectWave_cntUnsupported (k : BitVec 2) (s : State) : (selectWave k s).cntUnsupported = s.cntUnsupported := rfl
@[simp] theorem selectWave_cntBadWave (k : BitVec 2) (s : State) : (selectWave k s).cntBadWave = s.cntBadWave := rfl
@[simp] theorem selectWave_cntInOvf (k : BitVec 2) (s : State) : (selectWave k s).cntInOvf = s.cntInOvf := rfl
@[simp] theorem selectWave_cntOutUnf (k : BitVec 2) (s : State) : (selectWave k s).cntOutUnf = s.cntOutUnf := rfl
@[simp] theorem selectWave_cntCycles (k : BitVec 2) (s : State) : (selectWave k s).cntCycles = s.cntCycles := rfl
@[simp] theorem selectWave_q (k : BitVec 2) (s : State) : (selectWave k s).q = s.q := rfl
@[simp] theorem selectWave_v (k : BitVec 2) (s : State) : (selectWave k s).v = s.v := rfl
@[simp] theorem selectWave_levelShown (k : BitVec 2) (s : State) : (selectWave k s).levelShown = s.levelShown := rfl
@[simp] theorem selectWave_arbst (k : BitVec 2) (s : State) : (selectWave k s).arbst = s.arbst := rfl
@[simp] theorem selectWave_att (k : BitVec 2) (s : State) : (selectWave k s).att = s.att := rfl
@[simp] theorem selectWave_events (k : BitVec 2) (s : State) : (selectWave k s).events = s.events := rfl
@[simp] theorem selectWave_outWords (k : BitVec 2) (s : State) : (selectWave k s).outWords = s.outWords := rfl
@[simp] theorem selectWave_pins (k : BitVec 2) (s : State) : (selectWave k s).pins = s.pins := rfl
@[simp] theorem selectWave_rstClkEdges (k : BitVec 2) (s : State) : (selectWave k s).rstClkEdges = s.rstClkEdges := rfl
@[simp] theorem selectWave_rstWclkEdges (k : BitVec 2) (s : State) : (selectWave k s).rstWclkEdges = s.rstWclkEdges := rfl
@[simp] theorem selectWave_schedule (k : BitVec 2) (s : State) : (selectWave k s).schedule = s.schedule := rfl

/-! ### `countUnknownParam` -/

@[simp] theorem countUnknownParam_cfg (s : State) : (countUnknownParam s).cfg = s.cfg := rfl
@[simp] theorem countUnknownParam_freq (s : State) : (countUnknownParam s).freq = s.freq := rfl
@[simp] theorem countUnknownParam_lphase (s : State) : (countUnknownParam s).lphase = s.lphase := rfl
@[simp] theorem countUnknownParam_rphase (s : State) : (countUnknownParam s).rphase = s.rphase := rfl
@[simp] theorem countUnknownParam_waveSel (s : State) : (countUnknownParam s).waveSel = s.waveSel := rfl
@[simp] theorem countUnknownParam_phaseStep (s : State) : (countUnknownParam s).phaseStep = s.phaseStep := rfl
@[simp] theorem countUnknownParam_silent (s : State) : (countUnknownParam s).silent = s.silent := rfl
@[simp] theorem countUnknownParam_estate (s : State) : (countUnknownParam s).estate = s.estate := rfl
@[simp] theorem countUnknownParam_drainLeft (s : State) : (countUnknownParam s).drainLeft = s.drainLeft := rfl
@[simp] theorem countUnknownParam_outCnt (s : State) : (countUnknownParam s).outCnt = s.outCnt := rfl
@[simp] theorem countUnknownParam_outFull (s : State) : (countUnknownParam s).outFull = s.outFull := rfl
@[simp] theorem countUnknownParam_inCnt (s : State) : (countUnknownParam s).inCnt = s.inCnt := rfl
@[simp] theorem countUnknownParam_inFull (s : State) : (countUnknownParam s).inFull = s.inFull := rfl
@[simp] theorem countUnknownParam_fatal (s : State) : (countUnknownParam s).fatal = s.fatal := rfl
@[simp] theorem countUnknownParam_fatalCause (s : State) : (countUnknownParam s).fatalCause = s.fatalCause := rfl
@[simp] theorem countUnknownParam_discLogged (s : State) : (countUnknownParam s).discLogged = s.discLogged := rfl
@[simp] theorem countUnknownParam_cntUnknownParam (s : State) : (countUnknownParam s).cntUnknownParam = s.cntUnknownParam + 1#32 := rfl
@[simp] theorem countUnknownParam_cntUnsupported (s : State) : (countUnknownParam s).cntUnsupported = s.cntUnsupported := rfl
@[simp] theorem countUnknownParam_cntBadWave (s : State) : (countUnknownParam s).cntBadWave = s.cntBadWave := rfl
@[simp] theorem countUnknownParam_cntInOvf (s : State) : (countUnknownParam s).cntInOvf = s.cntInOvf := rfl
@[simp] theorem countUnknownParam_cntOutUnf (s : State) : (countUnknownParam s).cntOutUnf = s.cntOutUnf := rfl
@[simp] theorem countUnknownParam_cntCycles (s : State) : (countUnknownParam s).cntCycles = s.cntCycles := rfl
@[simp] theorem countUnknownParam_q (s : State) : (countUnknownParam s).q = s.q := rfl
@[simp] theorem countUnknownParam_v (s : State) : (countUnknownParam s).v = s.v := rfl
@[simp] theorem countUnknownParam_levelShown (s : State) : (countUnknownParam s).levelShown = s.levelShown := rfl
@[simp] theorem countUnknownParam_arbst (s : State) : (countUnknownParam s).arbst = s.arbst := rfl
@[simp] theorem countUnknownParam_att (s : State) : (countUnknownParam s).att = s.att := rfl
@[simp] theorem countUnknownParam_events (s : State) : (countUnknownParam s).events = s.events := rfl
@[simp] theorem countUnknownParam_outWords (s : State) : (countUnknownParam s).outWords = s.outWords := rfl
@[simp] theorem countUnknownParam_pins (s : State) : (countUnknownParam s).pins = s.pins := rfl
@[simp] theorem countUnknownParam_rstClkEdges (s : State) : (countUnknownParam s).rstClkEdges = s.rstClkEdges := rfl
@[simp] theorem countUnknownParam_rstWclkEdges (s : State) : (countUnknownParam s).rstWclkEdges = s.rstWclkEdges := rfl
@[simp] theorem countUnknownParam_schedule (s : State) : (countUnknownParam s).schedule = s.schedule := rfl

/-! ### `countUnsupported` -/

@[simp] theorem countUnsupported_cfg (s : State) : (countUnsupported s).cfg = s.cfg := rfl
@[simp] theorem countUnsupported_freq (s : State) : (countUnsupported s).freq = s.freq := rfl
@[simp] theorem countUnsupported_lphase (s : State) : (countUnsupported s).lphase = s.lphase := rfl
@[simp] theorem countUnsupported_rphase (s : State) : (countUnsupported s).rphase = s.rphase := rfl
@[simp] theorem countUnsupported_waveSel (s : State) : (countUnsupported s).waveSel = s.waveSel := rfl
@[simp] theorem countUnsupported_phaseStep (s : State) : (countUnsupported s).phaseStep = s.phaseStep := rfl
@[simp] theorem countUnsupported_silent (s : State) : (countUnsupported s).silent = s.silent := rfl
@[simp] theorem countUnsupported_estate (s : State) : (countUnsupported s).estate = s.estate := rfl
@[simp] theorem countUnsupported_drainLeft (s : State) : (countUnsupported s).drainLeft = s.drainLeft := rfl
@[simp] theorem countUnsupported_outCnt (s : State) : (countUnsupported s).outCnt = s.outCnt := rfl
@[simp] theorem countUnsupported_outFull (s : State) : (countUnsupported s).outFull = s.outFull := rfl
@[simp] theorem countUnsupported_inCnt (s : State) : (countUnsupported s).inCnt = s.inCnt := rfl
@[simp] theorem countUnsupported_inFull (s : State) : (countUnsupported s).inFull = s.inFull := rfl
@[simp] theorem countUnsupported_fatal (s : State) : (countUnsupported s).fatal = s.fatal := rfl
@[simp] theorem countUnsupported_fatalCause (s : State) : (countUnsupported s).fatalCause = s.fatalCause := rfl
@[simp] theorem countUnsupported_discLogged (s : State) : (countUnsupported s).discLogged = s.discLogged := rfl
@[simp] theorem countUnsupported_cntUnknownParam (s : State) : (countUnsupported s).cntUnknownParam = s.cntUnknownParam := rfl
@[simp] theorem countUnsupported_cntUnsupported (s : State) : (countUnsupported s).cntUnsupported = s.cntUnsupported + 1#32 := rfl
@[simp] theorem countUnsupported_cntBadWave (s : State) : (countUnsupported s).cntBadWave = s.cntBadWave := rfl
@[simp] theorem countUnsupported_cntInOvf (s : State) : (countUnsupported s).cntInOvf = s.cntInOvf := rfl
@[simp] theorem countUnsupported_cntOutUnf (s : State) : (countUnsupported s).cntOutUnf = s.cntOutUnf := rfl
@[simp] theorem countUnsupported_cntCycles (s : State) : (countUnsupported s).cntCycles = s.cntCycles := rfl
@[simp] theorem countUnsupported_q (s : State) : (countUnsupported s).q = s.q := rfl
@[simp] theorem countUnsupported_v (s : State) : (countUnsupported s).v = s.v := rfl
@[simp] theorem countUnsupported_levelShown (s : State) : (countUnsupported s).levelShown = s.levelShown := rfl
@[simp] theorem countUnsupported_arbst (s : State) : (countUnsupported s).arbst = s.arbst := rfl
@[simp] theorem countUnsupported_att (s : State) : (countUnsupported s).att = s.att := rfl
@[simp] theorem countUnsupported_events (s : State) : (countUnsupported s).events = s.events := rfl
@[simp] theorem countUnsupported_outWords (s : State) : (countUnsupported s).outWords = s.outWords := rfl
@[simp] theorem countUnsupported_pins (s : State) : (countUnsupported s).pins = s.pins := rfl
@[simp] theorem countUnsupported_rstClkEdges (s : State) : (countUnsupported s).rstClkEdges = s.rstClkEdges := rfl
@[simp] theorem countUnsupported_rstWclkEdges (s : State) : (countUnsupported s).rstWclkEdges = s.rstWclkEdges := rfl
@[simp] theorem countUnsupported_schedule (s : State) : (countUnsupported s).schedule = s.schedule := rfl

/-! ### `countBadWave` -/

@[simp] theorem countBadWave_cfg (s : State) : (countBadWave s).cfg = s.cfg := rfl
@[simp] theorem countBadWave_freq (s : State) : (countBadWave s).freq = s.freq := rfl
@[simp] theorem countBadWave_lphase (s : State) : (countBadWave s).lphase = s.lphase := rfl
@[simp] theorem countBadWave_rphase (s : State) : (countBadWave s).rphase = s.rphase := rfl
@[simp] theorem countBadWave_waveSel (s : State) : (countBadWave s).waveSel = s.waveSel := rfl
@[simp] theorem countBadWave_phaseStep (s : State) : (countBadWave s).phaseStep = s.phaseStep := rfl
@[simp] theorem countBadWave_silent (s : State) : (countBadWave s).silent = s.silent := rfl
@[simp] theorem countBadWave_estate (s : State) : (countBadWave s).estate = s.estate := rfl
@[simp] theorem countBadWave_drainLeft (s : State) : (countBadWave s).drainLeft = s.drainLeft := rfl
@[simp] theorem countBadWave_outCnt (s : State) : (countBadWave s).outCnt = s.outCnt := rfl
@[simp] theorem countBadWave_outFull (s : State) : (countBadWave s).outFull = s.outFull := rfl
@[simp] theorem countBadWave_inCnt (s : State) : (countBadWave s).inCnt = s.inCnt := rfl
@[simp] theorem countBadWave_inFull (s : State) : (countBadWave s).inFull = s.inFull := rfl
@[simp] theorem countBadWave_fatal (s : State) : (countBadWave s).fatal = s.fatal := rfl
@[simp] theorem countBadWave_fatalCause (s : State) : (countBadWave s).fatalCause = s.fatalCause := rfl
@[simp] theorem countBadWave_discLogged (s : State) : (countBadWave s).discLogged = s.discLogged := rfl
@[simp] theorem countBadWave_cntUnknownParam (s : State) : (countBadWave s).cntUnknownParam = s.cntUnknownParam := rfl
@[simp] theorem countBadWave_cntUnsupported (s : State) : (countBadWave s).cntUnsupported = s.cntUnsupported := rfl
@[simp] theorem countBadWave_cntBadWave (s : State) : (countBadWave s).cntBadWave = s.cntBadWave + 1#32 := rfl
@[simp] theorem countBadWave_cntInOvf (s : State) : (countBadWave s).cntInOvf = s.cntInOvf := rfl
@[simp] theorem countBadWave_cntOutUnf (s : State) : (countBadWave s).cntOutUnf = s.cntOutUnf := rfl
@[simp] theorem countBadWave_cntCycles (s : State) : (countBadWave s).cntCycles = s.cntCycles := rfl
@[simp] theorem countBadWave_q (s : State) : (countBadWave s).q = s.q := rfl
@[simp] theorem countBadWave_v (s : State) : (countBadWave s).v = s.v := rfl
@[simp] theorem countBadWave_levelShown (s : State) : (countBadWave s).levelShown = s.levelShown := rfl
@[simp] theorem countBadWave_arbst (s : State) : (countBadWave s).arbst = s.arbst := rfl
@[simp] theorem countBadWave_att (s : State) : (countBadWave s).att = s.att := rfl
@[simp] theorem countBadWave_events (s : State) : (countBadWave s).events = s.events := rfl
@[simp] theorem countBadWave_outWords (s : State) : (countBadWave s).outWords = s.outWords := rfl
@[simp] theorem countBadWave_pins (s : State) : (countBadWave s).pins = s.pins := rfl
@[simp] theorem countBadWave_rstClkEdges (s : State) : (countBadWave s).rstClkEdges = s.rstClkEdges := rfl
@[simp] theorem countBadWave_rstWclkEdges (s : State) : (countBadWave s).rstWclkEdges = s.rstWclkEdges := rfl
@[simp] theorem countBadWave_schedule (s : State) : (countBadWave s).schedule = s.schedule := rfl

/-! ### `countInOvf` -/

@[simp] theorem countInOvf_cfg (s : State) : (countInOvf s).cfg = s.cfg := rfl
@[simp] theorem countInOvf_freq (s : State) : (countInOvf s).freq = s.freq := rfl
@[simp] theorem countInOvf_lphase (s : State) : (countInOvf s).lphase = s.lphase := rfl
@[simp] theorem countInOvf_rphase (s : State) : (countInOvf s).rphase = s.rphase := rfl
@[simp] theorem countInOvf_waveSel (s : State) : (countInOvf s).waveSel = s.waveSel := rfl
@[simp] theorem countInOvf_phaseStep (s : State) : (countInOvf s).phaseStep = s.phaseStep := rfl
@[simp] theorem countInOvf_silent (s : State) : (countInOvf s).silent = s.silent := rfl
@[simp] theorem countInOvf_estate (s : State) : (countInOvf s).estate = s.estate := rfl
@[simp] theorem countInOvf_drainLeft (s : State) : (countInOvf s).drainLeft = s.drainLeft := rfl
@[simp] theorem countInOvf_outCnt (s : State) : (countInOvf s).outCnt = s.outCnt := rfl
@[simp] theorem countInOvf_outFull (s : State) : (countInOvf s).outFull = s.outFull := rfl
@[simp] theorem countInOvf_inCnt (s : State) : (countInOvf s).inCnt = s.inCnt := rfl
@[simp] theorem countInOvf_inFull (s : State) : (countInOvf s).inFull = s.inFull := rfl
@[simp] theorem countInOvf_fatal (s : State) : (countInOvf s).fatal = s.fatal := rfl
@[simp] theorem countInOvf_fatalCause (s : State) : (countInOvf s).fatalCause = s.fatalCause := rfl
@[simp] theorem countInOvf_discLogged (s : State) : (countInOvf s).discLogged = s.discLogged := rfl
@[simp] theorem countInOvf_cntUnknownParam (s : State) : (countInOvf s).cntUnknownParam = s.cntUnknownParam := rfl
@[simp] theorem countInOvf_cntUnsupported (s : State) : (countInOvf s).cntUnsupported = s.cntUnsupported := rfl
@[simp] theorem countInOvf_cntBadWave (s : State) : (countInOvf s).cntBadWave = s.cntBadWave := rfl
@[simp] theorem countInOvf_cntInOvf (s : State) : (countInOvf s).cntInOvf = s.cntInOvf + 1#32 := rfl
@[simp] theorem countInOvf_cntOutUnf (s : State) : (countInOvf s).cntOutUnf = s.cntOutUnf := rfl
@[simp] theorem countInOvf_cntCycles (s : State) : (countInOvf s).cntCycles = s.cntCycles := rfl
@[simp] theorem countInOvf_q (s : State) : (countInOvf s).q = s.q := rfl
@[simp] theorem countInOvf_v (s : State) : (countInOvf s).v = s.v := rfl
@[simp] theorem countInOvf_levelShown (s : State) : (countInOvf s).levelShown = s.levelShown := rfl
@[simp] theorem countInOvf_arbst (s : State) : (countInOvf s).arbst = s.arbst := rfl
@[simp] theorem countInOvf_att (s : State) : (countInOvf s).att = s.att := rfl
@[simp] theorem countInOvf_events (s : State) : (countInOvf s).events = s.events := rfl
@[simp] theorem countInOvf_outWords (s : State) : (countInOvf s).outWords = s.outWords := rfl
@[simp] theorem countInOvf_pins (s : State) : (countInOvf s).pins = s.pins := rfl
@[simp] theorem countInOvf_rstClkEdges (s : State) : (countInOvf s).rstClkEdges = s.rstClkEdges := rfl
@[simp] theorem countInOvf_rstWclkEdges (s : State) : (countInOvf s).rstWclkEdges = s.rstWclkEdges := rfl
@[simp] theorem countInOvf_schedule (s : State) : (countInOvf s).schedule = s.schedule := rfl

/-! ### `countOutUnf` -/

@[simp] theorem countOutUnf_cfg (s : State) : (countOutUnf s).cfg = s.cfg := rfl
@[simp] theorem countOutUnf_freq (s : State) : (countOutUnf s).freq = s.freq := rfl
@[simp] theorem countOutUnf_lphase (s : State) : (countOutUnf s).lphase = s.lphase := rfl
@[simp] theorem countOutUnf_rphase (s : State) : (countOutUnf s).rphase = s.rphase := rfl
@[simp] theorem countOutUnf_waveSel (s : State) : (countOutUnf s).waveSel = s.waveSel := rfl
@[simp] theorem countOutUnf_phaseStep (s : State) : (countOutUnf s).phaseStep = s.phaseStep := rfl
@[simp] theorem countOutUnf_silent (s : State) : (countOutUnf s).silent = s.silent := rfl
@[simp] theorem countOutUnf_estate (s : State) : (countOutUnf s).estate = s.estate := rfl
@[simp] theorem countOutUnf_drainLeft (s : State) : (countOutUnf s).drainLeft = s.drainLeft := rfl
@[simp] theorem countOutUnf_outCnt (s : State) : (countOutUnf s).outCnt = s.outCnt := rfl
@[simp] theorem countOutUnf_outFull (s : State) : (countOutUnf s).outFull = s.outFull := rfl
@[simp] theorem countOutUnf_inCnt (s : State) : (countOutUnf s).inCnt = s.inCnt := rfl
@[simp] theorem countOutUnf_inFull (s : State) : (countOutUnf s).inFull = s.inFull := rfl
@[simp] theorem countOutUnf_fatal (s : State) : (countOutUnf s).fatal = s.fatal := rfl
@[simp] theorem countOutUnf_fatalCause (s : State) : (countOutUnf s).fatalCause = s.fatalCause := rfl
@[simp] theorem countOutUnf_discLogged (s : State) : (countOutUnf s).discLogged = s.discLogged := rfl
@[simp] theorem countOutUnf_cntUnknownParam (s : State) : (countOutUnf s).cntUnknownParam = s.cntUnknownParam := rfl
@[simp] theorem countOutUnf_cntUnsupported (s : State) : (countOutUnf s).cntUnsupported = s.cntUnsupported := rfl
@[simp] theorem countOutUnf_cntBadWave (s : State) : (countOutUnf s).cntBadWave = s.cntBadWave := rfl
@[simp] theorem countOutUnf_cntInOvf (s : State) : (countOutUnf s).cntInOvf = s.cntInOvf := rfl
@[simp] theorem countOutUnf_cntOutUnf (s : State) : (countOutUnf s).cntOutUnf = s.cntOutUnf + 1#32 := rfl
@[simp] theorem countOutUnf_cntCycles (s : State) : (countOutUnf s).cntCycles = s.cntCycles := rfl
@[simp] theorem countOutUnf_q (s : State) : (countOutUnf s).q = s.q := rfl
@[simp] theorem countOutUnf_v (s : State) : (countOutUnf s).v = s.v := rfl
@[simp] theorem countOutUnf_levelShown (s : State) : (countOutUnf s).levelShown = s.levelShown := rfl
@[simp] theorem countOutUnf_arbst (s : State) : (countOutUnf s).arbst = s.arbst := rfl
@[simp] theorem countOutUnf_att (s : State) : (countOutUnf s).att = s.att := rfl
@[simp] theorem countOutUnf_events (s : State) : (countOutUnf s).events = s.events := rfl
@[simp] theorem countOutUnf_outWords (s : State) : (countOutUnf s).outWords = s.outWords := rfl
@[simp] theorem countOutUnf_pins (s : State) : (countOutUnf s).pins = s.pins := rfl
@[simp] theorem countOutUnf_rstClkEdges (s : State) : (countOutUnf s).rstClkEdges = s.rstClkEdges := rfl
@[simp] theorem countOutUnf_rstWclkEdges (s : State) : (countOutUnf s).rstWclkEdges = s.rstWclkEdges := rfl
@[simp] theorem countOutUnf_schedule (s : State) : (countOutUnf s).schedule = s.schedule := rfl

/-! ### `raiseDiag` -/

@[simp] theorem raiseDiag_cfg (c : BitVec 4) (x : Word) (s : State) : (raiseDiag c x s).cfg = s.cfg := rfl
@[simp] theorem raiseDiag_freq (c : BitVec 4) (x : Word) (s : State) : (raiseDiag c x s).freq = s.freq := rfl
@[simp] theorem raiseDiag_lphase (c : BitVec 4) (x : Word) (s : State) : (raiseDiag c x s).lphase = s.lphase := rfl
@[simp] theorem raiseDiag_rphase (c : BitVec 4) (x : Word) (s : State) : (raiseDiag c x s).rphase = s.rphase := rfl
@[simp] theorem raiseDiag_waveSel (c : BitVec 4) (x : Word) (s : State) : (raiseDiag c x s).waveSel = s.waveSel := rfl
@[simp] theorem raiseDiag_phaseStep (c : BitVec 4) (x : Word) (s : State) : (raiseDiag c x s).phaseStep = s.phaseStep := rfl
@[simp] theorem raiseDiag_silent (c : BitVec 4) (x : Word) (s : State) : (raiseDiag c x s).silent = s.silent := rfl
@[simp] theorem raiseDiag_estate (c : BitVec 4) (x : Word) (s : State) : (raiseDiag c x s).estate = s.estate := rfl
@[simp] theorem raiseDiag_drainLeft (c : BitVec 4) (x : Word) (s : State) : (raiseDiag c x s).drainLeft = s.drainLeft := rfl
@[simp] theorem raiseDiag_outCnt (c : BitVec 4) (x : Word) (s : State) : (raiseDiag c x s).outCnt = s.outCnt := rfl
@[simp] theorem raiseDiag_outFull (c : BitVec 4) (x : Word) (s : State) : (raiseDiag c x s).outFull = s.outFull := rfl
@[simp] theorem raiseDiag_inCnt (c : BitVec 4) (x : Word) (s : State) : (raiseDiag c x s).inCnt = s.inCnt := rfl
@[simp] theorem raiseDiag_inFull (c : BitVec 4) (x : Word) (s : State) : (raiseDiag c x s).inFull = s.inFull := rfl
@[simp] theorem raiseDiag_fatal (c : BitVec 4) (x : Word) (s : State) : (raiseDiag c x s).fatal = s.fatal := rfl
@[simp] theorem raiseDiag_fatalCause (c : BitVec 4) (x : Word) (s : State) : (raiseDiag c x s).fatalCause = s.fatalCause := rfl
@[simp] theorem raiseDiag_discLogged (c : BitVec 4) (x : Word) (s : State) : (raiseDiag c x s).discLogged = s.discLogged := rfl
@[simp] theorem raiseDiag_cntUnknownParam (c : BitVec 4) (x : Word) (s : State) : (raiseDiag c x s).cntUnknownParam = s.cntUnknownParam := rfl
@[simp] theorem raiseDiag_cntUnsupported (c : BitVec 4) (x : Word) (s : State) : (raiseDiag c x s).cntUnsupported = s.cntUnsupported := rfl
@[simp] theorem raiseDiag_cntBadWave (c : BitVec 4) (x : Word) (s : State) : (raiseDiag c x s).cntBadWave = s.cntBadWave := rfl
@[simp] theorem raiseDiag_cntInOvf (c : BitVec 4) (x : Word) (s : State) : (raiseDiag c x s).cntInOvf = s.cntInOvf := rfl
@[simp] theorem raiseDiag_cntOutUnf (c : BitVec 4) (x : Word) (s : State) : (raiseDiag c x s).cntOutUnf = s.cntOutUnf := rfl
@[simp] theorem raiseDiag_cntCycles (c : BitVec 4) (x : Word) (s : State) : (raiseDiag c x s).cntCycles = s.cntCycles := rfl
@[simp] theorem raiseDiag_q (c : BitVec 4) (x : Word) (s : State) : (raiseDiag c x s).q = s.q := rfl
@[simp] theorem raiseDiag_v (c : BitVec 4) (x : Word) (s : State) : (raiseDiag c x s).v = s.v := rfl
@[simp] theorem raiseDiag_levelShown (c : BitVec 4) (x : Word) (s : State) : (raiseDiag c x s).levelShown = s.levelShown := rfl
@[simp] theorem raiseDiag_arbst (c : BitVec 4) (x : Word) (s : State) : (raiseDiag c x s).arbst = s.arbst := rfl
@[simp] theorem raiseDiag_att (c : BitVec 4) (x : Word) (s : State) : (raiseDiag c x s).att = s.att := rfl
@[simp] theorem raiseDiag_events (c : BitVec 4) (x : Word) (s : State) : (raiseDiag c x s).events = s.events ++ [⟨c, x⟩] := rfl
@[simp] theorem raiseDiag_outWords (c : BitVec 4) (x : Word) (s : State) : (raiseDiag c x s).outWords = s.outWords := rfl
@[simp] theorem raiseDiag_pins (c : BitVec 4) (x : Word) (s : State) : (raiseDiag c x s).pins = s.pins := rfl
@[simp] theorem raiseDiag_rstClkEdges (c : BitVec 4) (x : Word) (s : State) : (raiseDiag c x s).rstClkEdges = s.rstClkEdges := rfl
@[simp] theorem raiseDiag_rstWclkEdges (c : BitVec 4) (x : Word) (s : State) : (raiseDiag c x s).rstWclkEdges = s.rstWclkEdges := rfl
@[simp] theorem raiseDiag_schedule (c : BitVec 4) (x : Word) (s : State) : (raiseDiag c x s).schedule = s.schedule := rfl

/-! ### `enqueue` -/

@[simp] theorem enqueue_cfg (w : CmdWord) (s : State) : (enqueue w s).cfg = s.cfg := rfl
@[simp] theorem enqueue_freq (w : CmdWord) (s : State) : (enqueue w s).freq = s.freq := rfl
@[simp] theorem enqueue_lphase (w : CmdWord) (s : State) : (enqueue w s).lphase = s.lphase := rfl
@[simp] theorem enqueue_rphase (w : CmdWord) (s : State) : (enqueue w s).rphase = s.rphase := rfl
@[simp] theorem enqueue_waveSel (w : CmdWord) (s : State) : (enqueue w s).waveSel = s.waveSel := rfl
@[simp] theorem enqueue_phaseStep (w : CmdWord) (s : State) : (enqueue w s).phaseStep = s.phaseStep := rfl
@[simp] theorem enqueue_silent (w : CmdWord) (s : State) : (enqueue w s).silent = s.silent := rfl
@[simp] theorem enqueue_estate (w : CmdWord) (s : State) : (enqueue w s).estate = s.estate := rfl
@[simp] theorem enqueue_drainLeft (w : CmdWord) (s : State) : (enqueue w s).drainLeft = s.drainLeft := rfl
@[simp] theorem enqueue_outCnt (w : CmdWord) (s : State) : (enqueue w s).outCnt = s.outCnt := rfl
@[simp] theorem enqueue_outFull (w : CmdWord) (s : State) : (enqueue w s).outFull = s.outFull := rfl
@[simp] theorem enqueue_inCnt (w : CmdWord) (s : State) : (enqueue w s).inCnt = s.inCnt := rfl
@[simp] theorem enqueue_inFull (w : CmdWord) (s : State) : (enqueue w s).inFull = s.inFull := rfl
@[simp] theorem enqueue_fatal (w : CmdWord) (s : State) : (enqueue w s).fatal = s.fatal := rfl
@[simp] theorem enqueue_fatalCause (w : CmdWord) (s : State) : (enqueue w s).fatalCause = s.fatalCause := rfl
@[simp] theorem enqueue_discLogged (w : CmdWord) (s : State) : (enqueue w s).discLogged = s.discLogged := rfl
@[simp] theorem enqueue_cntUnknownParam (w : CmdWord) (s : State) : (enqueue w s).cntUnknownParam = s.cntUnknownParam := rfl
@[simp] theorem enqueue_cntUnsupported (w : CmdWord) (s : State) : (enqueue w s).cntUnsupported = s.cntUnsupported := rfl
@[simp] theorem enqueue_cntBadWave (w : CmdWord) (s : State) : (enqueue w s).cntBadWave = s.cntBadWave := rfl
@[simp] theorem enqueue_cntInOvf (w : CmdWord) (s : State) : (enqueue w s).cntInOvf = s.cntInOvf := rfl
@[simp] theorem enqueue_cntOutUnf (w : CmdWord) (s : State) : (enqueue w s).cntOutUnf = s.cntOutUnf := rfl
@[simp] theorem enqueue_cntCycles (w : CmdWord) (s : State) : (enqueue w s).cntCycles = s.cntCycles := rfl
@[simp] theorem enqueue_q (w : CmdWord) (s : State) : (enqueue w s).q = s.q ++ [w] := rfl
@[simp] theorem enqueue_v (w : CmdWord) (s : State) : (enqueue w s).v = s.v := rfl
@[simp] theorem enqueue_levelShown (w : CmdWord) (s : State) : (enqueue w s).levelShown = s.levelShown := rfl
@[simp] theorem enqueue_arbst (w : CmdWord) (s : State) : (enqueue w s).arbst = s.arbst := rfl
@[simp] theorem enqueue_att (w : CmdWord) (s : State) : (enqueue w s).att = s.att := rfl
@[simp] theorem enqueue_events (w : CmdWord) (s : State) : (enqueue w s).events = s.events := rfl
@[simp] theorem enqueue_outWords (w : CmdWord) (s : State) : (enqueue w s).outWords = s.outWords := rfl
@[simp] theorem enqueue_pins (w : CmdWord) (s : State) : (enqueue w s).pins = s.pins := rfl
@[simp] theorem enqueue_rstClkEdges (w : CmdWord) (s : State) : (enqueue w s).rstClkEdges = s.rstClkEdges := rfl
@[simp] theorem enqueue_rstWclkEdges (w : CmdWord) (s : State) : (enqueue w s).rstWclkEdges = s.rstWclkEdges := rfl
@[simp] theorem enqueue_schedule (w : CmdWord) (s : State) : (enqueue w s).schedule = s.schedule := rfl

/-! ### `countOutput` -/

@[simp] theorem countOutput_cfg (s : State) : (countOutput s).cfg = s.cfg := rfl
@[simp] theorem countOutput_freq (s : State) : (countOutput s).freq = s.freq := rfl
@[simp] theorem countOutput_lphase (s : State) : (countOutput s).lphase = s.lphase := rfl
@[simp] theorem countOutput_rphase (s : State) : (countOutput s).rphase = s.rphase := rfl
@[simp] theorem countOutput_waveSel (s : State) : (countOutput s).waveSel = s.waveSel := rfl
@[simp] theorem countOutput_phaseStep (s : State) : (countOutput s).phaseStep = s.phaseStep := rfl
@[simp] theorem countOutput_silent (s : State) : (countOutput s).silent = s.silent := rfl
@[simp] theorem countOutput_estate (s : State) : (countOutput s).estate = s.estate := rfl
@[simp] theorem countOutput_drainLeft (s : State) : (countOutput s).drainLeft = s.drainLeft := rfl
@[simp] theorem countOutput_outCnt (s : State) : (countOutput s).outCnt = s.outCnt + 1#31 := rfl
@[simp] theorem countOutput_outFull (s : State) : (countOutput s).outFull = nextFull s.outCnt s.outFull := rfl
@[simp] theorem countOutput_inCnt (s : State) : (countOutput s).inCnt = s.inCnt := rfl
@[simp] theorem countOutput_inFull (s : State) : (countOutput s).inFull = s.inFull := rfl
@[simp] theorem countOutput_fatal (s : State) : (countOutput s).fatal = s.fatal := rfl
@[simp] theorem countOutput_fatalCause (s : State) : (countOutput s).fatalCause = s.fatalCause := rfl
@[simp] theorem countOutput_discLogged (s : State) : (countOutput s).discLogged = s.discLogged := rfl
@[simp] theorem countOutput_cntUnknownParam (s : State) : (countOutput s).cntUnknownParam = s.cntUnknownParam := rfl
@[simp] theorem countOutput_cntUnsupported (s : State) : (countOutput s).cntUnsupported = s.cntUnsupported := rfl
@[simp] theorem countOutput_cntBadWave (s : State) : (countOutput s).cntBadWave = s.cntBadWave := rfl
@[simp] theorem countOutput_cntInOvf (s : State) : (countOutput s).cntInOvf = s.cntInOvf := rfl
@[simp] theorem countOutput_cntOutUnf (s : State) : (countOutput s).cntOutUnf = s.cntOutUnf := rfl
@[simp] theorem countOutput_cntCycles (s : State) : (countOutput s).cntCycles = s.cntCycles := rfl
@[simp] theorem countOutput_q (s : State) : (countOutput s).q = s.q := rfl
@[simp] theorem countOutput_v (s : State) : (countOutput s).v = s.v := rfl
@[simp] theorem countOutput_levelShown (s : State) : (countOutput s).levelShown = s.levelShown := rfl
@[simp] theorem countOutput_arbst (s : State) : (countOutput s).arbst = s.arbst := rfl
@[simp] theorem countOutput_att (s : State) : (countOutput s).att = s.att := rfl
@[simp] theorem countOutput_events (s : State) : (countOutput s).events = s.events := rfl
@[simp] theorem countOutput_outWords (s : State) : (countOutput s).outWords = s.outWords := rfl
@[simp] theorem countOutput_pins (s : State) : (countOutput s).pins = s.pins := rfl
@[simp] theorem countOutput_rstClkEdges (s : State) : (countOutput s).rstClkEdges = s.rstClkEdges := rfl
@[simp] theorem countOutput_rstWclkEdges (s : State) : (countOutput s).rstWclkEdges = s.rstWclkEdges := rfl
@[simp] theorem countOutput_schedule (s : State) : (countOutput s).schedule = s.schedule := rfl

/-! ### `clearCounts` -/

@[simp] theorem clearCounts_cfg (s : State) : (clearCounts s).cfg = s.cfg := rfl
@[simp] theorem clearCounts_freq (s : State) : (clearCounts s).freq = s.freq := rfl
@[simp] theorem clearCounts_lphase (s : State) : (clearCounts s).lphase = s.lphase := rfl
@[simp] theorem clearCounts_rphase (s : State) : (clearCounts s).rphase = s.rphase := rfl
@[simp] theorem clearCounts_waveSel (s : State) : (clearCounts s).waveSel = s.waveSel := rfl
@[simp] theorem clearCounts_phaseStep (s : State) : (clearCounts s).phaseStep = s.phaseStep := rfl
@[simp] theorem clearCounts_silent (s : State) : (clearCounts s).silent = s.silent := rfl
@[simp] theorem clearCounts_estate (s : State) : (clearCounts s).estate = s.estate := rfl
@[simp] theorem clearCounts_drainLeft (s : State) : (clearCounts s).drainLeft = s.drainLeft := rfl
@[simp] theorem clearCounts_outCnt (s : State) : (clearCounts s).outCnt = 0#31 := rfl
@[simp] theorem clearCounts_outFull (s : State) : (clearCounts s).outFull = false := rfl
@[simp] theorem clearCounts_inCnt (s : State) : (clearCounts s).inCnt = 0#31 := rfl
@[simp] theorem clearCounts_inFull (s : State) : (clearCounts s).inFull = false := rfl
@[simp] theorem clearCounts_fatal (s : State) : (clearCounts s).fatal = s.fatal := rfl
@[simp] theorem clearCounts_fatalCause (s : State) : (clearCounts s).fatalCause = s.fatalCause := rfl
@[simp] theorem clearCounts_discLogged (s : State) : (clearCounts s).discLogged = s.discLogged := rfl
@[simp] theorem clearCounts_cntUnknownParam (s : State) : (clearCounts s).cntUnknownParam = s.cntUnknownParam := rfl
@[simp] theorem clearCounts_cntUnsupported (s : State) : (clearCounts s).cntUnsupported = s.cntUnsupported := rfl
@[simp] theorem clearCounts_cntBadWave (s : State) : (clearCounts s).cntBadWave = s.cntBadWave := rfl
@[simp] theorem clearCounts_cntInOvf (s : State) : (clearCounts s).cntInOvf = s.cntInOvf := rfl
@[simp] theorem clearCounts_cntOutUnf (s : State) : (clearCounts s).cntOutUnf = s.cntOutUnf := rfl
@[simp] theorem clearCounts_cntCycles (s : State) : (clearCounts s).cntCycles = s.cntCycles := rfl
@[simp] theorem clearCounts_q (s : State) : (clearCounts s).q = s.q := rfl
@[simp] theorem clearCounts_v (s : State) : (clearCounts s).v = s.v := rfl
@[simp] theorem clearCounts_levelShown (s : State) : (clearCounts s).levelShown = s.levelShown := rfl
@[simp] theorem clearCounts_arbst (s : State) : (clearCounts s).arbst = s.arbst := rfl
@[simp] theorem clearCounts_att (s : State) : (clearCounts s).att = s.att := rfl
@[simp] theorem clearCounts_events (s : State) : (clearCounts s).events = s.events := rfl
@[simp] theorem clearCounts_outWords (s : State) : (clearCounts s).outWords = s.outWords := rfl
@[simp] theorem clearCounts_pins (s : State) : (clearCounts s).pins = s.pins := rfl
@[simp] theorem clearCounts_rstClkEdges (s : State) : (clearCounts s).rstClkEdges = s.rstClkEdges := rfl
@[simp] theorem clearCounts_rstWclkEdges (s : State) : (clearCounts s).rstWclkEdges = s.rstWclkEdges := rfl
@[simp] theorem clearCounts_schedule (s : State) : (clearCounts s).schedule = s.schedule := rfl

/-! ### `countInput` -/

@[simp] theorem countInput_cfg (s : State) : (countInput s).cfg = s.cfg := rfl
@[simp] theorem countInput_freq (s : State) : (countInput s).freq = s.freq := rfl
@[simp] theorem countInput_lphase (s : State) : (countInput s).lphase = s.lphase := rfl
@[simp] theorem countInput_rphase (s : State) : (countInput s).rphase = s.rphase := rfl
@[simp] theorem countInput_waveSel (s : State) : (countInput s).waveSel = s.waveSel := rfl
@[simp] theorem countInput_phaseStep (s : State) : (countInput s).phaseStep = s.phaseStep := rfl
@[simp] theorem countInput_silent (s : State) : (countInput s).silent = s.silent := rfl
@[simp] theorem countInput_estate (s : State) : (countInput s).estate = s.estate := rfl
@[simp] theorem countInput_drainLeft (s : State) : (countInput s).drainLeft = s.drainLeft := rfl
@[simp] theorem countInput_outCnt (s : State) : (countInput s).outCnt = s.outCnt := rfl
@[simp] theorem countInput_outFull (s : State) : (countInput s).outFull = s.outFull := rfl
@[simp] theorem countInput_inCnt (s : State) : (countInput s).inCnt = s.inCnt + 1#31 := rfl
@[simp] theorem countInput_inFull (s : State) : (countInput s).inFull = nextFull s.inCnt s.inFull := rfl
@[simp] theorem countInput_fatal (s : State) : (countInput s).fatal = s.fatal := rfl
@[simp] theorem countInput_fatalCause (s : State) : (countInput s).fatalCause = s.fatalCause := rfl
@[simp] theorem countInput_discLogged (s : State) : (countInput s).discLogged = s.discLogged := rfl
@[simp] theorem countInput_cntUnknownParam (s : State) : (countInput s).cntUnknownParam = s.cntUnknownParam := rfl
@[simp] theorem countInput_cntUnsupported (s : State) : (countInput s).cntUnsupported = s.cntUnsupported := rfl
@[simp] theorem countInput_cntBadWave (s : State) : (countInput s).cntBadWave = s.cntBadWave := rfl
@[simp] theorem countInput_cntInOvf (s : State) : (countInput s).cntInOvf = s.cntInOvf := rfl
@[simp] theorem countInput_cntOutUnf (s : State) : (countInput s).cntOutUnf = s.cntOutUnf := rfl
@[simp] theorem countInput_cntCycles (s : State) : (countInput s).cntCycles = s.cntCycles := rfl
@[simp] theorem countInput_q (s : State) : (countInput s).q = s.q := rfl
@[simp] theorem countInput_v (s : State) : (countInput s).v = s.v := rfl
@[simp] theorem countInput_levelShown (s : State) : (countInput s).levelShown = s.levelShown := rfl
@[simp] theorem countInput_arbst (s : State) : (countInput s).arbst = s.arbst := rfl
@[simp] theorem countInput_att (s : State) : (countInput s).att = s.att := rfl
@[simp] theorem countInput_events (s : State) : (countInput s).events = s.events := rfl
@[simp] theorem countInput_outWords (s : State) : (countInput s).outWords = s.outWords := rfl
@[simp] theorem countInput_pins (s : State) : (countInput s).pins = s.pins := rfl
@[simp] theorem countInput_rstClkEdges (s : State) : (countInput s).rstClkEdges = s.rstClkEdges := rfl
@[simp] theorem countInput_rstWclkEdges (s : State) : (countInput s).rstWclkEdges = s.rstWclkEdges := rfl
@[simp] theorem countInput_schedule (s : State) : (countInput s).schedule = s.schedule := rfl

/-! ### `latchLevel` -/

@[simp] theorem latchLevel_cfg (s : State) : (latchLevel s).cfg = s.cfg := rfl
@[simp] theorem latchLevel_freq (s : State) : (latchLevel s).freq = s.freq := rfl
@[simp] theorem latchLevel_lphase (s : State) : (latchLevel s).lphase = s.lphase := rfl
@[simp] theorem latchLevel_rphase (s : State) : (latchLevel s).rphase = s.rphase := rfl
@[simp] theorem latchLevel_waveSel (s : State) : (latchLevel s).waveSel = s.waveSel := rfl
@[simp] theorem latchLevel_phaseStep (s : State) : (latchLevel s).phaseStep = s.phaseStep := rfl
@[simp] theorem latchLevel_silent (s : State) : (latchLevel s).silent = s.silent := rfl
@[simp] theorem latchLevel_estate (s : State) : (latchLevel s).estate = s.estate := rfl
@[simp] theorem latchLevel_drainLeft (s : State) : (latchLevel s).drainLeft = s.drainLeft := rfl
@[simp] theorem latchLevel_outCnt (s : State) : (latchLevel s).outCnt = s.outCnt := rfl
@[simp] theorem latchLevel_outFull (s : State) : (latchLevel s).outFull = s.outFull := rfl
@[simp] theorem latchLevel_inCnt (s : State) : (latchLevel s).inCnt = s.inCnt := rfl
@[simp] theorem latchLevel_inFull (s : State) : (latchLevel s).inFull = s.inFull := rfl
@[simp] theorem latchLevel_fatal (s : State) : (latchLevel s).fatal = s.fatal := rfl
@[simp] theorem latchLevel_fatalCause (s : State) : (latchLevel s).fatalCause = s.fatalCause := rfl
@[simp] theorem latchLevel_discLogged (s : State) : (latchLevel s).discLogged = s.discLogged := rfl
@[simp] theorem latchLevel_cntUnknownParam (s : State) : (latchLevel s).cntUnknownParam = s.cntUnknownParam := rfl
@[simp] theorem latchLevel_cntUnsupported (s : State) : (latchLevel s).cntUnsupported = s.cntUnsupported := rfl
@[simp] theorem latchLevel_cntBadWave (s : State) : (latchLevel s).cntBadWave = s.cntBadWave := rfl
@[simp] theorem latchLevel_cntInOvf (s : State) : (latchLevel s).cntInOvf = s.cntInOvf := rfl
@[simp] theorem latchLevel_cntOutUnf (s : State) : (latchLevel s).cntOutUnf = s.cntOutUnf := rfl
@[simp] theorem latchLevel_cntCycles (s : State) : (latchLevel s).cntCycles = s.cntCycles := rfl
@[simp] theorem latchLevel_q (s : State) : (latchLevel s).q = s.q := rfl
@[simp] theorem latchLevel_v (s : State) : (latchLevel s).v = s.v := rfl
@[simp] theorem latchLevel_levelShown (s : State) : (latchLevel s).levelShown = s.v := rfl
@[simp] theorem latchLevel_arbst (s : State) : (latchLevel s).arbst = s.arbst := rfl
@[simp] theorem latchLevel_att (s : State) : (latchLevel s).att = s.att := rfl
@[simp] theorem latchLevel_events (s : State) : (latchLevel s).events = s.events := rfl
@[simp] theorem latchLevel_outWords (s : State) : (latchLevel s).outWords = s.outWords := rfl
@[simp] theorem latchLevel_pins (s : State) : (latchLevel s).pins = s.pins := rfl
@[simp] theorem latchLevel_rstClkEdges (s : State) : (latchLevel s).rstClkEdges = s.rstClkEdges := rfl
@[simp] theorem latchLevel_rstWclkEdges (s : State) : (latchLevel s).rstWclkEdges = s.rstWclkEdges := rfl
@[simp] theorem latchLevel_schedule (s : State) : (latchLevel s).schedule = s.schedule := rfl

end Sys2Proof.Machine
end

