-- ==== Sys2Proof/Laws/Ops.lean ====
section
/-! SUPPORT. One lemma for each shared operation that says once everything it can do. -/

namespace Sys2Proof.Machine

/-- `raise Fatal` does nothing in FATAL (60_exceptions.md R245). -/
theorem raiseFatal_of_fatal (c : BitVec 2) (s : State) (h : s.estate = .fatal) : raiseFatal c s = s := by
  simp [raiseFatal, h]

/-- `raise Fatal` outside FATAL (60_exceptions.md R245). -/
theorem raiseFatal_of_running (c : BitVec 2) (s : State) (h : s.estate ≠ .fatal) :
    raiseFatal c s =
      { s with
        fatal := true, fatalCause := c, estate := .fatal
        events := s.events ++ [⟨codeFatal, c.setWidth 32⟩] } := by
  simp [raiseFatal, h, raiseDiag]

/-- A count goes up by one, past its 31 bits too (10_state.md R38, log entry 6). -/
theorem countOf_next {n : BitVec 31} {full : Bool} (h : countOf n full + 1 < 2 ^ 32) :
    countOf (n + 1#31) (nextFull n full) = countOf n full + 1 := by
  have hn := n.isLt
  by_cases hm : n = BitVec.allOnes 31
  · subst hm
    cases full
    · rfl
    · exact absurd h (by decide)
  · have hlt : n.toNat ≠ 2 ^ 31 - 1 := fun hh => hm (BitVec.eq_of_toNat_eq (by simpa using hh))
    have hb : (n == BitVec.allOnes 31) = false := beq_eq_false_iff_ne.mpr hm
    simp only [countOf, nextFull, hb, Bool.xor_false, BitVec.toNat_add, BitVec.toNat_ofNat]
    omega

/-- What an output transfer makes of the counts (43_buffer_cycle.md R218). -/
theorem outCount_countOutput {s : State} (h : outCount s + 1 < 2 ^ 32) : outCount (countOutput s) = outCount s + 1 :=
  countOf_next h

/-- What an input transfer makes of the counts (43_buffer_cycle.md R219). -/
theorem inCount_countInput {s : State} (h : inCount s + 1 < 2 ^ 32) : inCount (countInput s) = inCount s + 1 :=
  countOf_next h

@[simp] theorem inCount_countOutput (s : State) : inCount (countOutput s) = inCount s := rfl
@[simp] theorem outCount_countInput (s : State) : outCount (countInput s) = outCount s := rfl
@[simp] theorem outCount_clearCounts (s : State) : outCount (clearCounts s) = 0 := rfl
@[simp] theorem inCount_clearCounts (s : State) : inCount (clearCounts s) = 0 := rfl

/-- What a successful pop gives (40_command_fifo.md R131). -/
theorem fifoPop_eq_some {s t : State} {w : CmdWord} :
    fifoPop s = some (w, t) ↔
      ∃ rest, s.q = w :: rest ∧ s.v ≠ 0#11 ∧ t = { s with q := rest, v := s.v - 1#11 } := by
  unfold fifoPop
  constructor
  · intro h
    split at h
    · cases h
    · rename_i w' rest hq
      split at h
      · cases h
      · rename_i hv
        cases h
        exact ⟨rest, hq, hv, rfl⟩
  · rintro ⟨rest, hq, hv, rfl⟩
    simp [hq, hv]

/-- A pop fails exactly where no word is visible (40_command_fifo.md R131). -/
theorem fifoPop_eq_none {s : State} : fifoPop s = none ↔ s.q = [] ∨ s.v = 0#11 := by
  unfold fifoPop
  split
  · simp_all
  · split <;> simp_all

/-- A transfer changes nothing or appends one word (40_command_fifo.md R124). -/
theorem transferAt_cases (g : Option Nat) (s : State) :
    transferAt g s = s ∨
      ∃ p, g = some p ∧ portReady s g p = true ∧ (portPins s p).valid = true ∧
        transferAt g s = enqueue (portPins s p).data s := by
  cases g with
  | none => exact .inl rfl
  | some p =>
    by_cases h : portReady s (some p) p && (portPins s p).valid
    · have h' := h
      simp only [Bool.and_eq_true] at h'
      exact .inr ⟨p, rfl, h'.1, h'.2, by simp [transferAt, h]⟩
    · exact .inl (by simp [transferAt, h])

/-- When a port is ready (40_command_fifo.md R123). -/
theorem portReady_eq_true {s : State} {g : Option Nat} {p : Nat} :
    portReady s g p = true ↔
      g = some p ∧ p < s.cfg.np ∧ s.q.length < depth ∧ s.pins.rst = false ∧ s.estate ≠ .fatal := by
  simp [portReady, and_assoc]

/-- Everything a `wclk` edge can do. -/
theorem wclkEdge_cases (g : Option Nat) (arb : Nat) (s : State) :
    (s.pins.rst = true ∧ wclkEdge g arb s = { s with rstWclkEdges := min 2 (s.rstWclkEdges + 1) }) ∨
    (s.pins.rst = false ∧ wclkEdge g arb s = { s with arbst := arb }) ∨
    (s.pins.rst = false ∧ s.q.length < depth ∧ s.estate ≠ .fatal ∧
      ∃ p, p < s.cfg.np ∧ wclkEdge g arb s = { s with q := s.q ++ [(portPins s p).data], arbst := arb }) := by
  unfold wclkEdge
  cases hr : s.pins.rst with
  | true => simp
  | false =>
    rcases transferAt_cases g s with h | ⟨p, -, hp, -, h⟩
    · simp [h]
    · obtain ⟨-, hnp, hroom, -, hfatal⟩ := portReady_eq_true.mp hp
      exact .inr (.inr ⟨rfl, hroom, hfatal, p, hnp, by simp [h, enqueue]⟩)

/-- Everything a crossing step can do (40_command_fifo.md R128). -/
theorem crossStep_cases (s : State) :
    crossStep s = s ∨
      (s.pins.rst = false ∧ s.v.toNat < s.q.length ∧ crossStep s = { s with v := s.v + 1#11 }) := by
  unfold crossStep
  split
  · rename_i h
    simp only [Bool.and_eq_true, Bool.not_eq_true', decide_eq_true_eq] at h
    exact .inr ⟨h.1, h.2, rfl⟩
  · exact .inl rfl

/-- Everything an attach sample can do (40_command_fifo.md R121). -/
theorem sampleAttachStep_cases (p : Nat) (s : State) :
    sampleAttachStep p s = s ∨ ∃ b, sampleAttachStep p s = { s with att := s.att.set p b } := by
  unfold sampleAttachStep
  split
  · exact .inl rfl
  · exact .inr ⟨_, rfl⟩

/-- Everything driving the inputs can do. -/
theorem drivePins_cases (p : Pins) (s : State) :
    (drivePins p s = .refused .resetTooShort ∧ s.pins.rst = true ∧ p.rst = false ∧ resetTooShort s = true) ∨
      drivePins p s =
        .next
          { s with
            pins := p
            rstClkEdges := if p.rst then s.rstClkEdges else 0
            rstWclkEdges := if p.rst then s.rstWclkEdges else 0 } := by
  unfold drivePins
  split
  · rename_i h
    simp only [Bool.and_eq_true, Bool.not_eq_true'] at h
    exact .inl ⟨rfl, h.1.1, h.1.2, h.2⟩
  · exact .inr rfl

end Sys2Proof.Machine
end

