-- ==== Sys2Proof/Laws/Engine.lean ====
section
/-! SUPPORT. Everything a command, an engine edge and a step can do, said once. -/

namespace Sys2Proof.Machine

/-- Every command answers a next state (41_commands.md R173). -/
theorem exec_next (i : Instr) (s : State) : ∃ t, exec i s = .next t := by
  cases i <;> exact ⟨_, rfl⟩

/-- What the next state of a command is (41_commands.md). -/
theorem exec_cases {i : Instr} {s t : State} (h : exec i s = .next t) :
    (∃ f, t = setFreq f s) ∨ (∃ k, t = selectWave k s) ∨
      (∃ x, t = countUnknownParam (raiseDiag codeUnknownParam x s)) ∨
      (∃ x, t = countBadWave (raiseDiag codeBadWave x s)) ∨
      ∃ x, t = countUnsupported (raiseDiag codeUnsupportedCmd x s) := by
  cases i <;> cases h
  · exact .inl ⟨_, rfl⟩
  · exact .inl ⟨_, rfl⟩
  · exact .inl ⟨_, rfl⟩
  · exact .inr (.inr (.inl ⟨_, rfl⟩))
  · exact .inr (.inl ⟨_, rfl⟩)
  · exact .inr (.inr (.inr (.inl ⟨_, rfl⟩)))
  · exact .inr (.inr (.inr (.inr ⟨_, rfl⟩)))

/-- What a drain step does (43_buffer_cycle.md R215). -/
theorem drainStep_eq_next {s t : State} (h : drainStep s = .next t) :
    ∃ w rest s2, s.q = w :: rest ∧ s.v ≠ 0#11 ∧
      applyWord w { s with q := rest, v := s.v - 1#11 } = .next s2 ∧
      t = { s2 with drainLeft := s2.drainLeft - 1#11 } := by
  unfold drainStep at h
  split at h
  · cases h
  · rename_i w s1 hp
    obtain ⟨rest, hq, hv, rfl⟩ := fifoPop_eq_some.mp hp
    split at h
    · rename_i s2 hs2
      cases h
      exact ⟨w, rest, s2, hq, hv, hs2, rfl⟩
    · cases h
    · cases h

/-- A drain step answers a next state where a word is visible (43_buffer_cycle.md R215). -/
theorem drainStep_next {s : State} {w : CmdWord} {rest : List CmdWord} (hq : s.q = w :: rest) (hv : s.v ≠ 0#11) :
    ∃ s2, applyWord w { s with q := rest, v := s.v - 1#11 } = .next s2 ∧
      drainStep s = .next { s2 with drainLeft := s2.drainLeft - 1#11 } := by
  obtain ⟨s2, h⟩ := exec_next (decode w) { s with q := rest, v := s.v - 1#11 }
  refine ⟨s2, h, ?_⟩
  have hp : fifoPop s = some (w, { s with q := rest, v := s.v - 1#11 }) := fifoPop_eq_some.mpr ⟨rest, hq, hv, rfl⟩
  simp [drainStep, hp, applyWord, h]

/-- The drain's end (43_buffer_cycle.md R216). -/
theorem drainEnd_cases (s : State) :
    (drainEnd s = { s with estate := .step }) ∨
    (disconnected s = true ∧ s.discLogged = false ∧
      drainEnd s =
        { s with
          estate := .step, discLogged := true, events := s.events ++ [⟨codeDisconnected, 0x00000000#32⟩] }) := by
  unfold drainEnd disconnectionCheck
  split
  · rename_i h
    simp only [Bool.and_eq_true, Bool.not_eq_true'] at h
    exact .inr ⟨h.1, h.2, rfl⟩
  · exact .inl rfl

/-- A cycle start (43_buffer_cycle.md R211): the fatal length mismatch, or the accepted start written out. -/
theorem cycleStart_eq (s : State) :
    cycleStart s =
      if lengthMismatch s then raiseFatal causeLenMismatch s
      else
        { s with
          outCnt := 0#31
          outFull := false
          inCnt := 0#31
          inFull := false
          outWords := []
          cntInOvf := if s.pins.cycInOvf then s.cntInOvf + 1#32 else s.cntInOvf
          cntOutUnf := if s.pins.cycOutUnf then s.cntOutUnf + 1#32 else s.cntOutUnf
          events :=
            s.events ++ (if s.pins.cycInOvf then [⟨codeInOverflow, s.cntCycles⟩] else [])
              ++ (if s.pins.cycOutUnf then [⟨codeOutUnderflow, s.cntCycles⟩] else [])
          drainLeft := s.v
          estate := .drain } := by
  unfold cycleStart
  split
  · rfl
  · cases h1 : s.pins.cycInOvf <;> cases h2 : s.pins.cycOutUnf <;>
      simp [clearCounts, reportInOvf, reportOutUnf, h1, h2, countInOvf, countOutUnf, raiseDiag]

/-- The step state writes `SILENT`, `STEP` and `ESTATE` only (43_buffer_cycle.md R217). -/
theorem stepState_eq (s : State) :
    stepState s =
      { s with
        silent := isZero32 s.freq
        phaseStep :=
          if isZero32 s.freq then 0#24 else stepOfFreq s.cfg.sampleRate s.freq (tableLen s.cfg s.waveSel)
        estate := .emit } := by
  unfold stepState stepComputation silentFlag
  cases h : isZero32 s.freq <;> simp

/-- Everything an EMIT edge can do (43_buffer_cycle.md R218 to R220). -/
theorem emitStep_cases {s t : State} (h : emitStep s = .next t) :
    (outCount s = bufferWords s ∧ inCount s = bufferWords s ∧ t = completeCycle s) ∨
    (¬ (outCount s = bufferWords s ∧ inCount s = bufferWords s) ∧
      ((t = inputSide s ∧ (outPending s = false ∨ s.pins.outReady = false)) ∨
        ∃ w, outPending s = true ∧ s.pins.outReady = true ∧ sampleWord s (outCount s) = some w ∧
          t = inputSide (takeOutput w s))) := by
  unfold emitStep at h
  split at h
  · rename_i hc
    cases h
    exact .inl ⟨hc.1, hc.2, rfl⟩
  · rename_i hc
    refine .inr ⟨hc, ?_⟩
    unfold outputSide at h
    cases hp : outPending s with
    | false =>
      simp only [hp] at h
      cases h
      exact .inl ⟨rfl, .inl rfl⟩
    | true =>
      simp only [hp, if_true] at h
      cases hw : sampleWord s (outCount s) with
      | none => simp [hw] at h
      | some w =>
        cases hr : s.pins.outReady with
        | false =>
          simp only [hw, hr] at h
          cases h
          exact .inl ⟨rfl, .inr rfl⟩
        | true =>
          simp only [hw, hr, if_true] at h
          cases h
          exact .inr ⟨w, rfl, rfl, rfl, rfl⟩

/-- An input side counts one word or does nothing, and counts only below the buffer's length (43_buffer_cycle.md R219). -/
theorem inputSide_cases (s : State) :
    inputSide s = s ∨ (inCount s < bufferWords s ∧ s.pins.inValid = true ∧ inputSide s = countInput s) := by
  unfold inputSide inPending
  split
  · rename_i h
    simp only [Bool.and_eq_true, decide_eq_true_eq] at h
    exact .inr ⟨h.1, h.2, rfl⟩
  · exact .inl rfl

/-- An input side written out (43_buffer_cycle.md R219). -/
theorem inputSide_eq (s : State) :
    inputSide s = if s.pins.inValid = true ∧ inCount s < bufferWords s then countInput s else s := by
  simp [inputSide, inPending, and_comm]

/-- An output transfer written out (43_buffer_cycle.md R218). -/
theorem takeOutput_eq (w : Word) (s : State) :
    takeOutput w s =
      { s with
        outCnt := s.outCnt + 1#31
        outFull := nextFull s.outCnt s.outFull
        outWords := s.outWords ++ [w]
        lphase :=
          if outCount s % 2 = 1 ∧ s.silent = false then advance (tableLen s.cfg s.waveSel) s.phaseStep s.lphase
          else s.lphase
        rphase :=
          if outCount s % 2 = 1 ∧ s.silent = false then advance (tableLen s.cfg s.waveSel) s.phaseStep s.rphase
          else s.rphase } := by
  unfold takeOutput
  by_cases h : outCount s % 2 = 1 ∧ s.silent = false
  · simp only [h, and_self, if_true, advanceCursors, countOutput]
  · simp only [h, if_false, countOutput]

/-- A `clk` edge is what happens at it, and then the register port shows the state (43_buffer_cycle.md R230). -/
theorem clkEdge_eq_next {s t : State} : clkEdge s = .next t ↔ ∃ u, clkStep s = .next u ∧ t = latchLevel u := by
  unfold clkEdge
  cases clkStep s <;> simp [eq_comm]

theorem clkEdge_next {s t : State} (h : clkStep s = .next t) : clkEdge s = .next { t with levelShown := t.v } :=
  clkEdge_eq_next.mpr ⟨t, h, rfl⟩

/-- Everything that can happen at one `clk` edge (60_exceptions.md R250). -/
theorem clkStep_cases {s t : State} (h : clkStep s = .next t) :
    (s.pins.rst = true ∧ t = applyReset s) ∨
    (s.pins.rst = false ∧ s.pins.drvFatal = true ∧ s.estate ≠ .fatal ∧ t = raiseFatal causeDriverFatal s) ∨
    (s.pins.rst = false ∧ (s.pins.drvFatal = false ∨ s.estate = .fatal) ∧ s.pins.cycStart = true ∧
      busy s.estate = true ∧ t = raiseFatal causeCycleOverlap s) ∨
    (s.pins.rst = false ∧ (s.pins.drvFatal = false ∨ s.estate = .fatal) ∧
      (s.pins.cycStart = false ∨ busy s.estate = false) ∧ engineStep s = .next t) := by
  unfold clkStep at h
  split at h
  · rename_i hr
    cases h
    exact .inl ⟨hr, rfl⟩
  · rename_i hr
    split at h
    · rename_i hd
      cases h
      simp only [Bool.and_eq_true, bne_iff_ne] at hd
      exact .inr (.inl ⟨by simpa using hr, hd.1, hd.2, rfl⟩)
    · rename_i hd
      simp only [Bool.and_eq_true, bne_iff_ne, not_and_or, not_not, Bool.not_eq_true] at hd
      split at h
      · rename_i hc
        cases h
        simp only [Bool.and_eq_true] at hc
        exact .inr (.inr (.inl ⟨by simpa using hr, hd, hc.1, hc.2, rfl⟩))
      · rename_i hc
        simp only [Bool.and_eq_true, not_and_or, Bool.not_eq_true] at hc
        exact .inr (.inr (.inr ⟨by simpa using hr, hd, hc, h⟩))

/-- Everything the engine's own step can do (43_buffer_cycle.md R225). -/
theorem engineStep_cases {s t : State} (h : engineStep s = .next t) :
    (s.estate = .idle ∧ s.pins.cycStart = false ∧ t = s) ∨
    (s.estate = .idle ∧ s.pins.cycStart = true ∧ t = cycleStart s) ∨
    (s.estate = .drain ∧ s.drainLeft = 0#11 ∧ t = drainEnd s) ∨
    (s.estate = .drain ∧ s.drainLeft ≠ 0#11 ∧ drainStep s = .next t) ∨
    (s.estate = .step ∧ t = stepState s) ∨
    (s.estate = .emit ∧ emitStep s = .next t) ∨
    (s.estate = .fatal ∧ t = s) := by
  unfold engineStep at h
  split at h <;> rename_i he
  · split at h <;> rename_i hc <;> cases h <;> simp_all
  · split at h <;> rename_i hd
    · cases h
      simp_all
    · simp_all
  · cases h
    simp_all
  · simp_all
  · cases h
    simp_all
  · cases h

/-- What the step of an agent is (00_scope.md R14). -/
theorem step_cases {s t : State} (h : step s = .next t) :
    configLegal s.cfg = true ∧
      perform (s.schedule.head?.getD .clk) { s with schedule := s.schedule.tail } = .next t := by
  unfold step nextStep at h
  split at h
  · rename_i hl
    refine ⟨hl, ?_⟩
    cases hs : s.schedule with
    | nil =>
      simp only [hs] at h
      have he : { s with schedule := [] } = s := by rw [← hs]
      simpa [he] using h
    | cons a rest => simpa [hs] using h
  · cases h

end Sys2Proof.Machine
end

