-- ==== Sys2Proof/Laws/Tables.lean ====
section
/-! SUPPORT. Table lengths, table reads, cursors and the step of a legal configuration. -/

namespace Sys2Proof.Machine

/-- The clauses of `configLegal` (00_scope.md R11). -/
theorem configLegal_iff {c : Config} :
    configLegal c = true ↔
      (1 ≤ c.np ∧ c.np ≤ 16) ∧
      ((1 ≤ c.lenSine ∧ c.lenSine ≤ 2 ^ 24) ∧ (1 ≤ c.lenSquare ∧ c.lenSquare ≤ 2 ^ 24) ∧
        (1 ≤ c.lenSawtooth ∧ c.lenSawtooth ≤ 2 ^ 24) ∧ (1 ≤ c.lenTriangle ∧ c.lenTriangle ≤ 2 ^ 24)) ∧
      posNormal c.sampleRate = true ∧ posNormal c.amplitude = true ∧ (1 ≤ c.fpb ∧ c.fpb ≤ 2 ^ 30) ∧
      (∀ image, c.sineRom = some image → sineImageOk c image = true) := by
  unfold configLegal lenOk
  cases h : c.sineRom with
  | none => simp; tauto
  | some image => simp; tauto

/-- A property of the four lengths holds of `TABLE_LEN[k]`. -/
theorem tableLen_induct {c : Config} {P : Nat → Prop} (h0 : P c.lenSine) (h1 : P c.lenSquare)
    (h2 : P c.lenSawtooth) (h3 : P c.lenTriangle) (k : BitVec 2) : P (tableLen c k) := by
  unfold tableLen
  split <;> assumption

theorem tableLen_pos {c : Config} (h : configLegal c = true) (k : BitVec 2) : 1 ≤ tableLen c k := by
  obtain ⟨-, hl, -⟩ := configLegal_iff.mp h
  exact tableLen_induct hl.1.1 hl.2.1.1 hl.2.2.1.1 hl.2.2.2.1 k

theorem tableLen_le {c : Config} (h : configLegal c = true) (k : BitVec 2) : tableLen c k ≤ 2 ^ 24 := by
  obtain ⟨-, hl, -⟩ := configLegal_iff.mp h
  exact tableLen_induct (P := fun n => n ≤ 2 ^ 24) hl.1.2 hl.2.1.2 hl.2.2.1.2 hl.2.2.2.2 k

/-- A supplied image has the bank's length (20_memory.md R62 (a)). -/
theorem sineImage_length {c : Config} (h : configLegal c = true) {image : List Word} (hi : c.sineRom = some image) :
    image.length = c.lenSine := by
  obtain ⟨-, -, -, -, -, himg⟩ := configLegal_iff.mp h
  have := himg image hi
  simp only [sineImageOk, Bool.and_eq_true, beq_iff_eq] at this
  exact this.1.1

/-- A bank has a word at exactly the indexes below its length (20_memory.md R68). -/
theorem waveRom_isSome {c : Config} (h : configLegal c = true) (k : BitVec 2) (i : Nat) :
    (waveRom c k i).isSome = true ↔ i < tableLen c k := by
  unfold waveRom
  split
  · rename_i hi
    refine iff_of_true ?_ hi
    split
    · rename_i hk
      unfold sineRomEntry
      split
      · rfl
      · rename_i image himg
        have hlen := sineImage_length h himg
        have : i < image.length := by simpa [tableLen, hk, hlen] using hi
        simp [this]
    · rfl
    · rfl
    · rfl
  · rename_i hi
    exact iff_of_false (by simp) hi

/-- The advance is addition modulo the length (42_synthesis.md R187). -/
theorem advance_toNat {len : Nat} {st ph : Phase} (hl : len ≤ 2 ^ 24) (hp : ph.toNat < len) (hs : st.toNat < len) :
    (advance len st ph).toNat = (ph.toNat + st.toNat) % len := by
  unfold advance
  simp only [BitVec.toNat_ofNat]
  split
  · rename_i h
    rw [Nat.mod_eq_of_lt (show ph.toNat + st.toNat - len < 2 ^ 24 by omega), Nat.mod_eq_sub_mod h,
      Nat.mod_eq_of_lt (show ph.toNat + st.toNat - len < len by omega)]
  · rename_i h
    rw [Nat.mod_eq_of_lt (show ph.toNat + st.toNat < 2 ^ 24 by omega),
      Nat.mod_eq_of_lt (show ph.toNat + st.toNat < len by omega)]

theorem advance_lt {len : Nat} {st ph : Phase} (hl : len ≤ 2 ^ 24) (hp : ph.toNat < len) (hs : st.toNat < len) :
    (advance len st ph).toNat < len := by
  rw [advance_toNat hl hp hs]
  exact Nat.mod_lt _ (by omega)

/-- A clamped cursor is the smaller of its value and the last index (41_commands.md R161). -/
theorem clampPhase_toNat (c : Config) (k : BitVec 2) (ph : Phase) :
    (clampPhase c k ph).toNat = min ph.toNat (tableLen c k - 1) := by
  have := ph.isLt
  simp only [clampPhase, BitVec.toNat_ofNat]
  exact Nat.mod_eq_of_lt (by omega)

theorem clampPhase_lt {c : Config} (h : configLegal c = true) (k : BitVec 2) (ph : Phase) :
    (clampPhase c k ph).toNat < tableLen c k := by
  have := tableLen_pos h k
  rw [clampPhase_toNat]
  omega

/-- The step of a frequency is below the table length (42_synthesis.md R184). -/
theorem stepOfFreq_lt (sr f : Word) {len : Nat} (h1 : 1 ≤ len) (h2 : len ≤ 2 ^ 24) :
    (stepOfFreq sr f len).toNat < len := by
  unfold stepOfFreq
  split
  · simpa using Nat.lt_of_lt_of_le Nat.zero_lt_one h1
  · split
    · simpa using Nat.lt_of_lt_of_le Nat.zero_lt_one h1
    · rename_i q2 _
      split
      · simpa using Nat.lt_of_lt_of_le Nat.zero_lt_one h1
      · have := Nat.mod_lt (floor32 q2) h1
        rw [BitVec.toNat_ofNat, Nat.mod_eq_of_lt (by omega)]
        exact this

end Sys2Proof.Machine
end

