-- ==== Sys2Proof/Laws/Float32.lean ====
section
/-! SUPPORT. The rounding of Machine/Float32.lean in real numbers: magnitudes in units of `2^-149`, the nearest one, the
overflow, and the fields of a pattern (00_scope.md R19). -/

namespace Sys2Proof.Machine

/-! ### Magnitudes -/

/-- A significand `k` at the exponent `sh`, the carry to the next exponent included. -/
theorem magUnits_add {k sh : Nat} (hk : k ≤ 2 ^ 24) (hs : sh = 0 ∨ 2 ^ 23 ≤ k) :
    magUnits (k + sh * 2 ^ 23) = k * 2 ^ sh := by
  unfold magUnits
  by_cases h1 : k < 2 ^ 23
  · have : sh = 0 := by omega
    subst this; rw [if_pos (by omega)]; omega
  · rw [if_neg (by omega)]
    by_cases h2 : k = 2 ^ 24
    · subst h2
      rw [show (2 ^ 24 + sh * 2 ^ 23) % 2 ^ 23 = 0 by omega, show (2 ^ 24 + sh * 2 ^ 23) / 2 ^ 23 - 1 = sh + 1 by omega]
      ring
    · rw [show (k + sh * 2 ^ 23) % 2 ^ 23 = k - 2 ^ 23 by omega, show (k + sh * 2 ^ 23) / 2 ^ 23 - 1 = sh by omega,
        show 2 ^ 23 + (k - 2 ^ 23) = k by omega]

/-- A magnitude is a multiple of `2^sh` or has a smaller exponent. -/
theorem magUnits_dichotomy (u sh : Nat) : (∃ j, magUnits u = j * 2 ^ sh) ∨ magUnits u < 2 ^ 23 * 2 ^ sh := by
  unfold magUnits
  split
  · rename_i h
    right; calc u < 2 ^ 23 := h
      _ ≤ 2 ^ 23 * 2 ^ sh := Nat.le_mul_of_pos_right _ (by positivity)
  · by_cases hs : sh ≤ u / 2 ^ 23 - 1
    · left
      obtain ⟨c, hc⟩ := Nat.exists_eq_add_of_le hs
      exact ⟨(2 ^ 23 + u % 2 ^ 23) * 2 ^ c, by rw [hc, pow_add]; ring⟩
    · right
      obtain ⟨c, hc⟩ := Nat.exists_eq_add_of_lt (show u / 2 ^ 23 - 1 < sh by omega)
      rw [hc]
      have : u % 2 ^ 23 < 2 ^ 23 := Nat.mod_lt _ (by positivity)
      calc (2 ^ 23 + u % 2 ^ 23) * 2 ^ (u / 2 ^ 23 - 1) < (2 ^ 24) * 2 ^ (u / 2 ^ 23 - 1) := by
            apply Nat.mul_lt_mul_of_pos_right _ (by positivity); omega
        _ ≤ 2 ^ 24 * 2 ^ (u / 2 ^ 23 - 1) * 2 ^ c := Nat.le_mul_of_pos_right _ (by positivity)
        _ = 2 ^ 23 * 2 ^ (u / 2 ^ 23 - 1 + c + 1) := by ring

/-- `roundHalfEven` is within half a unit, and even at a tie. -/
theorem roundHalfEven_spec (y d : Nat) (hd : 0 < d) :
    (2 * y ≤ 2 * d * roundHalfEven y d + d ∧ 2 * d * roundHalfEven y d ≤ 2 * y + d) ∧
    ((2 * y = 2 * d * roundHalfEven y d + d ∨ 2 * d * roundHalfEven y d = 2 * y + d) → roundHalfEven y d % 2 = 0) := by
  have h1 := Nat.div_add_mod y d
  have h2 := Nat.mod_lt y hd
  unfold roundHalfEven
  generalize hq : y / d = q at *
  generalize hr : y % d = r at *
  split
  · refine ⟨⟨?_, ?_⟩, ?_⟩ <;> first | nlinarith | (rintro (h | h) <;> nlinarith)
  · split
    · refine ⟨⟨?_, ?_⟩, ?_⟩ <;> first | nlinarith | (rintro (h | h) <;> nlinarith)
    · have : 2 * r = d := by omega
      rcases Nat.mod_two_eq_zero_or_one q with h | h <;> rw [h]
      · refine ⟨⟨?_, ?_⟩, fun _ => by omega⟩ <;> nlinarith
      · refine ⟨⟨?_, ?_⟩, fun _ => by omega⟩ <;> nlinarith

/-- `roundHalfEven` is the nearest integer of the quotient, ties to even. -/
theorem rhe_real (y d : Nat) (hd : 0 < d) (j : Int) :
    |(y:ℝ)/d - roundHalfEven y d| ≤ |(y:ℝ)/d - j| ∧
      (|(y:ℝ)/d - roundHalfEven y d| = |(y:ℝ)/d - j| → j ≠ roundHalfEven y d → roundHalfEven y d % 2 = 0) := by
  obtain ⟨⟨h1, h2⟩, h3⟩ := roundHalfEven_spec y d hd
  set k := roundHalfEven y d with hk
  have hd' : (0:ℝ) < d := by exact_mod_cast hd
  have e1 : (2:ℝ) * y ≤ 2 * d * k + d := by exact_mod_cast h1
  have e2 : (2:ℝ) * d * k ≤ 2 * y + d := by exact_mod_cast h2
  have hx : (y:ℝ) = (y:ℝ)/d * d := by field_simp
  set x := (y:ℝ)/d
  have f1 : 2 * (x - k) ≤ 1 := by rw [hx] at e1; nlinarith
  have f2 : -1 ≤ 2 * (x - k) := by rw [hx] at e2; nlinarith
  have hab : |x - k| ≤ 1/2 := by rw [abs_le]; constructor <;> linarith
  by_cases hj : j = k
  · subst hj; exact ⟨le_of_eq (by push_cast; rfl), fun _ hh => absurd rfl hh⟩
  · have hjk : (1:ℝ) ≤ |(k:ℝ) - j| := by
      have : (1:ℤ) ≤ |(k:ℤ) - j| := Int.one_le_abs (by omega)
      exact_mod_cast this
    have htri : |(k:ℝ) - j| ≤ |x - k| + |x - j| := by
      calc |(k:ℝ) - j| = |(x - j) - (x - k)| := by congr 1; ring
        _ ≤ |x - j| + |x - k| := abs_sub _ _
        _ = _ := by ring
    refine ⟨by linarith, fun heq _ => ?_⟩
    have : |x - k| = 1/2 := by linarith
    apply h3
    rcases abs_eq (by norm_num : (0:ℝ) ≤ 1/2) |>.mp this with h | h
    · left
      have : (2:ℝ) * y = 2 * d * k + d := by rw [hx]; nlinarith
      exact_mod_cast this
    · right
      have : (2:ℝ) * d * k = 2 * y + d := by rw [hx]; nlinarith
      exact_mod_cast this

/-- What `roundMag` computes: a significand of at most 24 bits and an exponent. -/
theorem roundMag_core (num den : Nat) (hd : 0 < den) :
    ∃ k sh : Nat, roundMag num den = min 0x7F800000 (k + sh * 2 ^ 23) ∧
      k = roundHalfEven (num * 2 ^ 149) (den * 2 ^ sh) ∧ k ≤ 2 ^ 24 ∧ (sh = 0 ∨ 2 ^ 23 ≤ k) ∧
      num * 2 ^ 149 < 2 ^ 24 * (den * 2 ^ sh) ∧ (sh = 0 ∨ 2 ^ 23 * (den * 2 ^ sh) ≤ num * 2 ^ 149) := by
  refine ⟨_, _, rfl, rfl, ?_⟩
  unfold excessBits
  generalize hy : num * 2 ^ 149 = y
  generalize hq : y / den = q
  have hqd := Nat.div_add_mod y den
  have hmod := Nat.mod_lt y hd
  rw [hq] at hqd
  set sh := Nat.log2 q - 23 with hsh
  have hD : 0 < den * 2 ^ sh := by positivity
  have hlt : y < 2 ^ 24 * (den * 2 ^ sh) := by
    have h1 : q < 2 ^ (Nat.log2 q + 1) := Nat.lt_log2_self
    have h2 : 2 ^ (Nat.log2 q + 1) ≤ 2 ^ (sh + 24) := Nat.pow_le_pow_right (by norm_num) (by omega)
    have h3 : q + 1 ≤ 2 ^ (sh + 24) := by omega
    have h4 : den * (q + 1) ≤ den * 2 ^ (sh + 24) := Nat.mul_le_mul_left _ h3
    have h5 : den * 2 ^ (sh + 24) = 2 ^ 24 * (den * 2 ^ sh) := by rw [pow_add]; ring
    have h6 : den * (q + 1) = den * q + den := by ring
    omega
  have hge : sh = 0 ∨ 2 ^ 23 * (den * 2 ^ sh) ≤ y := by
    rcases Nat.eq_zero_or_pos sh with h | h
    · exact .inl h
    · right
      have hq0 : q ≠ 0 := by rintro rfl; simp at hsh; omega
      have h1 : 2 ^ (Nat.log2 q) ≤ q := Nat.log2_self_le hq0
      have h2 : Nat.log2 q = sh + 23 := by omega
      rw [h2] at h1
      have h4 : den * 2 ^ (sh + 23) ≤ den * q := Nat.mul_le_mul_left _ h1
      have h5 : den * 2 ^ (sh + 23) = 2 ^ 23 * (den * 2 ^ sh) := by rw [pow_add]; ring
      omega
  obtain ⟨⟨h1, h2⟩, -⟩ := roundHalfEven_spec y (den * 2 ^ sh) hD
  generalize roundHalfEven y (den * 2 ^ sh) = k at *
  generalize den * 2 ^ sh = D at *
  refine ⟨?_, ?_, hlt, hge⟩
  · by_contra hk
    have : D * (2 ^ 24 + 1) ≤ D * k := Nat.mul_le_mul_left _ (by omega)
    nlinarith
  · rcases hge with h | h
    · exact .inl h
    · right
      by_contra hk
      have : D * (k + 1) ≤ D * 2 ^ 23 := Nat.mul_le_mul_left _ (by omega)
      nlinarith

/-- The rounded magnitude is the nearest one, with an even last place at a tie. -/
theorem roundMag_nearest (num den : Nat) (hd : 0 < den) (hf : roundMag num den < 0x7F800000) (u : Nat) :
    let Y : ℝ := (num : ℝ) * 2 ^ 149 / den
    |Y - magUnits (roundMag num den)| ≤ |Y - magUnits u| ∧
      (|Y - magUnits (roundMag num den)| = |Y - magUnits u| →
        magUnits u ≠ magUnits (roundMag num den) → roundMag num den % 2 = 0) := by
  intro Y
  obtain ⟨k, sh, hm, hk, hk24, hs, hlt, hge⟩ := roundMag_core num den hd
  have hm' : roundMag num den = k + sh * 2 ^ 23 := by omega
  rw [hm', magUnits_add hk24 hs]
  have hD : 0 < den * 2 ^ sh := by positivity
  have hP : (0:ℝ) < 2 ^ sh := by positivity
  have hYx : Y = ((num * 2 ^ 149 : ℕ) : ℝ) / ((den * 2 ^ sh : ℕ) : ℝ) * 2 ^ sh := by
    have : (den:ℝ) ≠ 0 := by exact_mod_cast hd.ne'
    simp only [Y]; push_cast; field_simp; norm_num
  have near := fun j => rhe_real (num * 2 ^ 149) (den * 2 ^ sh) hD j
  rw [← hk] at near
  set x := ((num * 2 ^ 149 : ℕ) : ℝ) / ((den * 2 ^ sh : ℕ) : ℝ)
  have e1 : |Y - ((k * 2 ^ sh : ℕ) : ℝ)| = |x - k| * 2 ^ sh := by
    rw [hYx]; push_cast; rw [← sub_mul, abs_mul, abs_of_pos hP]
  rw [e1]
  have hpar : (k + sh * 2 ^ 23) % 2 = k % 2 := by omega
  rw [hpar]
  by_cases hj : ∃ j, magUnits u = j * 2 ^ sh
  · obtain ⟨j, hj⟩ := hj
    rw [hj]
    have e2 : |Y - ((j * 2 ^ sh : ℕ) : ℝ)| = |x - j| * 2 ^ sh := by
      rw [hYx]; push_cast; rw [← sub_mul, abs_mul, abs_of_pos hP]
    rw [e2]
    obtain ⟨n1, n2⟩ := near j
    push_cast at n1 n2
    refine ⟨by nlinarith, fun heq hne => n2 (by exact mul_right_cancel₀ hP.ne' heq) ?_⟩
    rintro hjk
    have : j = k := by exact_mod_cast hjk
    exact hne (by rw [this])
  · have hlt2 : magUnits u < 2 ^ 23 * 2 ^ sh := by
      rcases magUnits_dichotomy u sh with h | h
      · exact absurd h hj
      · exact h
    have hs0 : sh ≠ 0 := by
      rintro rfl
      exact hj ⟨magUnits u, by simp⟩
    have hge := hge.resolve_left hs0
    have hx : (2:ℝ) ^ 23 ≤ x := by
      simp only [x]; rw [le_div_iff₀ (by exact_mod_cast hD)]; exact_mod_cast hge
    have e3 : |x - k| * 2 ^ sh < |Y - (magUnits u : ℝ)| := by
      have hu : (magUnits u : ℝ) < 2 ^ 23 * 2 ^ sh := by exact_mod_cast hlt2
      have h1 : |Y - (magUnits u : ℝ)| = Y - magUnits u := by
        apply abs_of_nonneg; rw [hYx]; nlinarith
      have n1 := (near (2 ^ 23)).1
      push_cast at n1
      rw [abs_of_nonneg (by linarith : (0:ℝ) ≤ x - 8388608)] at n1
      rw [h1, hYx]
      nlinarith
    exact ⟨e3.le, fun heq => absurd heq e3.ne⟩

/-- The tie between the largest finite magnitude and the overflow. -/
theorem tie_core {E y k : Nat} (h1 : 2 * y ≤ 2 * (2 * E) * k + 2 * E) (h2 : 2 * (2 * E) * k ≤ 2 * y + 2 * E)
    (h3 : (2 * y = 2 * (2 * E) * k + 2 * E ∨ 2 * (2 * E) * k = 2 * y + 2 * E) → k % 2 = 0) (hk : k ≤ 16777216)
    (hE : 0 < E) :
    16777216 ≤ k ↔ 33554431 * E ≤ y := by
  constructor
  · intro h
    have : k = 16777216 := by omega
    subst this
    omega
  · intro h
    by_contra hc
    have hkk : k = 16777215 := by
      by_contra hne
      have : E * (k + 2) ≤ E * 16777216 := Nat.mul_le_mul_left _ (by omega)
      nlinarith
    subst hkk
    have := h3 (.inl (by omega))
    omega

theorem big_core {den y c : Nat} (hge : 2 ^ 23 * (den * (2 ^ 252 * 4 * 2 ^ c)) ≤ y) :
    (2 ^ 25 - 1) * (2 ^ 252 * den) ≤ y := by
  have h7 : 1 ≤ 2 ^ c := Nat.one_le_two_pow
  generalize 2 ^ 252 = E at *
  generalize 2 ^ c = C at *
  have : den * (E * 4 * 1) ≤ den * (E * 4 * C) := by gcongr
  have e : den * (E * 4 * 1) = 4 * (E * den) := by ring
  rw [e] at this
  generalize den * (E * 4 * C) = A at *
  generalize E * den = B at *
  omega

/-- The rounding gives an infinity exactly from `2^128 - 2^103` on. -/
theorem roundMag_overflow (num den : Nat) (hd : 0 < den) :
    roundMag num den = 0x7F800000 ↔ (2:ℝ) ^ 128 - 2 ^ 103 ≤ (num:ℝ) / den := by
  obtain ⟨k, sh, hm, hk, hk24, hs, hlt, hge⟩ := roundMag_core num den hd
  have hd' : (0:ℝ) < den := by exact_mod_cast hd
  have key : (2:ℝ) ^ 128 - 2 ^ 103 ≤ (num:ℝ) / den ↔ (2 ^ 25 - 1) * (2 ^ 252 * den) ≤ num * 2 ^ 149 := by
    rw [le_div_iff₀ hd']
    constructor
    · intro h
      have : ((2 ^ 25 - 1 : ℕ) : ℝ) * (2 ^ 252 * den) ≤ num * 2 ^ 149 := by push_cast; nlinarith
      exact_mod_cast this
    · intro h
      have : ((2 ^ 25 - 1 : ℕ) : ℝ) * (2 ^ 252 * den) ≤ num * 2 ^ 149 := by exact_mod_cast h
      push_cast at this
      nlinarith
  rw [key]
  clear key
  have hD : 0 < den * 2 ^ sh := by positivity
  obtain ⟨⟨h1, h2⟩, h3⟩ := roundHalfEven_spec (num * 2 ^ 149) (den * 2 ^ sh) hD
  rw [← hk] at h1 h2 h3
  generalize hyy : num * 2 ^ 149 = y at h1 h2 h3 hlt hge ⊢
  have hmm : roundMag num den = 2139095040 ↔ 255 * 2 ^ 23 ≤ k + sh * 2 ^ 23 := by omega
  rw [hmm]
  clear hmm hyy hk hm
  rcases Nat.lt_trichotomy sh 253 with h | h | h
  · refine iff_of_false (by omega) ?_
    have h4 : 2 ^ sh ≤ 2 ^ 252 := Nat.pow_le_pow_right (by norm_num) (by omega)
    have h5 : 2 ^ 24 * (den * 2 ^ sh) ≤ 2 ^ 24 * (den * 2 ^ 252) := by
      apply Nat.mul_le_mul_left; apply Nat.mul_le_mul_left; exact h4
    have : 0 < den * 2 ^ 252 := by positivity
    rw [Nat.mul_comm (2 ^ 252) den]
    generalize den * 2 ^ 252 = B at *
    generalize den * 2 ^ sh = A at *
    omega
  · subst h
    rw [show 255 * 2 ^ 23 ≤ k + 253 * 2 ^ 23 ↔ 16777216 ≤ k by omega]
    have e : den * 2 ^ 253 = 2 * (2 ^ 252 * den) := by rw [pow_succ]; ring
    have hE : 0 < 2 ^ 252 * den := by positivity
    rw [e] at h1 h2 h3
    exact tie_core h1 h2 h3 (by omega) hE
  · refine iff_of_true ?_ ?_
    · have := hs.resolve_left (by omega); omega
    · have := hge.resolve_left (by omega)
      obtain ⟨c, hc⟩ := Nat.exists_eq_add_of_lt h
      have e : 2 ^ sh = 2 ^ 252 * 4 * 2 ^ c := by
        rw [hc, show 253 + c + 1 = 252 + 2 + c by ring, pow_add, pow_add]; norm_num
      rw [e] at this
      exact big_core this

/-! ### Fields -/

/-- The bits [30:0] of a pattern. -/
def magOf (b : Word) : Nat := b.toNat % 2 ^ 31

theorem expField_eq (b : Word) : expField b = magOf b / 2 ^ 23 := by
  have := b.isLt
  simp only [expField, magOf, BitVec.extractLsb'_toNat, Nat.shiftRight_eq_div_pow]; omega

theorem fracField_eq (b : Word) : fracField b = magOf b % 2 ^ 23 := by
  simp only [fracField, magOf, BitVec.extractLsb'_toNat, Nat.shiftRight_eq_div_pow]; omega

theorem signBit_eq (b : Word) : signBit b = decide (2 ^ 31 ≤ b.toNat) := by
  have := b.isLt
  rw [signBit, BitVec.getLsbD, Nat.testBit_eq_decide_div_mod_eq]
  congr 1; apply propext; omega

theorem isFinite32_iff (b : Word) : isFinite32 b = true ↔ magOf b < 0x7F800000 := by
  have : magOf b < 2 ^ 31 := Nat.mod_lt _ (by norm_num)
  rw [isFinite32, bne_iff_ne, expField_eq]; omega

theorem isInf32_iff (b : Word) : isInf32 b = true ↔ magOf b = 0x7F800000 := by
  have : magOf b < 2 ^ 31 := Nat.mod_lt _ (by norm_num)
  rw [isInf32, Bool.and_eq_true, beq_iff_eq, beq_iff_eq, expField_eq, fracField_eq]; omega

theorem isZero32_iff (b : Word) : isZero32 b = true ↔ magOf b = 0 := by
  rw [isZero32, beq_iff_eq, ← BitVec.toNat_inj]
  simp only [BitVec.extractLsb'_toNat, magOf, Nat.shiftRight_zero]; simp

/-- A magnitude by its exponent field and fraction. -/
theorem magUnits_of_exp (m : Nat) :
    magUnits m = (if m / 2 ^ 23 = 0 then m % 2 ^ 23 else 2 ^ 23 + m % 2 ^ 23) * 2 ^ (max (m / 2 ^ 23) 1 - 1) := by
  unfold magUnits
  split
  · rename_i h
    rw [if_pos (by omega), Nat.mod_eq_of_lt h, Nat.div_eq_of_lt h]; simp
  · rename_i h
    rw [if_neg (by omega)]; congr 2; omega

theorem scaledMag_eq (b : Word) : scaledMag b = 2 * magUnits (magOf b) := by
  rw [magUnits_of_exp, scaledMag, significand, expField_eq, fracField_eq]
  obtain ⟨c, hc⟩ : ∃ c, max (magOf b / 2 ^ 23) 1 = c + 1 := ⟨max (magOf b / 2 ^ 23) 1 - 1, by omega⟩
  rw [hc, pow_succ]; simp only [Nat.add_sub_cancel]; ring

/-- The value of a pattern from its sign and magnitude. -/
theorem val32_eq (b : Word) : (val32 b : ℝ) = (if signBit b then -1 else 1) * (magUnits (magOf b) / 2 ^ 149) := by
  rw [val32, scaledMag_eq]
  push_cast
  split <;> (norm_num; ring)

theorem abs_val32 (b : Word) : |(val32 b : ℝ)| = magUnits (magOf b) / 2 ^ 149 := by
  rw [val32_eq, abs_mul]
  have h0 : (0:ℝ) ≤ magUnits (magOf b) / 2 ^ 149 := by positivity
  rw [abs_of_nonneg h0]; split <;> simp

theorem withSign_toNat (neg : Bool) {m : Nat} (h : m < 2 ^ 31) :
    (withSign neg m).toNat = (if neg then 2 ^ 31 else 0) + m := by
  rw [withSign, BitVec.toNat_ofNat]; split <;> omega

theorem magOf_withSign (neg : Bool) {m : Nat} (h : m < 2 ^ 31) : magOf (withSign neg m) = m := by
  rw [magOf, withSign_toNat neg h]; split <;> omega

theorem signBit_withSign (neg : Bool) {m : Nat} (h : m < 2 ^ 31) : signBit (withSign neg m) = neg := by
  rw [signBit_eq, withSign_toNat neg h]; cases neg <;> simp <;> omega

theorem getLsbD_zero (b : Word) : b.getLsbD 0 = false ↔ magOf b % 2 = 0 := by
  rw [BitVec.getLsbD, Nat.testBit_eq_decide_div_mod_eq, magOf]; simp

theorem roundMag_le (num den : Nat) : roundMag num den ≤ 0x7F800000 := by unfold roundMag; exact Nat.min_le_left _ _

/-- A magnitude and the next are one unit in the last place apart. -/
theorem magUnits_gap (m : Nat) : magUnits (m + 1) = magUnits m + 2 ^ (max (m / 2 ^ 23) 1 - 1) := by
  unfold magUnits
  by_cases h : m < 2 ^ 23
  · rw [if_pos h, show max (m / 2 ^ 23) 1 - 1 = 0 by omega, pow_zero]
    by_cases h2 : m + 1 < 2 ^ 23
    · rw [if_pos h2]
    · rw [if_neg h2, show m + 1 = 2 ^ 23 by omega]
      norm_num
  · rw [if_neg h, if_neg (by omega), show max (m / 2 ^ 23) 1 - 1 = m / 2 ^ 23 - 1 by omega]
    by_cases h3 : (m + 1) % 2 ^ 23 = 0
    · have e1 : m % 2 ^ 23 = 2 ^ 23 - 1 := by omega
      have e2 : (m + 1) / 2 ^ 23 - 1 = m / 2 ^ 23 - 1 + 1 := by omega
      rw [h3, e1, e2, pow_succ (n := m / 2 ^ 23 - 1)]
      generalize 2 ^ (m / 2 ^ 23 - 1) = P at *
      omega
    · have e1 : (m + 1) % 2 ^ 23 = m % 2 ^ 23 + 1 := by omega
      have e2 : (m + 1) / 2 ^ 23 = m / 2 ^ 23 := by omega
      rw [e1, e2]
      ring

theorem magUnits_succ (m : Nat) : magUnits m < magUnits (m + 1) := by
  rw [magUnits_gap]
  exact Nat.lt_add_of_pos_right (by positivity)

/-- Patterns of one sign are ordered as their values. -/
theorem magUnits_mono : StrictMono magUnits := strictMono_nat_of_lt_succ magUnits_succ

/-- A pattern is its sign and magnitude. -/
theorem word_ext {a b : Word} (hm : magOf a = magOf b) (hs : signBit a = signBit b) : a = b := by
  apply BitVec.eq_of_toNat_eq
  rw [signBit_eq, signBit_eq] at hs
  have := a.isLt; have := b.isLt
  have hs : (2 ^ 31 ≤ a.toNat) ↔ (2 ^ 31 ≤ b.toNat) := by simpa using hs
  unfold magOf at hm
  omega


end Sys2Proof.Machine
end

