-- ==== Sys2Proof/Laws/Invariant.lean ====
section
/-! SUPPORT. The counts modulo a word, the event counts, and what each operation does to the invariant. -/

namespace Sys2Proof.Machine

open Sys2Proof.Safety

/-! ### Numbers of bit vectors -/

theorem ne_zero_toNat {n : Nat} {v : BitVec n} (h : v ≠ 0#n) : 1 ≤ v.toNat := by
  have h0 : v.toNat ≠ 0 := fun hh => h (BitVec.eq_of_toNat_eq (by simpa using hh))
  omega

theorem sub_one_toNat {n : Nat} (v : BitVec n) (h : v ≠ 0#n) : (v - 1#n).toNat = v.toNat - 1 := by
  have h0 := ne_zero_toNat h
  have hlt := v.isLt
  rw [BitVec.toNat_sub]
  rcases n with _ | n
  · simp at hlt; omega
  · have : (1#(n + 1)).toNat = 1 := by simp
    rw [this, show 2 ^ (n + 1) - 1 + v.toNat = 2 ^ (n + 1) + (v.toNat - 1) by omega, Nat.add_mod_left,
      Nat.mod_eq_of_lt (by omega)]

theorem add_one_toNat {n : Nat} (v : BitVec n) (h : v.toNat + 1 < 2 ^ n) : (v + 1#n).toNat = v.toNat + 1 := by
  rw [BitVec.toNat_add]
  have : (1#n).toNat = 1 := by rw [BitVec.toNat_ofNat]; exact Nat.mod_eq_of_lt (by omega)
  rw [this, Nat.mod_eq_of_lt h]

/-! ### Event counts -/

theorem countEvents_append (c : BitVec 4) (a b : List Event) :
    countEvents c (a ++ b) = countEvents c a + countEvents c b := by simp [countEvents]

theorem countEvents_singleton (c : BitVec 4) (e : Event) : countEvents c [e] = if e.code = c then 1 else 0 := by
  unfold countEvents
  by_cases h : e.code = c <;> simp [h]

/-! ### What the invariant gives -/

theorem v_ne_zero {s : State} (h : Inv s) (hd : s.drainLeft ≠ 0#11) : s.v ≠ 0#11 := by
  intro hv
  have h1 := h.drain_le
  have h2 := ne_zero_toNat hd
  rw [hv] at h1
  simp at h1
  omega

theorem q_ne_nil {s : State} (h : Inv s) (hd : s.drainLeft ≠ 0#11) : s.q ≠ [] := by
  intro hq
  have h1 := h.v_le
  have h2 := ne_zero_toNat (v_ne_zero h hd)
  rw [hq] at h1
  simp at h1
  omega

theorem fatal_false {s : State} (h : Inv s) (he : s.estate ≠ .fatal) : s.fatal = false := by
  have := h.fatal_iff
  cases hf : s.fatal <;> simp_all

theorem bufferWords_le {s : State} (h : Inv s) : bufferWords s ≤ 2 ^ 31 := by
  obtain ⟨-, -, -, -, hfpb, -⟩ := configLegal_iff.mp h.legal
  unfold bufferWords
  omega

/-- The word an EMIT edge presents is always in range (42_synthesis.md R190). -/
theorem sampleWord_isSome {s : State} (h : Inv s) (j : Nat) : (sampleWord s j).isSome = true := by
  unfold sampleWord
  split
  · rfl
  · rw [waveRom_isSome h.legal]
    have h1 := h.lphase_lt
    have h2 := h.cursors_eq
    split
    · exact h1
    · rwa [← h2]

/-! ### What each operation does to it -/

/-- The invariant does not speak of what the register port shows. -/
theorem inv_latchLevel {s : State} (h : Inv s) : Inv (latchLevel s) := { h with legal := h.legal }

/-- The invariant does not speak of the schedule. -/
theorem inv_schedule {s : State} (h : Inv s) (l : List Action) : Inv { s with schedule := l } :=
  { h with legal := h.legal }

/-- Entering FATAL keeps the invariant (60_exceptions.md R245). -/
theorem inv_raiseFatal {s : State} (h : Inv s) (c : BitVec 2) (hc : c ≠ 0#2) : Inv (raiseFatal c s) := by
  by_cases hf : s.estate = .fatal
  · rwa [raiseFatal_of_fatal c s hf]
  · have hff := fatal_false h hf
    rw [raiseFatal_of_running c s hf]
    exact
      { h with
        step_lt := by simp
        emit_silent := by simp
        drain_over := by simp
        fatal_iff := by simp
        cause_iff := by simpa using hc
        estate_defined := by simp
        counts_clear := by simp
        event_codes := by
          intro e he
          simp only [List.mem_append, List.mem_singleton] at he
          rcases he with he | rfl
          · exact h.event_codes e he
          · simp [codeFatal]
        disc_once := by rw [countEvents_append, h.disc_once]; rfl
        fatal_once := by rw [countEvents_append, h.fatal_once, hff]; rfl
        cnt_unknown := h.cnt_unknown.trans (by rw [countEvents_append]; rfl)
        cnt_unsupported := h.cnt_unsupported.trans (by rw [countEvents_append]; rfl)
        cnt_bad_wave := h.cnt_bad_wave.trans (by rw [countEvents_append]; rfl)
        cnt_in_ovf := h.cnt_in_ovf.trans (by rw [countEvents_append]; rfl)
        cnt_out_unf := h.cnt_out_unf.trans (by rw [countEvents_append]; rfl) }

theorem inv_setFreq {s : State} (h : Inv s) (he : s.estate = .drain) (f : Word) : Inv (setFreq f s) :=
  { h with emit_silent := by simp [he] }

theorem inv_selectWave {s : State} (h : Inv s) (he : s.estate = .drain) (k : BitVec 2) : Inv (selectWave k s) :=
  { h with
    lphase_lt := clampPhase_lt h.legal k _
    cursors_eq := by simp [h.cursors_eq]
    step_lt := by simp [he]
    emit_silent := by simp [he] }

theorem inv_unknown {s : State} (h : Inv s) (x : Word) : Inv (countUnknownParam (raiseDiag codeUnknownParam x s)) :=
  { h with
    event_codes := by
      intro e he
      simp only [countUnknownParam_events, raiseDiag_events, List.mem_append, List.mem_singleton] at he
      rcases he with he | rfl
      · exact h.event_codes e he
      · simp [codeUnknownParam]
    disc_once := by simp only [countUnknownParam_events, raiseDiag_events]; rw [countEvents_append, h.disc_once]; rfl
    fatal_once := by simp only [countUnknownParam_events, raiseDiag_events]; rw [countEvents_append, h.fatal_once]; rfl
    cnt_unknown := by
      simp only [countUnknownParam_events, raiseDiag_events, countUnknownParam_cntUnknownParam,
        raiseDiag_cntUnknownParam]
      rw [countEvents_append, h.cnt_unknown, countEvents_singleton, if_pos rfl, BitVec.ofNat_add]
    cnt_unsupported := h.cnt_unsupported.trans
      (by simp only [countUnknownParam_events, raiseDiag_events]; rw [countEvents_append]; rfl)
    cnt_bad_wave := h.cnt_bad_wave.trans
      (by simp only [countUnknownParam_events, raiseDiag_events]; rw [countEvents_append]; rfl)
    cnt_in_ovf := h.cnt_in_ovf.trans
      (by simp only [countUnknownParam_events, raiseDiag_events]; rw [countEvents_append]; rfl)
    cnt_out_unf := h.cnt_out_unf.trans
      (by simp only [countUnknownParam_events, raiseDiag_events]; rw [countEvents_append]; rfl) }

theorem inv_badWave {s : State} (h : Inv s) (x : Word) : Inv (countBadWave (raiseDiag codeBadWave x s)) :=
  { h with
    event_codes := by
      intro e he
      simp only [countBadWave_events, raiseDiag_events, List.mem_append, List.mem_singleton] at he
      rcases he with he | rfl
      · exact h.event_codes e he
      · simp [codeBadWave]
    disc_once := by simp only [countBadWave_events, raiseDiag_events]; rw [countEvents_append, h.disc_once]; rfl
    fatal_once := by simp only [countBadWave_events, raiseDiag_events]; rw [countEvents_append, h.fatal_once]; rfl
    cnt_unknown := h.cnt_unknown.trans
      (by simp only [countBadWave_events, raiseDiag_events]; rw [countEvents_append]; rfl)
    cnt_unsupported := h.cnt_unsupported.trans
      (by simp only [countBadWave_events, raiseDiag_events]; rw [countEvents_append]; rfl)
    cnt_bad_wave := by
      simp only [countBadWave_events, raiseDiag_events, countBadWave_cntBadWave, raiseDiag_cntBadWave]
      rw [countEvents_append, h.cnt_bad_wave, countEvents_singleton, if_pos rfl, BitVec.ofNat_add]
    cnt_in_ovf := h.cnt_in_ovf.trans
      (by simp only [countBadWave_events, raiseDiag_events]; rw [countEvents_append]; rfl)
    cnt_out_unf := h.cnt_out_unf.trans
      (by simp only [countBadWave_events, raiseDiag_events]; rw [countEvents_append]; rfl) }

theorem inv_unsupported {s : State} (h : Inv s) (x : Word) :
    Inv (countUnsupported (raiseDiag codeUnsupportedCmd x s)) :=
  { h with
    event_codes := by
      intro e he
      simp only [countUnsupported_events, raiseDiag_events, List.mem_append, List.mem_singleton] at he
      rcases he with he | rfl
      · exact h.event_codes e he
      · simp [codeUnsupportedCmd]
    disc_once := by simp only [countUnsupported_events, raiseDiag_events]; rw [countEvents_append, h.disc_once]; rfl
    fatal_once := by simp only [countUnsupported_events, raiseDiag_events]; rw [countEvents_append, h.fatal_once]; rfl
    cnt_unknown := h.cnt_unknown.trans
      (by simp only [countUnsupported_events, raiseDiag_events]; rw [countEvents_append]; rfl)
    cnt_unsupported := by
      simp only [countUnsupported_events, raiseDiag_events, countUnsupported_cntUnsupported,
        raiseDiag_cntUnsupported]
      rw [countEvents_append, h.cnt_unsupported, countEvents_singleton, if_pos rfl, BitVec.ofNat_add]
    cnt_bad_wave := h.cnt_bad_wave.trans
      (by simp only [countUnsupported_events, raiseDiag_events]; rw [countEvents_append]; rfl)
    cnt_in_ovf := h.cnt_in_ovf.trans
      (by simp only [countUnsupported_events, raiseDiag_events]; rw [countEvents_append]; rfl)
    cnt_out_unf := h.cnt_out_unf.trans
      (by simp only [countUnsupported_events, raiseDiag_events]; rw [countEvents_append]; rfl) }

/-- A command during the drain keeps the invariant and leaves the sequencer and the FIFO alone. -/
theorem inv_exec {i : Instr} {s t : State} (h : Inv s) (he : s.estate = .drain) (hx : exec i s = .next t) :
    Inv t ∧ t.estate = .drain ∧ t.drainLeft = s.drainLeft ∧ t.v = s.v ∧ t.q = s.q := by
  rcases exec_cases hx with ⟨f, rfl⟩ | ⟨k, rfl⟩ | ⟨x, rfl⟩ | ⟨x, rfl⟩ | ⟨x, rfl⟩
  · exact ⟨inv_setFreq h he f, he, rfl, rfl, rfl⟩
  · exact ⟨inv_selectWave h he k, he, rfl, rfl, rfl⟩
  · exact ⟨inv_unknown h x, he, rfl, rfl, rfl⟩
  · exact ⟨inv_badWave h x, he, rfl, rfl, rfl⟩
  · exact ⟨inv_unsupported h x, he, rfl, rfl, rfl⟩

/-- A command neither reads nor writes `DRAIN_LEFT`. -/
theorem exec_drainLeft_comm (i : Instr) (s t : State) (d : BitVec 11) (hx : exec i s = .next t) :
    exec i { s with drainLeft := d } = .next { t with drainLeft := d } := by
  cases i <;> cases hx <;> rfl

/-- Taking the oldest word and counting it keeps the invariant. -/
theorem inv_pop {s : State} (h : Inv s) (he : s.estate = .drain) (hd : s.drainLeft ≠ 0#11) {w : CmdWord}
    {rest : List CmdWord} (hq : s.q = w :: rest) :
    Inv { s with q := rest, v := s.v - 1#11, drainLeft := s.drainLeft - 1#11 } := by
  have hv := v_ne_zero h hd
  have h1 := h.v_le
  have h2 := h.q_le
  have h3 := h.drain_le
  rw [hq] at h1 h2
  simp at h1 h2
  exact
    { h with
      v_le := by simp only [sub_one_toNat _ hv]; omega
      q_le := by simp only; omega
      drain_le := by simp only [sub_one_toNat _ hv, sub_one_toNat _ hd]; omega
      drain_over := by simp [he] }

theorem inv_drainStep {s t : State} (h : Inv s) (he : s.estate = .drain) (hd : s.drainLeft ≠ 0#11)
    (hx : drainStep s = .next t) : Inv t ∧ t.estate = .drain ∧ t.drainLeft = s.drainLeft - 1#11 := by
  obtain ⟨w, rest, s2, hq, hv, ha, rfl⟩ := drainStep_eq_next hx
  have hc := exec_drainLeft_comm _ _ _ (s.drainLeft - 1#11) ha
  have hs2 : s2.drainLeft = s.drainLeft := by
    rcases exec_cases ha with ⟨f, rfl⟩ | ⟨k, rfl⟩ | ⟨x, rfl⟩ | ⟨x, rfl⟩ | ⟨x, rfl⟩ <;> rfl
  rw [hs2]
  have hi := inv_exec (inv_pop h he hd hq) he hc
  exact ⟨hi.1, hi.2.1, hi.2.2.1⟩

theorem inv_cycleStart {s : State} (h : Inv s) (he : s.estate = .idle) : Inv (cycleStart s) := by
  rw [cycleStart_eq]
  split
  · exact inv_raiseFatal h _ (by decide)
  · have hf := fatal_false h (by simp [he])
    exact
      { h with
        step_lt := by simp
        emit_silent := by simp
        drain_le := by simp
        drain_over := by simp
        fatal_iff := by simp [hf]
        estate_defined := by simp
        out_le := Nat.zero_le _
        in_le := Nat.zero_le _
        counts_clear := fun _ => ⟨rfl, rfl⟩
        out_words := rfl
        event_codes := by
          intro e hm
          simp only [List.mem_append] at hm
          rcases hm with (hm | hm) | hm
          · exact h.event_codes e hm
          · split at hm <;> simp at hm
            subst hm; simp [codeInOverflow]
          · split at hm <;> simp at hm
            subst hm; simp [codeOutUnderflow]
        disc_once := by
          simp only; rw [countEvents_append, countEvents_append, h.disc_once]; split <;> split <;> rfl
        fatal_once := by
          simp only; rw [countEvents_append, countEvents_append, h.fatal_once]; split <;> split <;> rfl
        cnt_unknown := by
          simp only; rw [countEvents_append, countEvents_append, h.cnt_unknown]; split <;> split <;> rfl
        cnt_unsupported := by
          simp only; rw [countEvents_append, countEvents_append, h.cnt_unsupported]; split <;> split <;> rfl
        cnt_bad_wave := by
          simp only; rw [countEvents_append, countEvents_append, h.cnt_bad_wave]; split <;> split <;> rfl
        cnt_in_ovf := by
          simp only; rw [countEvents_append, countEvents_append, h.cnt_in_ovf]
          split <;> split <;>
            simp [codeInOverflow, codeOutUnderflow, BitVec.ofNat_add, countEvents]
        cnt_out_unf := by
          simp only; rw [countEvents_append, countEvents_append, h.cnt_out_unf]
          split <;> split <;>
            simp [codeInOverflow, codeOutUnderflow, BitVec.ofNat_add, countEvents] }

theorem inv_drainEnd {s : State} (h : Inv s) (he : s.estate = .drain) (hd : s.drainLeft = 0#11) :
    Inv (drainEnd s) := by
  have hf := fatal_false h (by simp [he])
  have hc := h.counts_clear (.inl he)
  have h0 : Inv { s with estate := .step } :=
    { h with
      step_lt := by simp
      emit_silent := by simp
      drain_over := fun _ => hd
      fatal_iff := by simp [hf]
      estate_defined := by simp
      counts_clear := fun _ => hc }
  rcases drainEnd_cases s with hs | ⟨-, hl, hs⟩ <;> rw [hs]
  · exact h0
  · exact
      { h0 with
        event_codes := by
          intro e hm
          simp only [List.mem_append, List.mem_singleton] at hm
          rcases hm with hm | rfl
          · exact h.event_codes e hm
          · simp [codeDisconnected]
        disc_once := by simp only; rw [countEvents_append, h.disc_once, hl]; rfl
        fatal_once := by simp only; rw [countEvents_append, h.fatal_once]; rfl
        cnt_unknown := by simp only; rw [countEvents_append, h.cnt_unknown]; rfl
        cnt_unsupported := by simp only; rw [countEvents_append, h.cnt_unsupported]; rfl
        cnt_bad_wave := by simp only; rw [countEvents_append, h.cnt_bad_wave]; rfl
        cnt_in_ovf := by simp only; rw [countEvents_append, h.cnt_in_ovf]; rfl
        cnt_out_unf := by simp only; rw [countEvents_append, h.cnt_out_unf]; rfl }

theorem inv_stepState {s : State} (h : Inv s) (he : s.estate = .step) : Inv (stepState s) := by
  have hf := fatal_false h (by simp [he])
  have hd := h.drain_over (.inr (.inl he))
  have hp := tableLen_pos h.legal s.waveSel
  rw [stepState_eq]
  exact
    { h with
      step_lt := by
        intro
        simp only
        split
        · simp; omega
        · exact stepOfFreq_lt _ _ hp (tableLen_le h.legal _)
      emit_silent := by
        simp
        intro hz
        simp [hz]
      drain_over := fun _ => hd
      fatal_iff := by simp [hf]
      estate_defined := by simp
      counts_clear := by simp }

/-- A count below the buffer's length goes up by one and stays within it (10_state.md R38). -/
theorem countOf_next_of_lt {s : State} (h : Inv s) {n : BitVec 31} {full : Bool} (hn : countOf n full < bufferWords s) :
    countOf (n + 1#31) (nextFull n full) = countOf n full + 1 := by
  have hb := bufferWords_le h
  exact countOf_next (by omega)

theorem inv_inputSide {s : State} (h : Inv s) (he : s.estate = .emit) : Inv (inputSide s) := by
  rcases inputSide_cases s with hs | ⟨hi, -, hs⟩ <;> rw [hs]
  · exact h
  · exact
      { h with
        in_le := (countOf_next_of_lt h hi).trans_le hi
        counts_clear := by simp [he] }

theorem inv_takeOutput {s : State} (h : Inv s) (he : s.estate = .emit) (hp : outPending s = true) (w : Word) :
    Inv (takeOutput w s) := by
  simp only [outPending, decide_eq_true_eq] at hp
  rw [takeOutput_eq]
  exact
    { h with
      lphase_lt := by
        simp only
        split
        · exact advance_lt (tableLen_le h.legal s.waveSel) h.lphase_lt (h.step_lt he)
        · exact h.lphase_lt
      cursors_eq := by simp only [h.cursors_eq]
      out_le := (countOf_next_of_lt h hp).trans_le hp
      counts_clear := by simp [he]
      out_words := by
        show (s.outWords ++ [w]).length = countOf (s.outCnt + 1#31) (nextFull s.outCnt s.outFull)
        rw [countOf_next_of_lt h hp, List.length_append, h.out_words]
        rfl }

theorem inv_completeCycle {s : State} (h : Inv s) (he : s.estate = .emit) : Inv (completeCycle s) := by
  have hf := fatal_false h (by simp [he])
  have hd := h.drain_over (.inr (.inr he))
  exact
    { h with
      step_lt := by simp [completeCycle]
      emit_silent := by simp [completeCycle]
      drain_over := fun _ => hd
      fatal_iff := by simp [completeCycle, hf]
      estate_defined := by simp [completeCycle]
      counts_clear := by simp [completeCycle] }

end Sys2Proof.Machine
end

