-- ==== Sys2Proof/Laws/Frames.lean ====
section
/-! SUPPORT. What the steps leave alone: the commands, entering FATAL, the engine's edge, and the steps of the other
agents; and a step split into the two. -/

namespace Sys2Proof.Machine

open Sys2Proof.Safety

/-- A command writes no parameter and neither the FIFO nor the sequencer, and raises at most one event. -/
theorem exec_frame {i : Instr} {s t : State} (h : exec i s = .next t) :
    t.cfg = s.cfg ∧ (∃ new, t.events = s.events ++ new ∧ new.length ≤ 1) ∧ t.q = s.q ∧ t.v = s.v ∧
      t.drainLeft = s.drainLeft := by
  rcases exec_cases h with ⟨f, rfl⟩ | ⟨k, rfl⟩ | ⟨x, rfl⟩ | ⟨x, rfl⟩ | ⟨x, rfl⟩
  · exact ⟨rfl, ⟨[], by simp, by simp⟩, rfl, rfl, rfl⟩
  · exact ⟨rfl, ⟨[], by simp, by simp⟩, rfl, rfl, rfl⟩
  · exact ⟨rfl, ⟨[_], rfl, by simp⟩, rfl, rfl, rfl⟩
  · exact ⟨rfl, ⟨[_], rfl, by simp⟩, rfl, rfl, rfl⟩
  · exact ⟨rfl, ⟨[_], rfl, by simp⟩, rfl, rfl, rfl⟩

/-- Entering FATAL writes neither a parameter nor the FIFO. -/
theorem raiseFatal_frame (c : BitVec 2) (s : State) :
    (raiseFatal c s).cfg = s.cfg ∧ (∃ new, (raiseFatal c s).events = s.events ++ new ∧ new.length ≤ 1) ∧
      (raiseFatal c s).q = s.q ∧ (raiseFatal c s).v = s.v := by
  by_cases h : s.estate = .fatal
  · rw [raiseFatal_of_fatal _ _ h]
    exact ⟨rfl, ⟨[], by simp, by simp⟩, rfl, rfl⟩
  · rw [raiseFatal_of_running _ _ h]
    exact ⟨rfl, ⟨[_], rfl, by simp⟩, rfl, rfl⟩

/-- The engine's own step writes no parameter, appends at most two events, and leaves the FIFO alone unless it is a
drain step. -/
theorem engineStep_frame {s t : State} (h : engineStep s = .next t) :
    t.cfg = s.cfg ∧ (∃ new, t.events = s.events ++ new ∧ new.length ≤ 2) ∧
      ((t.q = s.q ∧ t.v = s.v) ∨ (s.estate = .drain ∧ s.drainLeft ≠ 0#11 ∧ drainStep s = .next t)) := by
  rcases engineStep_cases h with ⟨-, -, rfl⟩ | ⟨-, -, rfl⟩ | ⟨-, -, rfl⟩ | ⟨he, hd, hx⟩ | ⟨-, rfl⟩ | ⟨-, hx⟩ | ⟨-, rfl⟩
  · exact ⟨rfl, ⟨[], by simp, by simp⟩, .inl ⟨rfl, rfl⟩⟩
  · rw [cycleStart_eq]
    split
    · obtain ⟨h1, ⟨n, h2, h3⟩, h4⟩ := raiseFatal_frame causeLenMismatch s
      exact ⟨h1, ⟨n, h2, by omega⟩, .inl h4⟩
    · exact ⟨rfl, ⟨_, List.append_assoc _ _ _, by split <;> split <;> simp⟩, .inl ⟨rfl, rfl⟩⟩
  · rcases drainEnd_cases s with hs | ⟨-, -, hs⟩ <;> rw [hs]
    · exact ⟨rfl, ⟨[], by simp, by simp⟩, .inl ⟨rfl, rfl⟩⟩
    · exact ⟨rfl, ⟨[_], rfl, by simp⟩, .inl ⟨rfl, rfl⟩⟩
  · obtain ⟨w, rest, s2, hq, hv, ha, rfl⟩ := drainStep_eq_next hx
    obtain ⟨h1, ⟨n, h2, h3⟩, -⟩ := exec_frame ha
    exact ⟨h1, ⟨n, h2, by omega⟩, .inr ⟨he, hd, hx⟩⟩
  · rw [stepState_eq]
    exact ⟨rfl, ⟨[], by simp, by simp⟩, .inl ⟨rfl, rfl⟩⟩
  · rcases emitStep_cases hx with ⟨-, -, rfl⟩ | ⟨-, ⟨rfl, -⟩ | ⟨w, -, -, -, rfl⟩⟩
    · exact ⟨rfl, ⟨[], by simp [completeCycle], by simp⟩, .inl ⟨rfl, rfl⟩⟩
    · rcases inputSide_cases s with hs | ⟨-, -, hs⟩ <;> rw [hs] <;>
        exact ⟨rfl, ⟨[], by simp, by simp⟩, .inl ⟨rfl, rfl⟩⟩
    · rcases inputSide_cases (takeOutput w s) with hs | ⟨-, -, hs⟩ <;> rw [hs, takeOutput_eq] <;>
        exact ⟨rfl, ⟨[], by simp, by simp⟩, .inl ⟨rfl, rfl⟩⟩
  · exact ⟨rfl, ⟨[], by simp, by simp⟩, .inl ⟨rfl, rfl⟩⟩

/-- The same of a whole `clk` edge without reset. -/
theorem clkEdge_frame {s t : State} (h : clkEdge s = .next t) :
    t.cfg = s.cfg ∧
      (s.pins.rst = false →
        (∃ new, t.events = s.events ++ new ∧ new.length ≤ 2) ∧
          ((t.q = s.q ∧ t.v = s.v) ∨
            (s.estate = .drain ∧ s.drainLeft ≠ 0#11 ∧ ∃ u, drainStep s = .next u ∧ t = latchLevel u))) := by
  obtain ⟨u, hu, rfl⟩ := clkEdge_eq_next.mp h
  rcases clkStep_cases hu with ⟨hr, rfl⟩ | ⟨-, -, -, rfl⟩ | ⟨-, -, -, -, rfl⟩ | ⟨-, -, -, hx⟩
  · exact ⟨rfl, fun h => by simp [hr] at h⟩
  · obtain ⟨h1, ⟨n, h2, h3⟩, h4⟩ := raiseFatal_frame causeDriverFatal s
    exact ⟨h1, fun _ => ⟨⟨n, h2, by omega⟩, .inl h4⟩⟩
  · obtain ⟨h1, ⟨n, h2, h3⟩, h4⟩ := raiseFatal_frame causeCycleOverlap s
    exact ⟨h1, fun _ => ⟨⟨n, h2, by omega⟩, .inl h4⟩⟩
  · obtain ⟨h1, h2, h3⟩ := engineStep_frame hx
    exact ⟨h1, fun _ => ⟨h2, h3.imp id fun ⟨he, hd, hu⟩ => ⟨he, hd, u, hu, rfl⟩⟩⟩

/-- The steps of the producers, the crossing and the host side change only the FIFO, the attach samples, the arbiter's
state, the inputs and the edge counts; at most one word is appended, none in FATAL. -/
theorem perform_frame {a : Action} {s t : State} (ha : a ≠ .clk) (h : perform a s = .next t) :
    t =
        { s with
          q := t.q, v := t.v, arbst := t.arbst, att := t.att, pins := t.pins
          rstClkEdges := t.rstClkEdges, rstWclkEdges := t.rstWclkEdges } ∧
      (∃ new : List CmdWord, new.length ≤ 1 ∧ t.q = s.q ++ new) ∧ (s.estate = .fatal → t.q = s.q) := by
  cases a with
  | clk => exact absurd rfl ha
  | drive p =>
    rcases drivePins_cases p s with ⟨hh, -⟩ | hh <;> rw [perform, hh] at h <;> cases h
    exact ⟨rfl, ⟨[], by simp, by simp⟩, by simp⟩
  | wclk g arb =>
    cases h
    rcases wclkEdge_cases g arb s with ⟨-, hs⟩ | ⟨-, hs⟩ | ⟨-, -, hf, p, -, hs⟩ <;> rw [hs]
    · exact ⟨rfl, ⟨[], by simp, by simp⟩, by simp⟩
    · exact ⟨rfl, ⟨[], by simp, by simp⟩, by simp⟩
    · exact ⟨rfl, ⟨[_], by simp, rfl⟩, fun hh => absurd hh hf⟩
  | cross =>
    cases h
    rcases crossStep_cases s with hs | ⟨-, -, hs⟩ <;> rw [hs] <;> exact ⟨rfl, ⟨[], by simp, by simp⟩, by simp⟩
  | sampleAttach p =>
    cases h
    rcases sampleAttachStep_cases p s with hs | ⟨b, hs⟩ <;> rw [hs] <;>
      exact ⟨rfl, ⟨[], by simp, by simp⟩, by simp⟩

/-- A step that is an engine edge. -/
theorem step_clk {s t : State} (h : step s = .next t) (hc : clkNext s = true) : clkEdge (taken s) = .next t := by
  have hp := (step_cases h).2
  rw [show s.schedule.head?.getD .clk = .clk by simpa [clkNext] using hc] at hp
  exact hp

/-- A step that is not. -/
theorem step_not_clk {s t : State} (h : step s = .next t) (hc : clkNext s = false) :
    ∃ a, a ≠ .clk ∧ perform a (taken s) = .next t :=
  ⟨s.schedule.head?.getD .clk, by simpa [clkNext] using hc, (step_cases h).2⟩

end Sys2Proof.Machine
end

