-- ==== Sys2Proof/Laws/PerInstr.lean ====
section
/-! SUPPORT. One law per instruction: the word an instruction is encoded by has the fixed bits of its row of
spec/opcode_table.json, and meets the condition of no earlier row. -/

namespace Sys2Proof.Laws.RowMatch

open Sys2Proof

/-- The encoding of a well-formed instruction matches its row: the masked word is the row's match, and where the row has
a condition the word meets it. -/
def Statement (i : Instr) : Prop :=
  i.wf = true →
    match i with
    | .noteOn _ => encode i &&& 0xFF0000000000#48 = 0x900000000000#48
    | .noteOff => encode i &&& 0xFF0000000000#48 = 0x800000000000#48
    | .setParam _ => encode i &&& 0xFFFF00000000#48 = 0x010000000000#48
    | .setParamUnknown _ => encode i &&& 0xFF0000000000#48 = 0x010000000000#48 ∧ subField (encode i) ≠ 0x00#8
    | .setWave _ => encode i &&& 0xFF00FFFFFFFC#48 = 0x020000000000#48
    | .setWaveInvalid _ => encode i &&& 0xFF0000000000#48 = 0x020000000000#48 ∧ 3 < (payloadField (encode i)).toNat
    | .reserved _ =>
      opcField (encode i) ≠ 0x90#8 ∧ opcField (encode i) ≠ 0x80#8 ∧ opcField (encode i) ≠ 0x01#8 ∧
        opcField (encode i) ≠ 0x02#8

/-- The mask of the opcode. -/
theorem opcMask : (0xFF0000000000#48 : CmdWord) = mkWord 0xFF#8 0x00#8 0x00000000#32 := by decide

/-- The mask of SET_PARAM's row. -/
theorem subMask : (0xFFFF00000000#48 : CmdWord) = mkWord 0xFF#8 0xFF#8 0x00000000#32 := by decide

/-- The mask of SET_WAVE's row. -/
theorem kindMask : (0xFF00FFFFFFFC#48 : CmdWord) = mkWord 0xFF#8 0x00#8 0xFFFFFFFC#32 := by decide

theorem noteOn (n : BitVec 8) : Statement (.noteOn n) := by
  intro _
  simp only [encode, opcMask, mkWord_and]
  simp [mkWord]

theorem noteOff : Statement .noteOff := by
  intro _
  decide

theorem setParam (v : Word) : Statement (.setParam v) := by
  intro _
  simp only [encode, subMask, mkWord_and]
  simp [mkWord]

theorem setParamUnknown (id : BitVec 8) : Statement (.setParamUnknown id) := by
  intro h
  refine ⟨?_, by simpa [encode, Instr.wf, Instr.unknownIdOk] using h⟩
  simp only [encode, opcMask, mkWord_and]
  simp [mkWord]

theorem setWave (k : BitVec 2) : Statement (.setWave k) := by
  intro _
  have hk : k.setWidth 32 &&& 0xFFFFFFFC#32 = 0#32 := by revert k; decide
  simp only [encode, kindMask, mkWord_and, hk]
  simp [mkWord]

theorem setWaveInvalid (kind : Word) : Statement (.setWaveInvalid kind) := by
  intro h
  refine ⟨?_, by simpa [encode, Instr.wf, Instr.invalidKindOk] using h⟩
  simp only [encode, opcMask, mkWord_and]
  simp [mkWord]

theorem reserved (opc : BitVec 8) : Statement (.reserved opc) := by
  intro h
  simpa [encode, Instr.wf, Instr.reservedOpcOk, and_assoc] using h

end Sys2Proof.Laws.RowMatch
end

