-- ==== Sys2Proof/Laws/Sine.lean ====
section
/-! SUPPORT. The enclosure of the real sine that the sine bank is built from (20_memory.md R61, log entry 9): bounds of
pi from Machin's formula, the sine between two of its partial sums, and both put together. -/

namespace Sys2Proof.Machine

open Finset

/-! ### Pi -/

/-- The first `n` terms of the arctangent series. -/
def arctanSum (x : ℚ) (n : Nat) : ℚ := ∑ i ∈ range n, (-1) ^ i * (x ^ (2 * i + 1) / (2 * i + 1))

theorem arctan_terms {x : ℝ} (h0 : 0 ≤ x) (h1 : x < 1) :
    Filter.Tendsto (fun n => ∑ i ∈ range n, (-1) ^ i * (x ^ (2 * i + 1) / (2 * (i : ℝ) + 1))) Filter.atTop
      (nhds (Real.arctan x)) := by
  have h := (Real.hasSum_arctan (x := x) (by rw [Real.norm_eq_abs, abs_lt]; constructor <;> linarith)).tendsto_sum_nat
  refine h.congr fun n => sum_congr rfl fun i _ => ?_
  push_cast
  rw [mul_div_assoc]

theorem arctan_antitone {x : ℝ} (h0 : 0 ≤ x) (h1 : x < 1) :
    Antitone (fun i : Nat => x ^ (2 * i + 1) / (2 * (i : ℝ) + 1)) := by
  apply antitone_nat_of_succ_le
  intro i
  have hp : x ^ (2 * (i + 1) + 1) ≤ x ^ (2 * i + 1) := pow_le_pow_of_le_one h0 h1.le (by omega)
  have hx : 0 ≤ x ^ (2 * i + 1) := by positivity
  push_cast
  gcongr
  linarith

theorem arctanSum_even_le (x : ℚ) (h0 : 0 ≤ x) (h1 : x < 1) (k : Nat) :
    ((arctanSum x (2 * k) : ℚ) : ℝ) ≤ Real.arctan x := by
  have h0' : (0 : ℝ) ≤ x := by exact_mod_cast h0
  have h1' : (x : ℝ) < 1 := by exact_mod_cast h1
  have h := Antitone.alternating_series_le_tendsto (arctan_terms h0' h1') (arctan_antitone h0' h1') k
  unfold arctanSum
  push_cast
  exact h

theorem le_arctanSum_odd (x : ℚ) (h0 : 0 ≤ x) (h1 : x < 1) (k : Nat) :
    Real.arctan x ≤ ((arctanSum x (2 * k + 1) : ℚ) : ℝ) := by
  have h0' : (0 : ℝ) ≤ x := by exact_mod_cast h0
  have h1' : (x : ℝ) < 1 := by exact_mod_cast h1
  have h := Antitone.tendsto_le_alternating_series (arctan_terms h0' h1') (arctan_antitone h0' h1') k
  unfold arctanSum
  push_cast
  exact h

theorem machin_below : (piScaled : ℚ) / 2 ^ 200 ≤ 4 * (4 * arctanSum (1 / 5) 46 - arctanSum (1 / 239) 15) := by
  decide +kernel

theorem machin_above : 4 * (4 * arctanSum (1 / 5) 47 - arctanSum (1 / 239) 14) ≤ ((piScaled + 1 : Nat) : ℚ) / 2 ^ 200 := by
  decide +kernel

/-- `piScaled` is `pi * 2^200` rounded down. -/
theorem pi_bounds : (piScaled : ℝ) / 2 ^ 200 ≤ Real.pi ∧ Real.pi ≤ ((piScaled : ℝ) + 1) / 2 ^ 200 := by
  have hm := Real.four_mul_arctan_inv_5_sub_arctan_inv_239
  have a1 := arctanSum_even_le (1 / 5) (by norm_num) (by norm_num) 23
  have a2 := le_arctanSum_odd (1 / 5) (by norm_num) (by norm_num) 23
  have b1 := arctanSum_even_le (1 / 239) (by norm_num) (by norm_num) 7
  have b2 := le_arctanSum_odd (1 / 239) (by norm_num) (by norm_num) 7
  have e5 : Real.arctan ((1 / 5 : ℚ) : ℝ) = Real.arctan 5⁻¹ := by congr 1; push_cast; norm_num
  have e239 : Real.arctan ((1 / 239 : ℚ) : ℝ) = Real.arctan 239⁻¹ := by congr 1; push_cast; norm_num
  rw [e5] at a1 a2
  rw [e239] at b1 b2
  have m1 : (((piScaled : ℚ) / 2 ^ 200 : ℚ) : ℝ) ≤ ((4 * (4 * arctanSum (1 / 5) 46 - arctanSum (1 / 239) 15) : ℚ) : ℝ) :=
    Rat.cast_le.mpr machin_below
  have m2 : ((4 * (4 * arctanSum (1 / 5) 47 - arctanSum (1 / 239) 14) : ℚ) : ℝ) ≤
      ((((piScaled + 1 : Nat) : ℚ) / 2 ^ 200 : ℚ) : ℝ) := Rat.cast_le.mpr machin_above
  rw [Rat.cast_div, Rat.cast_natCast, Rat.cast_pow, Rat.cast_ofNat, Rat.cast_mul, Rat.cast_sub, Rat.cast_mul,
    Rat.cast_ofNat] at m1
  rw [Rat.cast_mul, Rat.cast_sub, Rat.cast_mul, Rat.cast_ofNat, Rat.cast_div, Rat.cast_natCast, Rat.cast_pow,
    Rat.cast_ofNat, Nat.cast_add, Nat.cast_one] at m2
  constructor
  · refine m1.trans ?_
    linarith
  · refine le_trans ?_ m2
    linarith

/-! ### The sine between its partial sums -/

/-- The first `n` terms of the sine series. -/
noncomputable def sineSum (t : ℝ) (n : Nat) : ℝ := ∑ i ∈ range n, (-1) ^ i * (t ^ (2 * i + 1) / (2 * i + 1).factorial)

theorem sineSum_bounds {t : ℝ} (h0 : 0 ≤ t) (h2 : t ≤ 2) (k : Nat) :
    sineSum t (2 * k) ≤ Real.sin t ∧ Real.sin t ≤ sineSum t (2 * k + 1) := by
  have hl : Filter.Tendsto (fun n => ∑ i ∈ range n, (-1) ^ i * (t ^ (2 * i + 1) / ((2 * i + 1).factorial : ℝ)))
      Filter.atTop (nhds (Real.sin t)) := by
    refine (Real.hasSum_sin t).tendsto_sum_nat.congr fun n => sum_congr rfl fun i _ => ?_
    rw [mul_div_assoc]
  have ha : Antitone (fun i : Nat => t ^ (2 * i + 1) / ((2 * i + 1).factorial : ℝ)) := by
    apply antitone_nat_of_succ_le
    intro i
    have hx : 0 ≤ t ^ (2 * i + 1) := by positivity
    have hf : (0 : ℝ) < (2 * i + 1).factorial := by exact_mod_cast Nat.factorial_pos _
    have hfac : ((2 * (i + 1) + 1).factorial : ℝ) = (2 * i + 3) * ((2 * i + 2) * (2 * i + 1).factorial) := by
      rw [show 2 * (i + 1) + 1 = 2 * i + 1 + 1 + 1 by ring, Nat.factorial_succ, Nat.factorial_succ]
      push_cast
      ring
    rw [hfac, show t ^ (2 * (i + 1) + 1) = t ^ (2 * i + 1) * t ^ 2 by ring, div_le_div_iff₀ (by positivity) hf]
    have ht : t ^ 2 ≤ (2 * i + 3) * (2 * i + 2) := by
      have : (0 : ℝ) ≤ i := by positivity
      nlinarith
    calc t ^ (2 * i + 1) * t ^ 2 * ((2 * i + 1).factorial : ℝ)
        ≤ t ^ (2 * i + 1) * ((2 * i + 3) * (2 * i + 2)) * ((2 * i + 1).factorial : ℝ) := by gcongr
      _ = t ^ (2 * i + 1) * ((2 * i + 3) * ((2 * i + 2) * ((2 * i + 1).factorial : ℝ))) := by ring
  exact ⟨Antitone.alternating_series_le_tendsto hl ha k, Antitone.tendsto_le_alternating_series hl ha k⟩

/-! ### The nested polynomial -/

/-- The nested factors as a real number. -/
noncomputable def sineNestReal (t : ℝ) : Nat → Nat → ℝ
  | _, 0 => 1
  | k, n + 1 => 1 - t ^ 2 / ((2 * ((k : ℝ) + 1)) * (2 * ((k : ℝ) + 1) + 1)) * sineNestReal t (k + 1) n

/-- The fraction `sineNest` computes is the nested factors; the subtraction never truncates. -/
theorem sineNest_eq {a : Nat} (ha : a ≤ 2 * 2 ^ 200) (k n : Nat) :
    0 < (sineNest a k n).2 ∧ (sineNest a k n).1 ≤ (sineNest a k n).2 ∧
      ((sineNest a k n).1 : ℝ) / (sineNest a k n).2 = sineNestReal ((a : ℝ) / 2 ^ 200) k n := by
  induction n generalizing k with
  | zero => exact ⟨by simp [sineNest], by simp [sineNest], by simp [sineNest, sineNestReal]⟩
  | succ n ih =>
    obtain ⟨hpos, hle, heq⟩ := ih (k + 1)
    simp only [sineNest, sineNestReal]
    rw [← heq]
    generalize (sineNest a (k + 1) n).1 = x at *
    generalize (sineNest a (k + 1) n).2 = y at *
    have haa : a * a ≤ 4 * (2 ^ 200 * 2 ^ 200) := by
      calc a * a ≤ (2 * 2 ^ 200) * (2 * 2 ^ 200) := Nat.mul_le_mul ha ha
        _ = 4 * (2 ^ 200 * 2 ^ 200) := by ring
    have hm : a * a * x ≤ y * ((2 * (k + 1)) * (2 * (k + 1) + 1) * (2 ^ 200 * 2 ^ 200)) := by
      have h4 : 4 ≤ (2 * (k + 1)) * (2 * (k + 1) + 1) := by nlinarith
      calc a * a * x ≤ 4 * (2 ^ 200 * 2 ^ 200) * y := Nat.mul_le_mul haa hle
        _ ≤ (2 * (k + 1)) * (2 * (k + 1) + 1) * (2 ^ 200 * 2 ^ 200) * y := by gcongr
        _ = _ := Nat.mul_comm _ _
    refine ⟨by positivity, Nat.sub_le _ _, ?_⟩
    rw [Nat.cast_sub hm]
    generalize hP : 2 ^ 200 = P
    have hP0 : (P : ℝ) ≠ 0 := by rw [← hP]; positivity
    have hPr : (2 : ℝ) ^ 200 = (P : ℝ) := by rw [← hP]; push_cast; norm_num
    have hy : (y : ℝ) ≠ 0 := by exact_mod_cast hpos.ne'
    have hk1 : (2 * ((k : ℝ) + 1)) ≠ 0 := by positivity
    have hk2 : (2 * ((k : ℝ) + 1) + 1) ≠ 0 := by positivity
    rw [hPr]
    push_cast
    field_simp

/-- The nested factors multiplied out. -/
theorem sineNestReal_eq (t : ℝ) (k n : Nat) :
    sineNestReal t k n =
      ∑ i ∈ range (n + 1), (-1) ^ i * (t ^ (2 * i) * (2 * k + 1).factorial / (2 * (k + i) + 1).factorial) := by
  induction n generalizing k with
  | zero =>
    have : ((2 * k + 1).factorial : ℝ) ≠ 0 := by exact_mod_cast (Nat.factorial_pos _).ne'
    simp [sineNestReal, this]
  | succ n ih =>
    rw [sum_range_succ', sineNestReal, ih (k + 1), mul_sum]
    have h0 : ((2 * k + 1).factorial : ℝ) ≠ 0 := by exact_mod_cast (Nat.factorial_pos _).ne'
    have hfac : ((2 * (k + 1) + 1).factorial : ℝ) = (2 * (k + 1) + 1) * (2 * (k + 1)) * (2 * k + 1).factorial := by
      rw [show 2 * (k + 1) + 1 = 2 * k + 1 + 1 + 1 by ring, Nat.factorial_succ, Nat.factorial_succ]
      push_cast
      ring
    have hz : (-1 : ℝ) ^ 0 * (t ^ (2 * 0) * ((2 * k + 1).factorial : ℝ) / ((2 * (k + 0) + 1).factorial : ℝ)) = 1 := by
      simp [h0]
    rw [hz, sub_eq_neg_add, ← sum_neg_distrib]
    congr 1
    refine sum_congr rfl fun i _ => ?_
    rw [hfac, show k + 1 + i = k + (i + 1) by ring]
    have hi : ((2 * (k + (i + 1)) + 1).factorial : ℝ) ≠ 0 := by exact_mod_cast (Nat.factorial_pos _).ne'
    have hk1 : (2 * ((k : ℝ) + 1)) ≠ 0 := by positivity
    have hk2 : (2 * ((k : ℝ) + 1) + 1) ≠ 0 := by positivity
    field_simp
    ring

/-- `t` times the nested factors is a partial sum of the sine. -/
theorem mul_sineNestReal (t : ℝ) (n : Nat) : t * sineNestReal t 0 n = sineSum t (n + 1) := by
  rw [sineNestReal_eq, sineSum, mul_sum]
  refine sum_congr rfl fun i _ => ?_
  simp
  ring

/-! ### The enclosure -/

theorem remainder_small : 2 ^ 59 * 2 ^ 200 ≤ (59).factorial := by decide +kernel

theorem remainder_le {t : ℝ} (h0 : 0 ≤ t) (h2 : t ≤ 2) {n : Nat} (hn : 2 ^ 59 * 2 ^ 200 ≤ n) :
    t ^ 59 / (n : ℝ) ≤ 1 / 2 ^ 200 := by
  have hr : (2 : ℝ) ^ 59 * 2 ^ 200 ≤ n := by exact_mod_cast hn
  have hp : (0 : ℝ) < n := lt_of_lt_of_le (by positivity) hr
  rw [div_le_div_iff₀ hp (by positivity), one_mul]
  refine le_trans ?_ hr
  gcongr

/-- The two fractions of `sineBounds` enclose the sine of `pi * num / len` (20_memory.md R61, log entry 9). -/
theorem sineBounds_enclose {num len : Nat} (hl : 0 < len) (h : 2 * num ≤ len) :
    0 < (sineBounds num len).2.2 ∧
      ((sineBounds num len).1 : ℝ) / (sineBounds num len).2.2 ≤ Real.sin (Real.pi * num / len) ∧
      Real.sin (Real.pi * num / len) ≤ ((sineBounds num len).2.1 : ℝ) / (sineBounds num len).2.2 := by
  obtain ⟨p1, p2⟩ := pi_bounds
  have hP : (0 : ℝ) < 2 ^ 200 := by positivity
  have hlr : (0 : ℝ) < len := by exact_mod_cast hl
  have hnl : (num : ℝ) / len ≤ 1 / 2 := by
    rw [div_le_iff₀ hlr]
    have : (2 : ℝ) * num ≤ len := by exact_mod_cast h
    linarith
  have hn0 : (0 : ℝ) ≤ (num : ℝ) / len := by positivity
  set a := num * piScaled / len with ha
  set t : ℝ := (a : ℝ) / 2 ^ 200 with ht
  set θ : ℝ := Real.pi * num / len with hθ
  have hθe : θ = Real.pi * ((num : ℝ) / len) := by rw [hθ, mul_div_assoc]
  -- `t` is just below the angle
  have ha1 : (a : ℝ) ≤ (num : ℝ) / len * piScaled := by
    have := Nat.cast_div_le (α := ℝ) (m := num * piScaled) (n := len)
    rw [← ha] at this
    refine this.trans (le_of_eq ?_)
    push_cast
    ring
  have ha2 : (num : ℝ) / len * piScaled < a + 1 := by
    have h1 := Nat.lt_floor_add_one ((num : ℝ) / len * piScaled)
    have h2 : ⌊(num : ℝ) / len * piScaled⌋₊ = a := by
      rw [ha, ← Nat.floor_div_eq_div (K := ℝ)]
      congr 1
      push_cast
      ring
    rwa [h2] at h1
  have hpi : (piScaled : ℝ) ≤ Real.pi * 2 ^ 200 := by rwa [div_le_iff₀ hP] at p1
  have hpi2 : Real.pi * 2 ^ 200 ≤ piScaled + 1 := by rwa [le_div_iff₀ hP] at p2
  have ht0 : 0 ≤ t := by positivity
  have htθ : t ≤ θ := by
    rw [ht, div_le_iff₀ hP, hθe]
    nlinarith
  have hθt : θ ≤ t + 2 / 2 ^ 200 := by
    rw [ht, ← add_div, le_div_iff₀ hP, hθe]
    nlinarith
  have hθ2 : θ ≤ Real.pi / 2 := by
    rw [hθe]
    nlinarith [Real.pi_pos]
  have ht2 : t ≤ 2 := by linarith [Real.pi_le_four]
  -- the sine at the two angles
  have hs1 : Real.sin t ≤ Real.sin θ :=
    Real.sin_le_sin_of_le_of_le_pi_div_two (by linarith [Real.pi_pos]) hθ2 htθ
  have hs2 : Real.sin θ ≤ Real.sin t + 2 / 2 ^ 200 := by
    have h1 : Real.sin θ - Real.sin t = 2 * Real.sin ((θ - t) / 2) * Real.cos ((θ + t) / 2) := Real.sin_sub_sin _ _
    have h2 : Real.sin ((θ - t) / 2) ≤ (θ - t) / 2 := Real.sin_le (by linarith)
    have h3 : 0 ≤ Real.sin ((θ - t) / 2) := Real.sin_nonneg_of_nonneg_of_le_pi (by linarith) (by linarith [Real.pi_pos])
    have h4 : Real.cos ((θ + t) / 2) ≤ 1 := Real.cos_le_one _
    nlinarith
  -- the polynomial
  have hale : a ≤ 2 * 2 ^ 200 := by
    have : (a : ℝ) ≤ 2 * 2 ^ 200 := by rwa [ht, div_le_iff₀ hP] at ht2
    exact_mod_cast this
  obtain ⟨hpos, -, heq⟩ := sineNest_eq hale 0 sineTerms
  rw [← ht] at heq
  have hpoly := mul_sineNestReal t sineTerms
  rw [← heq] at hpoly
  have hub := (sineSum_bounds ht0 ht2 14).2
  have hlb := (sineSum_bounds ht0 ht2 15).1
  have hterm : sineSum t (2 * 15) = sineSum t 29 - t ^ 59 / (59).factorial := by
    unfold sineSum
    rw [show 2 * 15 = 29 + 1 by rfl, sum_range_succ _ 29]
    norm_num
    ring
  have hrem : t ^ 59 / ((59).factorial : ℝ) ≤ 1 / 2 ^ 200 := remainder_le ht0 ht2 remainder_small
  rw [show 2 * 14 + 1 = sineTerms + 1 by rfl, ← hpoly] at hub
  rw [hterm, show (29 : Nat) = sineTerms + 1 by rfl, ← hpoly] at hlb
  -- together
  have hd : (0 : ℝ) < (sineNest a 0 sineTerms).2 := by exact_mod_cast hpos
  simp only [sineBounds, ← ha]
  generalize (sineNest a 0 sineTerms).1 = x at *
  generalize (sineNest a 0 sineTerms).2 = y at *
  have e1 : ((a : ℝ) * x - y * 2 ^ 10) / (y * 2 ^ 200) = t * (x / y) - 1 / 2 ^ 190 := by
    rw [ht]
    field_simp
  have e2 : ((a : ℝ) * x + y * 2 ^ 10) / (y * 2 ^ 200) = t * (x / y) + 1 / 2 ^ 190 := by
    rw [ht]
    field_simp
  have hsmall : (2 : ℝ) / 2 ^ 200 ≤ 1 / 2 ^ 190 := by norm_num
  have hsmall2 : (1 : ℝ) / 2 ^ 200 ≤ 1 / 2 ^ 190 := by norm_num
  have hsin0 : 0 ≤ Real.sin θ :=
    Real.sin_nonneg_of_nonneg_of_le_pi (ht0.trans htθ) (by linarith [Real.pi_pos])
  have c1 : ((y * 2 ^ 10 : ℕ) : ℝ) = y * 2 ^ 10 := by rw [Nat.cast_mul, Nat.cast_pow, Nat.cast_two]
  have c2 : ((y * 2 ^ 200 : ℕ) : ℝ) = y * 2 ^ 200 := by rw [Nat.cast_mul, Nat.cast_pow, Nat.cast_two]
  refine ⟨by positivity, ?_, ?_⟩
  · rcases Nat.le_total (y * 2 ^ 10) (a * x) with hle | hle
    · rw [Nat.cast_sub hle, c1, c2, Nat.cast_mul, e1]
      linarith
    · rw [Nat.sub_eq_zero_of_le hle]
      simpa using hsin0
  · rw [Nat.cast_add, c1, c2, Nat.cast_mul, e2]
    linarith

/-- The two fractions are `2^-189` apart. -/
theorem sineBounds_width (num len : Nat) :
    (sineBounds num len).2.1 * 2 ^ 190 ≤ (sineBounds num len).1 * 2 ^ 190 + 2 * (sineBounds num len).2.2 := by
  simp only [sineBounds]
  generalize num * piScaled / len * (sineNest (num * piScaled / len) 0 sineTerms).1 = x
  generalize (sineNest (num * piScaled / len) 0 sineTerms).2 = y
  omega

/-- Of at most `2^24` points on the circle the nearest to a right angle keeps its distance from it. -/
theorem sin_gap {n l : ℝ} (hn : 0 ≤ n) (h1 : 1 ≤ l - 2 * n) (hl : 0 < l) (hln : l ≤ 16777216) :
    Real.sin (Real.pi * n / l) ≤ 1 - 1 / 1125899906842624 := by
  have hp := Real.pi_pos
  set δ := Real.pi / 2 - Real.pi * n / l with hδd
  have hδ : δ = Real.pi * (l - 2 * n) / (2 * l) := by rw [hδd]; field_simp
  have e : Real.sin (Real.pi * n / l) = Real.cos δ := by rw [hδd, Real.cos_pi_div_two_sub]
  have hδ0 : 0 ≤ δ := by rw [hδ]; positivity
  have hδpi : δ ≤ Real.pi := by
    have : 0 ≤ Real.pi * n / l := by positivity
    rw [hδd]; linarith
  have hq : 1 / 33554432 ≤ δ / Real.pi := by
    have : δ / Real.pi = (l - 2 * n) / (2 * l) := by rw [hδ]; field_simp
    rw [this, div_le_div_iff₀ (by norm_num) (by positivity)]
    linarith
  have hc := Real.cos_le_one_sub_mul_cos_sq (x := δ) (by rw [abs_of_nonneg hδ0]; exact hδpi)
  have : 2 / Real.pi ^ 2 * δ ^ 2 = 2 * (δ / Real.pi) ^ 2 := by field_simp
  rw [this] at hc
  rw [e]
  nlinarith

theorem le_of_bounds {lo hi d : Nat} {S : ℝ} (hd : 0 < d) (hlo : (lo:ℝ) / d ≤ S)
    (hS : S ≤ 1 - 1 / 1125899906842624) (hw : hi * 2 ^ 190 ≤ lo * 2 ^ 190 + 2 * d) : hi ≤ d := by
  have hd' : (0:ℝ) < d := by exact_mod_cast hd
  have hwr : (hi:ℝ) * 2 ^ 190 ≤ lo * 2 ^ 190 + 2 * d := by exact_mod_cast hw
  rw [div_le_iff₀ hd'] at hlo
  have h2 : (2:ℝ) ^ 190 * (1 / 1125899906842624) ≥ 2 := by norm_num
  have hP : (0:ℝ) < 2 ^ 190 := by positivity
  generalize (2:ℝ) ^ 190 = P at *
  have h3 : (lo:ℝ) ≤ d - d * (1 / 1125899906842624) := by nlinarith
  have h4 : (lo:ℝ) * P ≤ (d - d * (1 / 1125899906842624)) * P := by gcongr
  have h5 : (d:ℝ) * (P * (1 / 1125899906842624)) ≥ d * 2 := by gcongr
  have : (hi:ℝ) * P ≤ d * P := by linarith
  exact_mod_cast le_of_mul_le_mul_right this hP

/-- The upper fraction is at most 1. -/
theorem sineBounds_le_one {num len : Nat} (hl : 0 < len) (hlen : len ≤ 16777216) (h : 2 * num < len) :
    (sineBounds num len).2.1 ≤ (sineBounds num len).2.2 := by
  obtain ⟨hd, hlo, -⟩ := sineBounds_enclose hl h.le
  have hlr : (0:ℝ) < len := by exact_mod_cast hl
  have h1 : (1:ℝ) ≤ len - 2 * num := by
    have : (2 * num + 1 : ℝ) ≤ len := by exact_mod_cast h
    linarith
  exact le_of_bounds hd hlo (sin_gap (Nat.cast_nonneg _) h1 hlr (by exact_mod_cast hlen)) (sineBounds_width num len)

/-- The bounds of a folded angle enclose its sine. -/
theorem sineMagBounds_enclose {num len : Nat} (hl : 0 < len) (h : 2 * num ≤ len) :
    0 < (sineMagBounds len num).2.2 ∧
      ((sineMagBounds len num).1 : ℝ) / (sineMagBounds len num).2.2 ≤ Real.sin (Real.pi * num / len) ∧
      Real.sin (Real.pi * num / len) ≤ ((sineMagBounds len num).2.1 : ℝ) / (sineMagBounds len num).2.2 := by
  have hlr : (len : ℝ) ≠ 0 := by exact_mod_cast hl.ne'
  unfold sineMagBounds
  split
  · rename_i h0
    simp [h0]
  · split
    · rename_i h2
      have e : Real.pi * num / len = Real.pi / 2 := by
        rw [← h2]
        push_cast
        have : (num : ℝ) ≠ 0 := by rintro hh; rw [← h2] at hlr; push_cast at hlr; simp [hh] at hlr
        field_simp
      rw [e, Real.sin_pi_div_two]
      norm_num
    · split
      · rename_i h6
        have e : Real.pi * num / len = Real.pi / 6 := by
          rw [← h6]
          push_cast
          have : (num : ℝ) ≠ 0 := by rintro hh; rw [← h6] at hlr; push_cast at hlr; simp [hh] at hlr
          field_simp
        rw [e, Real.sin_pi_div_six]
        norm_num
      · exact sineBounds_enclose hl h

/-- The folded angle is in the first quadrant, and its sine is that of the angle up to the sign. -/
theorem sin_foldAngle {len i : Nat} (hi : i < len) :
    2 * (foldAngle len i).2 ≤ len ∧
      Real.sin (2 * Real.pi * i / len) =
        (if (foldAngle len i).1 then -1 else 1) * Real.sin (Real.pi * (foldAngle len i).2 / len) := by
  have hlr : (len : ℝ) ≠ 0 := by
    have : (0 : ℝ) < len := by exact_mod_cast (show 0 < len by omega)
    exact this.ne'
  -- the second half of the circle is the first with the sign changed
  have hhalf : ∀ half : Nat, half ≤ len →
      2 * (if len < 2 * half then len - half else half) ≤ len ∧
        Real.sin (Real.pi * half / len) =
          Real.sin (Real.pi * ((if len < 2 * half then len - half else half : ℕ) : ℝ) / len) := by
    intro half hh
    split
    · refine ⟨by omega, ?_⟩
      rw [Nat.cast_sub hh, ← Real.sin_pi_sub]
      congr 1
      field_simp
    · exact ⟨by omega, rfl⟩
  unfold foldAngle
  simp only
  by_cases h : len ≤ 2 * i
  · have hm : 2 * i % len = 2 * i - len := by
      rw [Nat.mod_eq_sub_mod h, Nat.mod_eq_of_lt (by omega)]
    rw [hm]
    obtain ⟨h1, h2⟩ := hhalf (2 * i - len) (by omega)
    refine ⟨h1, ?_⟩
    rw [← h2, decide_eq_true h, if_pos rfl, Nat.cast_sub h]
    have e : 2 * Real.pi * i / len = Real.pi * (((2 * i : ℕ) : ℝ) - len) / len + Real.pi := by
      push_cast
      field_simp
      ring
    rw [e, Real.sin_add_pi]
    ring
  · have hm : 2 * i % len = 2 * i := Nat.mod_eq_of_lt (by omega)
    rw [hm]
    obtain ⟨h1, h2⟩ := hhalf (2 * i) (by omega)
    refine ⟨h1, ?_⟩
    rw [← h2, decide_eq_false h]
    simp only [Bool.false_eq_true, if_false, one_mul]
    congr 1
    push_cast
    ring

end Sys2Proof.Machine
end

