-- ==== Sys2Proof/Laws/SineOrder.lean ====
section
/-! SUPPORT. The sine compared exactly with a fraction (20_memory.md R61, log entry 9): the half turns of a multiple of an
angle, the comparison, and the rounding that ends between the two middles around the exact value. -/

namespace Sys2Proof.Machine

/-! ### The exact comparison -/

/-- In a turn starting at 0 the sine is positive exactly in the first half. -/
theorem sin_pos_iff_of_lt_two_pi {y : ℝ} (h0 : 0 < y) (h2 : y < 2 * Real.pi) : 0 < Real.sin y ↔ y < Real.pi := by
  constructor
  · intro h
    by_contra hc
    have := Real.sin_nonneg_of_nonneg_of_le_pi (x := y - Real.pi) (by linarith) (by linarith)
    rw [Real.sin_sub_pi] at this
    linarith
  · exact Real.sin_pos_of_pos_of_lt_pi h0


/-- What `halfTurns` computes: the half turns of `j * ψ`, and the two sines up to a positive factor. -/
theorem halfTurns_spec {c e : Int} {ψ : ℝ} (he : 0 < e) (h0 : 0 < ψ) (hπ : ψ < Real.pi) (hc : Real.cos ψ * e = c) (j : Nat) :
    ((halfTurns c e j).1 * Real.pi ≤ j * ψ ∧ j * ψ < ((halfTurns c e j).1 + 1) * Real.pi) ∧
      ((halfTurns c e j).2.1 : ℝ) * (Real.sin ψ * e) = e ^ j * Real.sin (j * ψ - (halfTurns c e j).1 * Real.pi) ∧
      ((halfTurns c e j).2.2 : ℝ) * Real.sin ψ = e ^ j * Real.sin ((j + 1) * ψ - (halfTurns c e j).1 * Real.pi) := by
  have hs : 0 < Real.sin ψ := Real.sin_pos_of_pos_of_lt_pi h0 hπ
  have her : (0 : ℝ) < e := by exact_mod_cast he
  induction j with
  | zero => simp [halfTurns, Real.pi_pos]
  | succ j ih =>
    rw [halfTurns]
    generalize halfTurns c e j = t at *
    obtain ⟨k, u, v⟩ := t
    obtain ⟨⟨h1, h2⟩, hu, hv⟩ := ih
    simp only at h1 h2 hu hv ⊢
    have hw : ((2 * c * v - e * e * u : Int) : ℝ) * Real.sin ψ = e ^ (j + 1) * Real.sin ((j + 1 + 1) * ψ - k * Real.pi) := by
      have hadd : Real.sin ((j + 1 + 1) * ψ - k * Real.pi) + Real.sin (j * ψ - k * Real.pi) =
          2 * Real.cos ψ * Real.sin ((j + 1) * ψ - k * Real.pi) := by
        have e1 : ((j : ℝ) + 1 + 1) * ψ - k * Real.pi = ((j + 1) * ψ - k * Real.pi) + ψ := by ring
        have e2 : (j : ℝ) * ψ - k * Real.pi = ((j + 1) * ψ - k * Real.pi) - ψ := by ring
        rw [e1, e2]
        generalize ((j : ℝ) + 1) * ψ - k * Real.pi = x
        rw [Real.sin_add, Real.sin_sub]
        ring
      push_cast
      rw [← hc, pow_succ]
      linear_combination (2 * Real.cos ψ * e) * hv - e * hu - e ^ j * e * hadd
    have hsgn : (0 < v) ↔ (j + 1) * ψ < (k + 1) * Real.pi := by
      have hy := sin_pos_iff_of_lt_two_pi (y := (j + 1) * ψ - k * Real.pi) (by linarith) (by linarith)
      have hvp : (0 < v) ↔ 0 < (v : ℝ) * Real.sin ψ := by
        rw [mul_pos_iff_of_pos_right hs]; exact_mod_cast Iff.rfl
      rw [hvp, hv, mul_pos_iff_of_pos_left (by positivity), hy]
      constructor <;> intro h <;> linarith
    push_cast
    split
    · rename_i hpos
      refine ⟨⟨by linarith, hsgn.mp hpos⟩, ?_, hw⟩
      rw [pow_succ]; linear_combination e * hv
    · rename_i hpos
      have hge := not_lt.mp (fun h => hpos (hsgn.mpr h))
      have flip : ∀ x : ℝ, Real.sin (x - (k + 1) * Real.pi) = -Real.sin (x - k * Real.pi) := by
        intro x
        rw [← Real.sin_sub_pi]; congr 1; ring
      push_cast at hw ⊢
      refine ⟨⟨hge, by linarith⟩, ?_, ?_⟩
      · rw [flip, pow_succ]; linear_combination (-e) * hv
      · rw [flip]; linear_combination -hw

/-- What a comparison of the real `x` with the real `y` answers. -/
def OrderIs (o : Ordering) (x y : ℝ) : Prop :=
  match o with
  | .lt => x < y
  | .eq => x = y
  | .gt => y < x

/-- The integer comparison is that of the real numbers. -/
theorem sineOrderExact_spec {len num a b : Nat} (hl : 0 < len) (h : 2 * num ≤ len) (hb : 0 < b) :
    OrderIs (sineOrderExact len num a b) (Real.sin (Real.pi * num / len)) (a / b) := by
  have hpi := Real.pi_pos
  have hlr : (0 : ℝ) < len := by exact_mod_cast hl
  have hbr : (0 : ℝ) < b := by exact_mod_cast hb
  have hnl : 2 * (num : ℝ) ≤ len := by exact_mod_cast h
  set θ : ℝ := Real.pi * num / len with hθ
  have hθl : θ * len = Real.pi * num := by rw [hθ]; field_simp
  have hθ0 : 0 ≤ θ := by positivity
  have hθ2 : θ ≤ Real.pi / 2 := by
    rw [hθ, div_le_div_iff₀ hlr (by norm_num)]
    nlinarith
  unfold sineOrderExact
  split
  · rename_i h0
    subst h0
    split
    · rename_i hn
      subst hn
      simp [OrderIs, hθ]
    · rename_i hn
      have : (0 : ℝ) < num := by exact_mod_cast Nat.pos_of_ne_zero hn
      have : 0 < θ := by positivity
      simpa [OrderIs] using Real.sin_pos_of_pos_of_lt_pi this (by linarith)
  · rename_i ha
    split
    · rename_i hab
      have har : (0 : ℝ) < a := by exact_mod_cast Nat.pos_of_ne_zero ha
      have habr : (a : ℝ) < b := by exact_mod_cast hab
      set r : ℝ := (a : ℝ) / b with hr
      have hr0 : 0 < r := by positivity
      have hr1 : r < 1 := by rw [hr, div_lt_one hbr]; exact habr
      set χ : ℝ := Real.arcsin r with hχ
      have hχ0 : 0 < χ := Real.arcsin_pos.mpr hr0
      have hχ2 : χ < Real.pi / 2 := by rw [hχ, Real.arcsin_lt_pi_div_two]; exact hr1
      have hsin : Real.sin χ = r := Real.sin_arcsin (by linarith) hr1.le
      have hcos : Real.cos (2 * χ) * ((b * b : Nat) : Int) = (((b * b : Nat) - (2 * (a * a) : Nat) : Int) : ℝ) := by
        rw [Real.cos_two_mul, Real.cos_sq', hsin, hr]
        push_cast
        field_simp
        ring
      obtain ⟨⟨h1, h2⟩, hu, -⟩ := halfTurns_spec (c := (b * b : Nat) - (2 * (a * a) : Nat)) (e := (b * b : Nat)) (ψ := 2 * χ)
        (by positivity) (by linarith) (by linarith) hcos len
      simp only
      generalize halfTurns ((b * b : Nat) - (2 * (a * a) : Nat)) (b * b : Nat) len = t at *
      have hmono : ∀ {x y : ℝ}, 0 ≤ x → y ≤ Real.pi / 2 → x < y → Real.sin x < Real.sin y := fun hx hy hxy =>
        Real.sin_lt_sin_of_lt_of_le_pi_div_two (by linarith) hy hxy
      split
      · rename_i hk
        have hk' : (t.1 : ℝ) + 1 ≤ 2 * num := by exact_mod_cast hk
        show r < Real.sin θ
        rw [← hsin]
        apply hmono hχ0.le hθ2
        have : (len : ℝ) * χ < len * θ := by nlinarith
        exact lt_of_mul_lt_mul_left this hlr.le
      · rename_i hk
        split
        · rename_i he
          obtain ⟨he1, he2⟩ := he
          rw [he2, Int.cast_zero, zero_mul] at hu
          have hz : Real.sin (len * (2 * χ) - t.1 * Real.pi) = 0 := by
            rcases mul_eq_zero.mp hu.symm with h | h
            · exact absurd h (by positivity)
            · exact h
          have hz0 : len * (2 * χ) - t.1 * Real.pi = 0 := by
            by_contra hne
            have hpos : 0 < len * (2 * χ) - t.1 * Real.pi := lt_of_le_of_ne (by linarith) (Ne.symm hne)
            exact absurd hz (Real.sin_pos_of_pos_of_lt_pi hpos (by linarith)).ne'
          show Real.sin θ = r
          rw [← hsin]
          congr 1
          have hk' : (t.1 : ℝ) = 2 * num := by exact_mod_cast he1
          rw [hk'] at hz0
          have : (len : ℝ) * θ = len * χ := by linarith
          exact mul_left_cancel₀ hlr.ne' this
        · rename_i he
          show Real.sin θ < r
          rw [← hsin]
          apply hmono hθ0 hχ2.le
          have hkge : 2 * (num : ℝ) ≤ t.1 := by exact_mod_cast not_lt.mp hk
          have hle : (len : ℝ) * θ ≤ len * χ := by nlinarith
          have hne : (len : ℝ) * θ ≠ len * χ := by
            intro hh
            have hk' : (t.1 : ℝ) = 2 * num := by
              apply le_antisymm _ hkge
              have : (t.1 : ℝ) * Real.pi ≤ 2 * num * Real.pi := by linarith
              exact le_of_mul_le_mul_right this hpi
            apply he
            refine ⟨by exact_mod_cast hk', ?_⟩
            have hz : (len : ℝ) * (2 * χ) - t.1 * Real.pi = 0 := by rw [hk']; linarith
            rw [hz, Real.sin_zero, mul_zero] at hu
            have hpos : 0 < Real.sin (2 * χ) := Real.sin_pos_of_pos_of_lt_pi (by linarith) (by linarith)
            rcases mul_eq_zero.mp hu with h | h
            · exact_mod_cast h
            · exact absurd h (by positivity)
          exact lt_of_mul_lt_mul_left (lt_of_le_of_ne hle hne) hlr.le
    · rename_i hab
      have habr : (b : ℝ) ≤ a := by exact_mod_cast not_lt.mp hab
      split
      · rename_i he
        obtain ⟨he1, he2⟩ := he
        have e : θ = Real.pi / 2 := by
          have : 2 * (num : ℝ) = len := by exact_mod_cast he2
          rw [hθ, ← this]
          have : (num : ℝ) ≠ 0 := by rintro hh; rw [hh] at this; simp at this; linarith
          field_simp
        show Real.sin θ = _
        rw [e, Real.sin_pi_div_two, he1, div_self hbr.ne']
      · rename_i he
        show Real.sin θ < _
        rw [lt_div_iff₀ hbr]
        rcases lt_or_eq_of_le habr with hlt | heq
        · calc Real.sin θ * b ≤ 1 * b := by gcongr; exact Real.sin_le_one θ
            _ < a := by linarith
        · have hn : 2 * num ≠ len := fun hh => he ⟨by exact_mod_cast heq.symm, hh⟩
          have hn' : 2 * (num : ℝ) < len := by exact_mod_cast lt_of_le_of_ne h hn
          have hlt : θ < Real.pi / 2 := by
            rw [hθ, div_lt_div_iff₀ hlr (by norm_num)]
            nlinarith
          have := Real.sin_lt_sin_of_lt_of_le_pi_div_two (by linarith) le_rfl hlt
          rw [Real.sin_pi_div_two] at this
          rw [← heq]; nlinarith

/-- The comparison of the sine of a folded angle with a fraction is that of the real numbers. -/
theorem sineOrder_spec {len num a b : Nat} (hl : 0 < len) (h : 2 * num ≤ len) (hb : 0 < b) :
    OrderIs (sineOrder len num a b) (Real.sin (Real.pi * num / len)) (a / b) := by
  obtain ⟨hd, h1, h2⟩ := sineMagBounds_enclose hl h
  have hdr : (0 : ℝ) < (sineMagBounds len num).2.2 := by exact_mod_cast hd
  have hbr : (0 : ℝ) < b := by exact_mod_cast hb
  unfold sineOrder
  simp only
  generalize sineMagBounds len num = s at *
  split
  · rename_i hc
    have hc' : (a : ℝ) * s.2.2 < s.1 * b := by exact_mod_cast hc
    exact lt_of_lt_of_le ((div_lt_div_iff₀ hbr hdr).mpr hc') h1
  · split
    · rename_i hc
      have hc' : (s.2.1 : ℝ) * b < a * s.2.2 := by exact_mod_cast hc
      exact lt_of_le_of_lt h2 ((div_lt_div_iff₀ hdr hbr).mpr hc')
    · exact sineOrderExact_spec hl h hb

/-! ### The rounding -/

/-- `x` (in units of `2^-149`) does not round below the magnitude `m`: it is not under the middle to the one below, and
on it only if `m` is even. -/
def NotBelow (x : ℝ) (m : Nat) : Prop :=
  ∀ k, m = k + 1 → magUnits k + magUnits m ≤ 2 * x ∧ (magUnits k + magUnits m = 2 * x → m % 2 = 0)

/-- `x` (in units of `2^-149`) does not round above the magnitude `m`. -/
def NotAbove (x : ℝ) (m : Nat) : Prop :=
  2 * x ≤ magUnits m + magUnits (m + 1) ∧ (2 * x = magUnits m + magUnits (m + 1) → m % 2 = 0)

/-- Between the two middles a magnitude is the nearest one, with an even last place at a tie. -/
theorem nearest_of_middles {x : ℝ} {m : Nat} (hb : NotBelow x m) (ha : NotAbove x m) (u : Nat) :
    |x - magUnits m| ≤ |x - magUnits u| ∧
      (|x - magUnits m| = |x - magUnits u| → magUnits u ≠ magUnits m → m % 2 = 0) := by
  have cast : ∀ {i j : Nat}, i ≤ j → (magUnits i : ℝ) ≤ magUnits j := fun h => by
    exact_mod_cast magUnits_mono.monotone h
  have lt : ∀ {i j : Nat}, i < j → (magUnits i : ℝ) < magUnits j := fun h => by exact_mod_cast magUnits_mono h
  rcases Nat.lt_trichotomy u m with hu | hu | hu
  · obtain ⟨k, rfl⟩ : ∃ k, m = k + 1 := ⟨m - 1, by omega⟩
    obtain ⟨h1, h2⟩ := hb k rfl
    have c1 := cast (show u ≤ k by omega)
    have c2 := lt (show u < k + 1 by omega)
    have e : |x - magUnits u| = x - magUnits u := abs_of_nonneg (by linarith)
    rw [e]
    refine ⟨abs_le.mpr ⟨by linarith, by linarith⟩, fun heq _ => h2 ?_⟩
    rcases abs_cases (x - magUnits (k + 1)) with ⟨e1, _⟩ | ⟨e1, _⟩ <;> rw [e1] at heq <;> linarith
  · subst hu
    exact ⟨le_refl _, fun _ hne => absurd rfl hne⟩
  · obtain ⟨h1, h2⟩ := ha
    have c1 := cast (show m + 1 ≤ u by omega)
    have c2 := lt (show m < u by omega)
    have e : |x - magUnits u| = magUnits u - x := by rw [abs_of_nonpos (by linarith)]; ring
    rw [e]
    refine ⟨abs_le.mpr ⟨by linarith, by linarith⟩, fun heq _ => h2 ?_⟩
    rcases abs_cases (x - magUnits m) with ⟨e1, _⟩ | ⟨e1, _⟩ <;> rw [e1] at heq <;> linarith

/-- The rounding of a rational lies between its two middles. -/
theorem roundMag_middles (num den : Nat) (hd : 0 < den) (hf : roundMag num den < 0x7F800000) :
    NotBelow ((num : ℝ) * 2 ^ 149 / den) (roundMag num den) ∧ NotAbove ((num : ℝ) * 2 ^ 149 / den) (roundMag num den) := by
  have near := roundMag_nearest num den hd hf
  simp only at near
  generalize roundMag num den = m at *
  generalize (num : ℝ) * 2 ^ 149 / den = x at *
  have lt : ∀ {i j : Nat}, i < j → (magUnits i : ℝ) < magUnits j := fun h => by exact_mod_cast magUnits_mono h
  constructor
  · rintro k rfl
    obtain ⟨n1, n2⟩ := near k
    have c := lt (show k < k + 1 by omega)
    constructor
    · by_contra hc
      rcases abs_cases (x - magUnits (k + 1)) with ⟨e1, _⟩ | ⟨e1, _⟩ <;>
        rcases abs_cases (x - magUnits k) with ⟨e2, _⟩ | ⟨e2, _⟩ <;> rw [e1, e2] at n1 <;> linarith
    · intro he
      refine n2 ?_ (magUnits_mono (Nat.lt_succ_self k)).ne
      rw [abs_of_nonpos (by linarith), abs_of_nonneg (by linarith)]
      linarith
  · obtain ⟨n1, n2⟩ := near (m + 1)
    have c := lt (show m < m + 1 by omega)
    constructor
    · by_contra hc
      rcases abs_cases (x - magUnits m) with ⟨e1, _⟩ | ⟨e1, _⟩ <;>
        rcases abs_cases (x - magUnits (m + 1)) with ⟨e2, _⟩ | ⟨e2, _⟩ <;> rw [e1, e2] at n1 <;> linarith
    · intro he
      refine n2 ?_ (magUnits_mono (Nat.lt_succ_self m)).ne'
      rw [abs_of_nonneg (by linarith), abs_of_nonpos (by linarith)]
      linarith

theorem NotBelow.mono {x y : ℝ} {m : Nat} (h : NotBelow x m) (hxy : x ≤ y) : NotBelow y m := fun k hk =>
  ⟨by linarith [(h k hk).1], fun he => (h k hk).2 (by linarith [(h k hk).1])⟩

theorem NotAbove.mono {x y : ℝ} {m : Nat} (h : NotAbove x m) (hyx : y ≤ x) : NotAbove y m :=
  ⟨by linarith [h.1], fun he => h.2 (by linarith [h.1])⟩

/-- `sineRoundsAbove` in real numbers. -/
theorem sineRoundsAbove_spec {amplitude : Word} {len num : Nat} (ha : 0 < scaledMag amplitude) (hl : 0 < len)
    (h : 2 * num ≤ len) (m : Nat) :
    let x := (scaledMag amplitude : ℝ) * Real.sin (Real.pi * num / len) / 2
    if sineRoundsAbove amplitude len num m then NotBelow x (m + 1) else NotAbove x m := by
  intro x
  have har : (0 : ℝ) < scaledMag amplitude := by exact_mod_cast ha
  have ho := sineOrder_spec (a := magUnits m + magUnits (m + 1)) hl h ha
  have e2 : 2 * x = Real.sin (Real.pi * num / len) * scaledMag amplitude := by simp only [x]; ring
  unfold sineRoundsAbove
  cases ho2 : sineOrder len num (magUnits m + magUnits (m + 1)) (scaledMag amplitude) <;> rw [ho2] at ho <;>
    simp only [OrderIs] at ho <;> push_cast at ho
  · rw [lt_div_iff₀ har, ← e2] at ho
    simp only [Bool.false_eq_true, if_false]
    exact ⟨ho.le, fun he => absurd he ho.ne⟩
  · rw [eq_div_iff har.ne', ← e2] at ho
    rcases Nat.mod_two_eq_zero_or_one m with hm | hm
    · simp only [hm]
      exact ⟨ho.le, fun _ => hm⟩
    · simp only [hm]
      rintro k hk
      obtain rfl : m = k := by omega
      exact ⟨ho.ge, fun _ => by omega⟩
  · rw [div_lt_iff₀ har, ← e2] at ho
    simp only [if_true]
    rintro k hk
    obtain rfl : m = k := by omega
    exact ⟨ho.le, fun he => absurd he ho.ne⟩

/-- The search upward ends between the middles. -/
theorem sineRoundFrom_spec {amplitude : Word} {len num : Nat} (ha : 0 < scaledMag amplitude) (hl : 0 < len)
    (h : 2 * num ≤ len) (m n : Nat) (hlo : NotBelow ((scaledMag amplitude : ℝ) * Real.sin (Real.pi * num / len) / 2) m)
    (hhi : NotAbove ((scaledMag amplitude : ℝ) * Real.sin (Real.pi * num / len) / 2) (m + n)) :
    NotBelow ((scaledMag amplitude : ℝ) * Real.sin (Real.pi * num / len) / 2) (sineRoundFrom amplitude len num m n) ∧
      NotAbove ((scaledMag amplitude : ℝ) * Real.sin (Real.pi * num / len) / 2) (sineRoundFrom amplitude len num m n) ∧
      sineRoundFrom amplitude len num m n ≤ m + n := by
  induction n generalizing m with
  | zero => exact ⟨hlo, hhi, le_refl _⟩
  | succ n ih =>
    have hs := sineRoundsAbove_spec ha hl h m
    rw [sineRoundFrom]
    simp only at hs
    split
    · rename_i hr
      rw [if_pos hr] at hs
      obtain ⟨i1, i2, i3⟩ := ih (m + 1) hs (by rwa [show m + 1 + n = m + (n + 1) by omega])
      exact ⟨i1, i2, by omega⟩
    · rename_i hr
      rw [if_neg hr] at hs
      exact ⟨hlo, hs, by omega⟩

end Sys2Proof.Machine
end

