-- ==== Sys2Proof/Tests/Slice0.lean ====
section
/-! SUPPORT. The model's own tests.  Expected results are those of spec/95_test_vectors.md (the vector is named at each
test) or are written out from the rules; then one witness for the hypotheses of each obligation that has any. -/

namespace Sys2Proof.Tests

open Sys2Proof Sys2Proof.Machine Sys2Proof.Safety

/-! ### Well-formedness -/

theorem test_wf_refuses_id_zero : (Instr.setParamUnknown 0x00#8).wf = false := by decide
theorem test_wf_takes_id_one : (Instr.setParamUnknown 0x01#8).wf = true := by decide
theorem test_wf_refuses_kind_three : (Instr.setWaveInvalid 3#32).wf = false := by decide
theorem test_wf_takes_kind_four : (Instr.setWaveInvalid 4#32).wf = true := by decide
theorem test_wf_refuses_note_on_opcode : (Instr.reserved 0x90#8).wf = false := by decide
theorem test_wf_refuses_note_off_opcode : (Instr.reserved 0x80#8).wf = false := by decide
theorem test_wf_refuses_set_param_opcode : (Instr.reserved 0x01#8).wf = false := by decide
theorem test_wf_refuses_set_wave_opcode : (Instr.reserved 0x02#8).wf = false := by decide
theorem test_wf_takes_opcode_zero : (Instr.reserved 0x00#8).wf = true := by decide

/-! ### Decoding: words written out bit by bit from 30_encoding.md (OPC, SUB, PAYLOAD) -/

/-- OPC 1001_0000, note 69 = 0100_0101, every ignored bit 1 (T2). -/
theorem test_decode_note_on :
    decode 0b10010000_11111111_11111111_11111111_11111111_01000101#48 = .noteOn 69#8 := by decide
/-- T4. -/
theorem test_decode_note_off :
    decode 0b10000000_00010010_00110100_01010110_01111000_01000101#48 = .noteOff := by decide
/-- T5: 440.0 is 0100_0011_1101_1100 and sixteen zeros. -/
theorem test_decode_set_param :
    decode 0b00000001_00000000_01000011_11011100_00000000_00000000#48 = .setParam 0x43DC0000#32 := by decide
/-- T7. -/
theorem test_decode_set_param_unknown :
    decode 0b00000001_11111111_00000000_00000000_00000000_00000000#48 = .setParamUnknown 0xFF#8 := by decide
/-- T8, T9. -/
theorem test_decode_set_wave :
    decode 0b00000010_00000000_00000000_00000000_00000000_00000011#48 = .setWave 3#2 ∧
      decode 0b00000010_10101011_00000000_00000000_00000000_00000001#48 = .setWave 1#2 := by decide
/-- T11: the kind is all 32 bits. -/
theorem test_decode_set_wave_invalid :
    decode 0b00000010_00000000_00000000_00000001_00000000_00000000#48 = .setWaveInvalid 65536#32 := by decide
/-- T13, T16. -/
theorem test_decode_reserved :
    decode 0b00000000_00000000_00000000_00000000_00000000_00000000#48 = .reserved 0x00#8 ∧
      decode 0b11111111_11111111_11111111_11111111_11111111_11111111#48 = .reserved 0xFF#8 := by decide

/-- The three worked decodings of 30_encoding.md read through the host's numbering. -/
theorem test_decode_table_word :
    decodeTableWord 48 0x900000000045 = some (.noteOn 69#8) ∧ decodeTableWord 48 0x020000000004 = some (.setWaveInvalid 4#32) := by
  decide

/-! ### Commands: section 2.2 of the vectors -/

/-- The next state, where there is one. -/
def out : Result → Option State
  | .next s => some s
  | _ => none

/-- The start state of section 2.2: CFG-B, `FREQ = 440.0`, phases 37. -/
def vectorState : State := { State.resetOf Config.cfgB with freq := 0x43DC0000#32, lphase := 37#24, rphase := 37#24 }

/-- T18. -/
theorem test_note_on : (out (applyWord 0x90000000003C#48 vectorState)).map (·.freq) = some 0x4382D013#32 := by decide
/-- T19a: the last note. -/
theorem test_note_on_last : (out (applyWord 0x9000000000FF#48 vectorState)).map (·.freq) = some 0x4B9B9041#32 := by
  decide
/-- T19c. -/
theorem test_note_off :
    (out (applyWord 0x801234567845#48 vectorState)).map (fun s => (s.freq, s.lphase)) =
      some (0x00000000#32, 37#24) := by decide
/-- T19d. -/
theorem test_set_param : (out (applyWord 0x010080000000#48 vectorState)).map (·.freq) = some 0x80000000#32 := by decide
/-- T19g. -/
theorem test_set_param_unknown :
    (out (applyWord 0x01073F800000#48 vectorState)).map (fun s => (s.cntUnknownParam, s.freq, s.events)) =
      some (1#32, 0x43DC0000#32, [⟨0x1#4, 0x00000007#32⟩]) := by decide
/-- T28: the counter wraps. -/
theorem test_counter_wraps :
    (out (applyWord 0x010100000000#48 { vectorState with cntUnknownParam := 0xFFFFFFFF#32 })).map (·.cntUnknownParam) =
      some 0#32 := by decide
/-- T20. -/
theorem test_set_wave :
    (out (applyWord 0x020000000001#48 vectorState)).map (fun s => (s.waveSel, s.lphase, s.rphase)) =
      some (1#2, 37#24, 37#24) := by decide
/-- T21: the clamp. -/
theorem test_set_wave_clamps :
    (out (applyWord 0x020000000001#48
      { State.resetOf Config.cfg8S with lphase := 500#24, rphase := 500#24 })).map
        (fun s => (s.waveSel, s.lphase, s.rphase)) = some (1#2, 7#24, 7#24) := by decide
/-- T25. -/
theorem test_set_wave_invalid :
    (out (applyWord 0x020000010000#48 vectorState)).map (fun s => (s.cntBadWave, s.waveSel, s.events)) =
      some (1#32, 0#2, [⟨0x3#4, 0x00010000#32⟩]) := by decide
/-- T26. -/
theorem test_reserved :
    (out (applyWord 0xB00000000007#48 vectorState)).map (fun s => (s.cntUnsupported, s.events)) =
      some (1#32, [⟨0x2#4, 0x000000B0#32⟩]) := by decide

/-- A word placed for the next step is fetched, decoded and run (T1, T17). -/
theorem test_step_runs_the_placed_word :
    (out (step (State.reset.withFetchWord 48 0x900000000000))).map (fun s => (s.freq, s.q, s.drainLeft)) =
      some (0x4102D013#32, [], 0#11) := by decide

/-! ### Step computation: section 2.3 of the vectors (CFG-B) -/

/-- `SILENT` and `STEP` for a frequency. -/
def stepOf (freq : Word) : Bool × Phase :=
  let s := stepComputation { vectorState with freq := freq }
  (s.silent, s.phaseStep)

/-- T31, T39, T36: two roundings, a floor, a full reduction. -/
theorem test_step_quotients :
    stepOf 0x43DC0000#32 = (false, 9#24) ∧ stepOf 0x42306666#32 = (false, 0#24) ∧
      stepOf 0x47435000#32 = (false, 133#24) := by decide +kernel
/-- T42: an enormous quotient. -/
theorem test_step_enormous : stepOf 0x7F7FC99E#32 = (false, 296#24) := by decide +kernel
/-- T43 to T46: no positive finite quotient. -/
theorem test_step_odd :
    stepOf 0xBF800000#32 = (false, 0#24) ∧ stepOf 0x7F800000#32 = (false, 0#24) ∧
      stepOf 0x7FC00000#32 = (false, 0#24) ∧ stepOf 0x00000001#32 = (false, 0#24) := by decide +kernel
/-- T47, T48: both zeros are silent. -/
theorem test_step_silent : stepOf 0x00000000#32 = (true, 0#24) ∧ stepOf 0x80000000#32 = (true, 0#24) := by
  decide +kernel

/-! ### Wave ROM -/

/-- S7: the square bank of length 8. -/
theorem test_square_bank :
    (List.range 8).map (waveRom Config.cfg8 1#2) =
      [some 0x3F800000#32, some 0x3F800000#32, some 0x3F800000#32, some 0x3F800000#32,
       some 0xBF800000#32, some 0xBF800000#32, some 0xBF800000#32, some 0xBF800000#32] := by decide
/-- S8: the sine bank of length 8. -/
theorem test_sine_bank :
    (List.range 8).map (waveRom Config.cfg8 0#2) =
      [some 0x00000000#32, some 0x3F3504F3#32, some 0x3F800000#32, some 0x3F3504F3#32,
       some 0x00000000#32, some 0xBF3504F3#32, some 0xBF800000#32, some 0xBF3504F3#32] := by decide +kernel
/-- S5: sine indices 9, 18 and 27 of length 1000. -/
theorem test_sine_bank_1000 :
    [9, 18, 27].map (waveRom Config.cfgB 0#2) =
      [some 0x3D677FFB#32, some 0x3DE72140#32, some 0x3E2CE2AD#32] := by decide +kernel
/-- 20_memory.md R61: the exact comparison of `sin (pi*num/len)` with a fraction, at `sin (pi/6) = 1/2` (equal), at
`sin (pi/8) < 1/2 < sin (pi/5)`, and at both ends of the range. -/
theorem test_sine_order_exact :
    sineOrderExact 12 2 1 2 = .eq ∧ sineOrderExact 8 1 1 2 = .lt ∧ sineOrderExact 5 1 1 2 = .gt ∧
      sineOrderExact 8 0 0 1 = .eq ∧ sineOrderExact 8 4 1 1 = .eq ∧ sineOrderExact 8 4 2 1 = .lt := by decide
/-- The bank of S8 with entries 1 and 7 open. -/
def imageS8 (a b : Word) : List Word :=
  [0x00000000#32, a, 0x3F800000#32, 0x3F3504F3#32, 0x00000000#32, 0xBF3504F3#32, 0xBF800000#32, b]
/-- S8 supplied as an image meets 20_memory.md R62.  With one unit more in entries 1 and 7 these are over half a unit
from the sine, against (g); with the sign of entry 7 lost the image is against (f). -/
theorem test_sine_image :
    sineImageOk Config.cfg8 (imageS8 0x3F3504F3#32 0xBF3504F3#32) = true ∧
      sineImageOk Config.cfg8 (imageS8 0x3F3504F4#32 0xBF3504F4#32) = false ∧
      sineImageOk Config.cfg8 (imageS8 0x3F3504F3#32 0x3F3504F3#32) = false := by decide +kernel
/-- 20_memory.md R68: no entry at the length. -/
theorem test_no_entry_at_the_length : waveRom Config.cfg8 3#2 8 = none := by decide
/-- 00_scope.md R11: the vector configurations are legal, a bank of length 0 is not. -/
theorem test_config_legal :
    configLegal Config.cfg8 = true ∧ configLegal Config.cfgB = true ∧ configLegal Config.cfg8T = true ∧
      configLegal Config.cfg8S = true ∧ configLegal { Config.cfg8 with lenTriangle := 0 } = false := by decide

/-! ### States for the witnesses, one in each sequencer state -/

/-- Inputs of a cycle start with the right lengths. -/
def startPins : Pins := { Pins.low with cycStart := true, cycInLen := 8#32, cycOutLen := 8#32 }

/-- DRAIN with one visible word left, `NOTE_ON 69`. -/
def drainState : State := { State.reset with estate := .drain, q := [0x900000000045#48], v := 1#11, drainLeft := 1#11 }

/-- DRAIN with nothing left. -/
def drainedState : State := { State.reset with estate := .drain }

/-- STEP with a sounding frequency, the square bank and buffers of one frame. -/
def stepReady : State :=
  { State.resetOf { Config.cfg8 with fpb := 1 } with
    estate := .step, freq := 0x3F800000#32, waveSel := 1#2
    pins := { Pins.low with outReady := true, inValid := true } }

/-- EMIT, silent, before the first word. -/
def emitState : State := { State.reset with estate := .emit }

/-- FATAL with cause 1. -/
def fatalState : State :=
  { State.reset with
    estate := .fatal, fatal := true, fatalCause := 1#2, events := [⟨0x7#4, 0x00000001#32⟩] }

/-- Reset asserted. -/
def resetState : State := { State.reset with pins := { Pins.low with rst := true } }

theorem inv_reset : Inv State.reset := by constructor <;> decide

theorem inv_drainState : Inv drainState :=
  { inv_reset with
    v_le := by decide, q_le := by decide, drain_le := by decide, drain_over := by decide, fatal_iff := by decide
    estate_defined := by decide, counts_clear := by decide, step_lt := by decide, emit_silent := by decide }

theorem inv_drainedState : Inv drainedState :=
  { inv_reset with
    drain_over := by decide, fatal_iff := by decide, estate_defined := by decide, counts_clear := by decide
    step_lt := by decide, emit_silent := by decide }

theorem inv_emitState : Inv emitState :=
  { inv_reset with
    drain_over := by decide, fatal_iff := by decide, estate_defined := by decide, counts_clear := by decide
    step_lt := by decide, emit_silent := by decide }

theorem inv_fatalState : Inv fatalState :=
  { inv_reset with
    drain_over := by decide, fatal_iff := by decide, cause_iff := by decide, estate_defined := by decide
    counts_clear := by decide, step_lt := by decide, emit_silent := by decide, event_codes := by decide
    disc_once := by decide, fatal_once := by decide, cnt_unknown := by decide, cnt_unsupported := by decide
    cnt_bad_wave := by decide, cnt_in_ovf := by decide, cnt_out_unf := by decide }

theorem inv_stepReady : Inv stepReady := by constructor <;> decide

/-- `n` steps, for the witnesses that need a path. -/
def after : Nat → State → State
  | 0, s => s
  | n + 1, s =>
    match step (after n s) with
    | .next t => t
    | _ => s

/-- 43_buffer_cycle.md R230: FIFO_LEVEL follows `V` at the next `clk` edge, not at the crossing. -/
theorem test_level_shown :
    (out (performAll [.cross] { State.reset with q := [0#48] })).map (fun s => (s.v, csrRead s 0x6#4)) =
        some (1#11, 0#32) ∧
      (out (performAll [.cross, .clk] { State.reset with q := [0#48] })).map (fun s => csrRead s 0x6#4) =
        some 1#32 := by decide
/-- 10_state.md R38: the counts go on to `2 * FPB = 2^31` of the largest buffer. -/
theorem test_count_to_the_largest_buffer :
    countOf (0x7FFFFFFE#31 + 1#31) (nextFull 0x7FFFFFFE#31 false) = 2147483647 ∧
      countOf (0x7FFFFFFF#31 + 1#31) (nextFull 0x7FFFFFFF#31 false) = 2147483648 := by decide

/-- EMIT of the largest legal buffer (00_scope.md R11), with the last word of each stream left. -/
def largestLeft : State :=
  { State.resetOf { Config.cfg8 with fpb := 2 ^ 30 } with
    estate := .emit, outCnt := 0x7FFFFFFF#31, inCnt := 0x7FFFFFFF#31
    pins := { Pins.low with outReady := true, inValid := true } }

/-- 42_synthesis.md R180: after `2 * FPB = 2^31` words of each stream no word is presented or accepted. -/
theorem test_largest_buffer_fills :
    outLastOut largestLeft = true ∧
      (out (performAll [.clk] largestLeft)).map (fun s => (outCount s, inCount s, outValidOut s, inReadyOut s)) =
        some (2147483648, 2147483648, false, false) := by decide
/-- 43_buffer_cycle.md R220: the next edge completes the cycle. -/
theorem test_largest_buffer_completes :
    (out (performAll [.clk, .clk] largestLeft)).map (fun s => (s.estate, s.cntCycles)) = some (.idle, 1#32) := by decide

/-! ### Witnesses: concrete states and operands that meet the hypotheses of each obligation -/

theorem witness_DecodeOfEncodeIsIdentity :
    (Instr.noteOn 255#8).wf = true ∧ Instr.noteOff.wf = true ∧ (Instr.setParam 0xFFFFFFFF#32).wf = true ∧
      (Instr.setParamUnknown 0xFF#8).wf = true ∧ (Instr.setWave 3#2).wf = true ∧
      (Instr.setWaveInvalid 4#32).wf = true ∧ (Instr.reserved 0x91#8).wf = true := by decide

theorem witness_IgnoredFieldsDecodeTheSame :
    (0x00000045#32 : Word).extractLsb' 0 8 = (0xFFFFFF45#32 : Word).extractLsb' 0 8 := by decide

theorem witness_MidiEventsForwardUnchanged :
    (0x90#8 : BitVec 8).getLsbD 7 = true ∧ (0x80#8 : BitVec 8).getLsbD 7 = true ∧ (0xFF#8 : BitVec 8).getLsbD 7 = true := by
  decide

theorem witness_StepRunsTheDecodedWord :
    configLegal drainState.cfg = true ∧ clkNext drainState = true ∧ drainState.pins.rst = false ∧
      drainState.pins.drvFatal = false ∧ drainState.pins.cycStart = false ∧ drainState.estate = .drain ∧
      drainState.drainLeft ≠ 0#11 ∧ drainState.v ≠ 0#11 ∧ drainState.q = [0x900000000045#48] := by decide

/-- CFG-8 with its bank 0 supplied as an image. -/
def suppliedConfig : Config := { Config.cfg8 with sineRom := some (imageS8 0x3F3504F3#32 0xBF3504F3#32) }

theorem legal_suppliedConfig : configLegal suppliedConfig = true := by decide +kernel

/-- Both sides of the equivalence: a legal block, one with no port, a supplied image that has the properties and one
that has not. -/
theorem witness_IllegalConfigurationIsRefused :
    step { State.reset with cfg := { Config.cfg8 with np := 0 } } = .refused .illegalConfiguration ∧
      out (step State.reset) = some State.reset ∧
      out (step (State.resetOf suppliedConfig)) = some (State.resetOf suppliedConfig) ∧
      step (State.resetOf { Config.cfg8 with sineRom := some [] }) = .refused .illegalConfiguration :=
  ⟨rfl, by decide, by decide +kernel, rfl⟩

theorem witness_NoteOnWritesTheNoteFrequency : opcField 0x90FFFFFFFFFF#48 = 0x90#8 := by decide
theorem witness_NoteOffWritesZero : opcField 0x80FFFFFFFFFF#48 = 0x80#8 := by decide
theorem witness_SetParamCopiesThePattern :
    opcField 0x0100FFFFFFFF#48 = 0x01#8 ∧ subField 0x0100FFFFFFFF#48 = 0x00#8 := by decide
theorem witness_UnknownParamIsCountedOnly :
    opcField 0x010100000000#48 = 0x01#8 ∧ subField 0x010100000000#48 ≠ 0x00#8 := by decide
theorem witness_SetWaveSelectsTheBank :
    opcField 0x020000000003#48 = 0x02#8 ∧ (payloadField 0x020000000003#48).toNat ≤ 3 := by decide

/-- Both clauses: a legal block, and the clamp of the example. -/
theorem witness_TableSwapKeepsThePhase :
    configLegal State.reset.cfg = true ∧
      tableLen (State.resetOf Config.cfg8S).cfg 1#2 = 8 ∧
      ({ State.resetOf Config.cfg8S with lphase := 500#24 } : State).lphase = 500#24 := by decide

theorem witness_InvalidKindIsCountedOnly :
    opcField 0x020000000004#48 = 0x02#8 ∧ 3 < (payloadField 0x020000000004#48).toNat := by decide
theorem witness_ReservedOpcodeIsCountedOnly :
    opcField 0x910000000000#48 ≠ 0x90#8 ∧ opcField 0x910000000000#48 ≠ 0x80#8 ∧ opcField 0x910000000000#48 ≠ 0x01#8 ∧
      opcField 0x910000000000#48 ≠ 0x02#8 := by decide

theorem witness_EveryWordCompletes : Inv drainState ∧ drainState.estate = .drain ∧ drainState.drainLeft ≠ 0#11 :=
  ⟨inv_drainState, by decide, by decide⟩

/-- One next state for each group of instructions. -/
theorem witness_CommandsWriteOnlyTheirRegisters :
    (∃ t, exec (.noteOn 69#8) State.reset = .next t) ∧ (∃ t, exec .noteOff State.reset = .next t) ∧
      (∃ t, exec (.setParam 1#32) State.reset = .next t) ∧ (∃ t, exec (.setWave 1#2) State.reset = .next t) ∧
      (∃ t, exec (.setParamUnknown 1#8) State.reset = .next t) ∧
      (∃ t, exec (.setWaveInvalid 4#32) State.reset = .next t) ∧ ∃ t, exec (.reserved 0#8) State.reset = .next t :=
  by and_intros <;> exact ⟨_, rfl⟩

theorem witness_RationalsRoundToNearestEven : (0 : Nat) < 3 := by decide

theorem witness_QuotientsAreRoundedOnce :
    isFinite32 0x3F800000#32 = true ∧ isFinite32 0x40400000#32 = true ∧ isZero32 0x3F800000#32 = false ∧
      isZero32 0x40400000#32 = false := by decide

/-- One pair of operands for each clause. -/
theorem witness_DivisionSpecialCases :
    div32 0x7FC00000#32 0x3F800000#32 = none ∧
      (isFinite32 0x3F800000#32 = true ∧ isZero32 0x3F800000#32 = false ∧ isZero32 0x80000000#32 = true) ∧
      (isInf32 0x7F800000#32 = true ∧ isFinite32 0x3F800000#32 = true) ∧
      (isZero32 0x80000000#32 = true ∧ isFinite32 0x80000000#32 = true) ∧
      div32 0x3F800000#32 0x3F800000#32 = some 0x3F800000#32 := by decide +kernel

/-- Every clause: an index, a half and a quarter of the length. -/
theorem witness_SineBankIsCorrectlyRounded :
    configLegal Config.cfg8 = true ∧ Config.cfg8.sineRom = none ∧ 7 < Config.cfg8.lenSine ∧
      2 * 4 = Config.cfg8.lenSine ∧ 4 * 2 = Config.cfg8.lenSine := by decide

/-- Every clause: an amplitude, a length, its half, its quarter, and an index that is neither. -/
theorem witness_BuiltSineBankMeetsTheImageRules :
    posNormal 0x3F800000#32 = true ∧ (1 : Nat) ≤ 8 ∧ (8 : Nat) ≤ 2 ^ 24 ∧ 2 * 4 = 8 ∧ 4 * 2 = 8 ∧
      (1 ≤ 3 ∧ 3 < 8 ∧ 2 * 3 ≠ 8) := by decide

theorem witness_SquareBankHasTwoLevels : configLegal Config.cfg8 = true ∧ 0 < Config.cfg8.lenSquare := by decide
theorem witness_SawtoothBankIsARoundedRamp :
    configLegal Config.cfg8 = true ∧ 0 < Config.cfg8.lenSawtooth ∧ 2 * 4 = Config.cfg8.lenSawtooth := by decide

/-- Every clause, at the indexes where they meet. -/
theorem witness_TriangleBankIsRounded :
    configLegal Config.cfg8 = true ∧ 2 < Config.cfg8.lenTriangle ∧ 4 * 2 ≤ Config.cfg8.lenTriangle ∧
      (Config.cfg8.lenTriangle < 4 * 6 ∧ 4 * 6 ≤ 3 * Config.cfg8.lenTriangle) ∧
      3 * Config.cfg8.lenTriangle < 4 * 7 := by decide

/-- Every clause: a built bank, a supplied one, a state that meets the invariant, and one that reads past the bank. -/
theorem witness_TableReadsAreInRange :
    configLegal Config.cfg8 = true ∧
      (configLegal suppliedConfig = true ∧ suppliedConfig.sineRom = some (imageS8 0x3F3504F3#32 0xBF3504F3#32)) ∧
      Inv emitState ∧
      outPending { emitState with silent := false, lphase := 8#24 } = true ∧
      tableLen emitState.cfg emitState.waveSel ≤
        (if outCount emitState % 2 = 0 then (8#24 : Phase) else emitState.rphase).toNat :=
  ⟨by decide, ⟨legal_suppliedConfig, rfl⟩, inv_emitState, by decide, by decide⟩

/-- A pattern is the rounding of its own value. -/
theorem isRnd32_self {w : Word} {x : ℝ} (hx : x = (val32 w : ℝ)) (hf : isFinite32 w = true) (hp : signBit w = false)
    (h0 : 0 < x) (h1 : x < (2 : ℝ) ^ 128 - 2 ^ 103) : IsRnd32 x w where
  zero h := absurd h h0.ne'
  overflow h := by rw [abs_of_pos h0] at h; linarith
  nearest _ _ := by
    refine ⟨hf, by rw [hp]; simp [h0.le], fun u _ => ⟨by rw [hx]; simp, fun h hne => absurd ?_ hne⟩⟩
    rw [hx, sub_self, abs_zero] at h
    have hz : (val32 w : ℝ) - (val32 u : ℝ) = 0 := abs_eq_zero.mp h.symm
    exact_mod_cast (sub_eq_zero.mp hz).symm

theorem val32_one : val32 0x3F800000#32 = 1 := by decide +kernel
theorem val32_eight : val32 0x41000000#32 = 8 := by decide +kernel

/-- A STEP edge; and CFG-8 at 1.0, where the quotients are 8.0 and 1.0 exactly. -/
theorem witness_StepIsTheFloorOfTwoRoundedQuotients :
    (stepReady.estate = .step ∧ stepReady.pins.rst = false ∧ stepReady.pins.drvFatal = false ∧
      stepReady.pins.cycStart = false) ∧
    posNormal stepReady.cfg.sampleRate = true ∧ 1 ≤ tableLen stepReady.cfg stepReady.waveSel ∧
      tableLen stepReady.cfg stepReady.waveSel ≤ 2 ^ 24 ∧ isFinite32 stepReady.freq = true ∧
      signBit stepReady.freq = false ∧ isZero32 stepReady.freq = false ∧
      IsRnd32 ((val32 stepReady.cfg.sampleRate : ℝ) / (val32 stepReady.freq : ℝ)) 0x41000000#32 ∧
      isFinite32 0x41000000#32 = true ∧ isZero32 0x41000000#32 = false ∧
      IsRnd32 ((tableLen stepReady.cfg stepReady.waveSel : ℝ) / (val32 0x41000000#32 : ℝ)) 0x3F800000#32 ∧
      isFinite32 0x3F800000#32 = true := by
  have e1 : (val32 stepReady.cfg.sampleRate : ℝ) = 8 := by exact_mod_cast congrArg (Rat.cast (K := ℝ)) val32_eight
  have e2 : (val32 stepReady.freq : ℝ) = 1 := by exact_mod_cast congrArg (Rat.cast (K := ℝ)) val32_one
  have e3 : (val32 0x41000000#32 : ℝ) = 8 := e1
  have e4 : (tableLen stepReady.cfg stepReady.waveSel : ℝ) = 8 := by
    have : tableLen stepReady.cfg stepReady.waveSel = 8 := by decide
    rw [this]; norm_num
  refine ⟨by decide, by decide, by decide, by decide, by decide, by decide, by decide, ?_, by decide, by decide, ?_,
    by decide⟩
  · rw [e1, e2]
    exact isRnd32_self (by rw [e3]; norm_num) (by decide) (by decide) (by norm_num) (by norm_num)
  · rw [e4, e3]
    have e5 : (val32 0x3F800000#32 : ℝ) = 1 := e2
    exact isRnd32_self (by rw [e5]; norm_num) (by decide) (by decide) (by norm_num) (by norm_num)

theorem witness_SilenceIsEitherZero : isNaN32 0x7FC00000#32 = true := by decide

/-- From `2^128 - 2^103` on a positive number is rounded to +inf. -/
theorem isRnd32_inf {x : ℝ} (h : (2 : ℝ) ^ 128 - 2 ^ 103 ≤ x) : IsRnd32 x 0x7F800000#32 := by
  have hx : 0 < x := lt_of_lt_of_le (by norm_num) h
  refine ⟨fun h0 => absurd h0 hx.ne', fun _ => ⟨by decide, by simp [show signBit 0x7F800000#32 = false by decide, hx.le]⟩,
    fun _ hlt => absurd h ?_⟩
  rwa [abs_of_pos hx, ← not_le] at hlt

/-- A positive number below half the least positive pattern is rounded to +0.0. -/
theorem isRnd32_zero {x : ℝ} (h0 : 0 < x) (h : x < 1 / 2 ^ 150) : IsRnd32 x 0x00000000#32 := by
  refine ⟨fun _ => rfl, fun hge => ?_, fun _ _ => ⟨by decide, by simp [show signBit 0x00000000#32 = false by decide, h0.le],
    fun u _ => ?_⟩⟩
  · rw [abs_of_pos h0] at hge
    exact absurd (hge.trans_lt h) (by norm_num)
  · have hz : (val32 0x00000000#32 : ℝ) = 0 := by
      have : val32 0x00000000#32 = 0 := by decide +kernel
      exact_mod_cast congrArg (Rat.cast (K := ℝ)) this
    rw [hz, sub_zero, abs_of_pos h0]
    rcases Nat.eq_zero_or_pos (magOf u) with hm | hm
    · have hu : (val32 u : ℝ) = 0 := abs_eq_zero.mp (by rw [abs_val32, hm]; norm_num [magUnits])
      rw [hu, sub_zero, abs_of_pos h0]
      refine ⟨le_rfl, fun _ hne => absurd ?_ hne⟩
      exact_mod_cast hu.trans hz.symm
    · have hone : (1 : ℝ) ≤ magUnits (magOf u) := by
        exact_mod_cast Nat.lt_of_le_of_lt (Nat.zero_le _) (magUnits_mono hm)
      have hbig : (1 : ℝ) / 2 ^ 149 ≤ |(val32 u : ℝ)| := by rw [abs_val32]; gcongr
      have hfar := abs_sub_abs_le_abs_sub (val32 u : ℝ) x
      rw [abs_of_pos h0, abs_sub_comm] at hfar
      have hlt : x < |x - (val32 u : ℝ)| := by
        have e : (1 : ℝ) / 2 ^ 149 = 1 / 2 ^ 150 + 1 / 2 ^ 150 := by norm_num
        linarith
      exact ⟨hlt.le, fun h => absurd h hlt.ne⟩

/-- CFG-8 at the least normal sample rate, `2^-126`. -/
def slowConfig : Config := { Config.cfg8 with sampleRate := 0x00800000#32 }

theorem val32_least : val32 0x00000001#32 = 1 / 2 ^ 149 := by decide +kernel
theorem val32_cfgB : val32 Config.cfgB.sampleRate = 44100 := by decide +kernel
theorem val32_slow : val32 slowConfig.sampleRate = 1 / 2 ^ 126 := by decide +kernel
theorem val32_two_to_120 : val32 0x7B800000#32 = 2 ^ 120 := by decide +kernel
theorem val32_two_to_23 : val32 0x4B000000#32 = 2 ^ 23 := by decide +kernel

/-- The first clause: a NaN, an infinity, a negative number. -/
theorem witness_OddFrequenciesGiveStepZero :
    configLegal State.reset.cfg = true ∧ isNaN32 0x7FC00000#32 = true ∧ isInf32 0xFF800000#32 = true ∧
      (signBit 0x80000001#32 = true ∧ isZero32 0x80000001#32 = false) := by decide

/-- The second clause, `q1` an infinity: T46, the least positive number. -/
theorem witness_OddFrequenciesGiveStepZero_overflow :
    isFinite32 0x00000001#32 = true ∧ signBit 0x00000001#32 = false ∧ isZero32 0x00000001#32 = false ∧
      configLegal Config.cfgB = true ∧ isInf32 0x7F800000#32 = true ∧
      IsRnd32 ((val32 Config.cfgB.sampleRate : ℝ) / (val32 0x00000001#32 : ℝ)) 0x7F800000#32 := by
  refine ⟨by decide, by decide, by decide, by decide, by decide, isRnd32_inf ?_⟩
  rw [val32_cfgB, val32_least]
  norm_num

/-- The second clause, `q1` zero: `2^-126` over `2^120`. -/
theorem witness_OddFrequenciesGiveStepZero_underflow :
    isFinite32 0x7B800000#32 = true ∧ signBit 0x7B800000#32 = false ∧ isZero32 0x7B800000#32 = false ∧
      configLegal slowConfig = true ∧ isZero32 0x00000000#32 = true ∧
      IsRnd32 ((val32 slowConfig.sampleRate : ℝ) / (val32 0x7B800000#32 : ℝ)) 0x00000000#32 := by
  refine ⟨by decide, by decide, by decide, by decide, by decide, ?_⟩
  rw [val32_slow, val32_two_to_120]
  exact isRnd32_zero (by norm_num) (by norm_num)

/-- The third clause: `2^-126` over `2^23` is `2^-149` exactly, and 8 over that is over the range. -/
theorem witness_OddFrequenciesGiveStepZero_second :
    isFinite32 0x4B000000#32 = true ∧ signBit 0x4B000000#32 = false ∧ isZero32 0x4B000000#32 = false ∧
      configLegal slowConfig = true ∧
      IsRnd32 ((val32 slowConfig.sampleRate : ℝ) / (val32 0x4B000000#32 : ℝ)) 0x00000001#32 ∧
      isFinite32 0x00000001#32 = true ∧ isZero32 0x00000001#32 = false ∧
      IsRnd32 ((tableLen slowConfig 0#2 : ℝ) / (val32 0x00000001#32 : ℝ)) 0x7F800000#32 ∧
      isInf32 0x7F800000#32 = true := by
  refine ⟨by decide, by decide, by decide, by decide, ?_, by decide, by decide, isRnd32_inf ?_, by decide⟩
  · rw [val32_slow, val32_two_to_23]
    refine isRnd32_self ?_ (by decide) (by decide) (by norm_num) (by norm_num)
    rw [val32_least]
    norm_num
  · rw [val32_least, show tableLen slowConfig 0#2 = 8 by decide]
    norm_num

theorem witness_AdvanceIsAdditionModulo :
    configLegal stepReady.cfg = true ∧ (7#24 : Phase).toNat < tableLen stepReady.cfg stepReady.waveSel := by decide

/-- STEP with `FREQ = -0.0` and buffers of one frame. -/
def silentReady : State := { stepReady with freq := 0x80000000#32 }

theorem inv_silentReady : Inv silentReady := by constructor <;> decide

/-- One buffer of one frame step by step: a sounding one, and a silent one. -/
theorem witness_BufferHasItsClosedForm :
    (Inv stepReady ∧ stepReady.estate = .step ∧ step stepReady = .next (after 1 stepReady) ∧
      StaysIn .emit (after 1 stepReady) (after 3 stepReady) ∧ step (after 3 stepReady) = .next (after 4 stepReady) ∧
      (after 4 stepReady).estate = .idle ∧ (after 3 stepReady).pins.rst = false ∧ isZero32 stepReady.freq = false) ∧
    Inv silentReady ∧ silentReady.estate = .step ∧ step silentReady = .next (after 1 silentReady) ∧
      StaysIn .emit (after 1 silentReady) (after 3 silentReady) ∧
      step (after 3 silentReady) = .next (after 4 silentReady) ∧
      (after 4 silentReady).estate = .idle ∧ (after 3 silentReady).pins.rst = false ∧
      isZero32 silentReady.freq = true :=
  ⟨⟨inv_stepReady, rfl, by rfl,
     .tail _ _ _ (.tail _ _ _ (.refl _ (by decide +kernel)) (by rfl) (by decide +kernel)) (by rfl) (by decide +kernel),
     by rfl, by decide +kernel, by decide +kernel, by decide⟩,
   inv_silentReady, rfl, by rfl,
   .tail _ _ _ (.tail _ _ _ (.refl _ (by decide +kernel)) (by rfl) (by decide +kernel)) (by rfl) (by decide +kernel),
   by rfl, by decide +kernel, by decide +kernel, by decide⟩

/-- A granted port that offers a word and is ready, one that does not exist, and a full FIFO. -/
theorem witness_TransferAppendsTheWord :
    State.reset.pins.rst = false ∧
      wclkEdge (some 0) 3 { State.reset with pins := { Pins.low with ports := [⟨true, 7#48, false⟩] } } =
        { State.reset with
          pins := { Pins.low with ports := [⟨true, 7#48, false⟩] }, q := [7#48], arbst := 3 } ∧
      wclkEdge (some 1) 3 State.reset = { State.reset with arbst := 3 } := by decide

/-- A ready port, and a full FIFO. -/
theorem witness_AtMostOnePortIsReady :
    portReady State.reset (some 0) 0 = true ∧
      ({ State.reset with q := List.replicate 1024 0#48 } : State).q.length = depth :=
  ⟨by decide, List.length_replicate⟩

/-- An invisible word, none, and an attach sample. -/
theorem witness_CrossingMovesOneWordOrOneSample :
    ({ State.reset with q := [0#48] } : State).pins.rst = false ∧
      ({ State.reset with q := [0#48] } : State).q.length ≤ depth ∧
      ({ State.reset with q := [0#48] } : State).v.toNat < ({ State.reset with q := [0#48] } : State).q.length ∧
      State.reset.q.length ≤ State.reset.v.toNat ∧ (portPins State.reset 0).attach = false := by decide

theorem witness_PopTakesTheOldestWord :
    drainState.q = [0x900000000045#48] ∧ drainState.v ≠ 0#11 ∧ Inv drainState ∧ drainState.estate = .drain ∧
      drainState.drainLeft ≠ 0#11 ∧ State.reset.v = 0#11 :=
  ⟨rfl, by decide, inv_drainState, rfl, by decide, rfl⟩

/-- A `wclk` edge next, port 0 granted and offering a word. -/
def transferState : State :=
  { State.reset with
    pins := { Pins.low with ports := [⟨true, 7#48, false⟩] }, schedule := [.wclk (some 0) 0] }

theorem inv_transferState : Inv transferState := { inv_reset with rst_counts := by decide }

/-- A step of each of the three cases: nothing moves, a word is applied, a word is transferred. -/
theorem witness_WordsStayInTransferOrder :
    (Inv State.reset ∧ step State.reset = .next (after 1 State.reset) ∧ resetNext State.reset = false) ∧
    (Inv drainState ∧ step drainState = .next (after 1 drainState) ∧ resetNext drainState = false ∧
      (after 1 drainState).q = []) ∧
    (Inv transferState ∧ step transferState = .next (after 1 transferState) ∧ resetNext transferState = false ∧
      (after 1 transferState).q = [7#48]) :=
  ⟨⟨inv_reset, by rfl, by decide⟩, ⟨inv_drainState, by rfl, by decide, by decide⟩,
   inv_transferState, by rfl, by decide, by decide⟩

/-- IDLE with a cycle start offered and one visible word. -/
def startState : State := { State.reset with pins := startPins, q := [0x900000000045#48], v := 1#11 }

/-- The same with the start withdrawn at the next step, so that the drain is not overlapped. -/
def startThenRun : State := { startState with schedule := [.clk, .drive Pins.low] }

theorem inv_startThenRun : Inv startThenRun :=
  { inv_reset with
    v_le := by decide, q_le := by decide, drain_le := by decide, drain_over := by decide
    rst_counts := by decide }

/-- A drain of one word: start, `drive`, drain step, drain end. -/
theorem witness_DrainAppliesTheSnapshot :
    Inv startThenRun ∧ startThenRun.estate = .idle ∧ step startThenRun = .next (after 1 startThenRun) ∧
      (after 1 startThenRun).estate = .drain ∧ StaysIn .drain (after 1 startThenRun) (after 3 startThenRun) ∧
      step (after 3 startThenRun) = .next (after 4 startThenRun) ∧ (after 4 startThenRun).estate = .step :=
  ⟨inv_startThenRun, rfl, by rfl, by decide,
   .tail _ _ _ (.tail _ _ _ (.refl _ (by decide)) (by rfl) (by decide)) (by rfl) (by decide), by rfl, by decide⟩

/-- An execution that crosses at every step. -/
def crossingRun : Nat → State
  | 0 => { State.reset with q := [0x900000000045#48] }
  | _ + 1 => { State.reset with q := [0x900000000045#48], v := 1#11 }

theorem witness_EveryWordBecomesVisible :
    IsExecution (fun _ => .cross) crossingRun ∧ NeverReset crossingRun ∧ FairCrossing (fun _ => .cross) crossingRun ∧
      (crossingRun 0).v.toNat < (crossingRun 0).q.length := by
  refine ⟨⟨?_, ?_⟩, ?_, fun t _ => ⟨t, le_rfl, rfl⟩, by decide⟩
  · exact { inv_reset with v_le := by decide, q_le := by decide }
  · intro t
    cases t <;> rfl
  · intro t
    cases t <;> rfl

theorem witness_OnlyTheEngineWritesTheOscillator :
    Action.cross ≠ .clk ∧ perform .cross (crossingRun 0) = .next (crossingRun 1) := ⟨by decide, by rfl⟩

theorem witness_CycleStartTakesTheSnapshot :
    startState.estate = .idle ∧ startState.pins.rst = false ∧ startState.pins.drvFatal = false ∧
      startState.pins.cycStart = true ∧ startState.pins.cycInLen.toNat = 2 * startState.cfg.fpb ∧
      startState.pins.cycOutLen.toNat = 2 * startState.cfg.fpb := by decide

/-- Each side of the disjunction. -/
theorem witness_WrongLengthIsFatal :
    ({ startPins with cycInLen := 7#32 } : Pins).cycInLen.toNat ≠ 2 * startState.cfg.fpb ∧
      ({ startPins with cycOutLen := 9#32 } : Pins).cycOutLen.toNat ≠ 2 * startState.cfg.fpb ∧
      startState.estate = .idle ∧ startState.pins.rst = false ∧ startState.pins.drvFatal = false ∧
      startState.pins.cycStart = true := by decide

theorem witness_DrainEndChecksTheConnection :
    drainedState.estate = .drain ∧ drainedState.drainLeft = 0#11 ∧ drainedState.pins.rst = false ∧
      drainedState.pins.drvFatal = false ∧ drainedState.pins.cycStart = false := by decide

/-- EMIT with the output complete and input words left (T84). -/
def inputLeft : State :=
  { emitState with outCnt := 8#31, inCnt := 7#31, outWords := List.replicate 8 0x00000000#32 }

/-- EMIT, sounding, with the right word of the last frame left: the last and an odd output index. -/
def lastLeft : State :=
  { stepReady with
    estate := .emit, silent := false, phaseStep := 1#24, outCnt := 1#31, outWords := [0x3F800000#32] }

/-- Both clauses: the first word, the last one, and only input words left. -/
theorem witness_EmitMovesTheStreams :
    (configLegal emitState.cfg = true ∧ emitState.estate = .emit ∧ emitState.pins.rst = false ∧
      emitState.pins.drvFatal = false ∧ emitState.pins.cycStart = false ∧ outCount emitState < 2 * emitState.cfg.fpb ∧
      sampleWord emitState (outCount emitState) = some 0x00000000#32) ∧
    (configLegal lastLeft.cfg = true ∧ lastLeft.estate = .emit ∧ lastLeft.pins.rst = false ∧
      lastLeft.pins.drvFatal = false ∧ lastLeft.pins.cycStart = false ∧ outCount lastLeft + 1 = 2 * lastLeft.cfg.fpb ∧
      outCount lastLeft % 2 = 1 ∧ sampleWord lastLeft (outCount lastLeft) = some 0x3F800000#32) ∧
    (configLegal inputLeft.cfg = true ∧ inputLeft.estate = .emit ∧ inputLeft.pins.rst = false ∧
      inputLeft.pins.drvFatal = false ∧ inputLeft.pins.cycStart = false ∧
      outCount inputLeft = 2 * inputLeft.cfg.fpb ∧ inCount inputLeft < 2 * inputLeft.cfg.fpb) := by decide

/-- EMIT with both streams complete. -/
def completeState : State :=
  { emitState with outCnt := 8#31, inCnt := 8#31, outWords := List.replicate 8 0x00000000#32 }

/-- Every clause: complete, neither stream begun, and IDLE without a cycle start. -/
theorem witness_CycleCompletesWhenBothStreamsAre :
    (completeState.estate = .emit ∧ completeState.pins.rst = false ∧ completeState.pins.drvFatal = false ∧
      completeState.pins.cycStart = false ∧ outCount completeState = 2 * completeState.cfg.fpb ∧
      inCount completeState = 2 * completeState.cfg.fpb) ∧
    (outCount emitState ≠ 2 * emitState.cfg.fpb ∧ perform .clk emitState = .next (after 1 emitState)) ∧
    State.reset.estate = .idle ∧ State.reset.pins.rst = false ∧ State.reset.pins.drvFatal = false ∧
      State.reset.pins.cycStart = false :=
  ⟨by decide, ⟨by decide, by rfl⟩, by decide⟩

/-- One step in each state of the sequencer, a fatal one, a reset edge and a step of another agent. -/
theorem witness_SequencerTakesOnlyItsTransitions :
    (Inv State.reset ∧ step State.reset = .next (after 1 State.reset)) ∧
    (Inv startThenRun ∧ step startThenRun = .next (after 1 startThenRun)) ∧
    (Inv drainState ∧ step drainState = .next (after 1 drainState)) ∧
    (Inv drainedState ∧ step drainedState = .next (after 1 drainedState)) ∧
    (Inv stepReady ∧ step stepReady = .next (after 1 stepReady)) ∧
    (Inv emitState ∧ step emitState = .next (after 1 emitState)) ∧
    (Inv fatalState ∧ step fatalState = .next (after 1 fatalState)) ∧
    resetNext resetState = true ∧ step resetState = .next (after 1 resetState) ∧
    clkNext { State.reset with schedule := [.cross] } = false :=
  ⟨⟨inv_reset, by rfl⟩, ⟨inv_startThenRun, by rfl⟩, ⟨inv_drainState, by rfl⟩, ⟨inv_drainedState, by rfl⟩,
   ⟨inv_stepReady, by rfl⟩, ⟨inv_emitState, by rfl⟩, ⟨inv_fatalState, by rfl⟩, by decide, by rfl, by decide⟩

/-- A driver error, an overlap and a reset. -/
theorem witness_FatalConditionsHavePriority :
    (({ Pins.low with drvFatal := true } : Pins).drvFatal = true ∧ State.reset.estate ≠ .fatal) ∧
    (({ drainState with pins := startPins } : State).pins.cycStart = true ∧ drainState.estate = .drain) ∧
    resetState.pins.rst = true := by decide

theorem witness_FatalKeepsTheFirstCause :
    Inv fatalState ∧ fatalState.estate = .fatal ∧ step fatalState = .next (after 1 fatalState) ∧
      resetNext fatalState = false := ⟨inv_fatalState, rfl, by rfl, by decide⟩

/-- Every clause: FATAL, the three quiet states, and a state that is not FATAL. -/
theorem witness_OutputsFollowTheSequencer :
    (Inv fatalState ∧ fatalState.estate = .fatal ∧ fatalState.pins.rst = false) ∧
    (State.reset.estate = .idle ∧ drainState.estate = .drain ∧ stepReady.estate = .step ∧
      State.reset.pins.rst = false ∧ drainState.pins.rst = false ∧ stepReady.pins.rst = false) ∧
    Inv emitState ∧ emitState.estate ≠ .fatal :=
  ⟨⟨inv_fatalState, rfl, rfl⟩, by decide, inv_emitState, by decide⟩

theorem witness_ResetEdgeResetsEverything : resetState.pins.rst = true := rfl
theorem witness_ResetQuietsTheOutputs : resetState.pins.rst = true := rfl

/-- Reset about to end, too early and in time. -/
theorem witness_ShortResetIsRefused :
    resetState.pins.rst = true ∧ Pins.low.rst = false ∧
      drivePins Pins.low resetState = .refused .resetTooShort ∧
      (out (drivePins Pins.low { resetState with rstClkEdges := 2 })).isSome = true :=
  ⟨rfl, rfl, rfl, by decide⟩

/-- A legal block, a `clk` edge, a crossing step, and both ends of the range of addresses. -/
theorem witness_RegisterPortShowsTheMap :
    configLegal State.reset.cfg = true ∧ perform .clk drainState = .next (after 1 drainState) ∧
      (Action.cross ≠ .clk ∧ perform .cross (crossingRun 0) = .next (crossingRun 1)) ∧
      2 ≤ (2#4 : BitVec 4).toNat ∧ (12#4 : BitVec 4).toNat ≤ 12 :=
  ⟨by decide, by rfl, ⟨by decide, by rfl⟩, by decide⟩

theorem witness_ParametersStayAndEventsAppend :
    step drainedState = .next (after 1 drainedState) ∧ resetNext drainedState = false := ⟨by rfl, by decide⟩

theorem witness_EveryStepKeepsTheInvariant : Inv drainState ∧ step drainState = .next (after 1 drainState) :=
  ⟨inv_drainState, by rfl⟩

theorem witness_InvariantHoldsAtReset : configLegal Config.cfg8T = true := by decide
theorem witness_InvariantExcludesFaults : Inv drainState := inv_drainState

end Sys2Proof.Tests
end

/-! Correct rounding: the model's `rnd32` and magnitudes between their middles, against `IsRnd32` (00_scope.md R19). -/

namespace Sys2Proof.Machine

open Sys2Proof.Safety

/-- `m` is a nearest magnitude of `X` (both in units of `2^-149`), with an even last place at a tie. -/
def IsNearestMag (X : ℝ) (m : Nat) : Prop :=
  ∀ u, |X - magUnits m| ≤ |X - magUnits u| ∧
    (|X - magUnits m| = |X - magUnits u| → magUnits u ≠ magUnits m → m % 2 = 0)

/-- The factor that a sign bit stands for. -/
def signFactor (neg : Bool) : ℝ := if neg then -1 else 1

@[simp] theorem signFactor_true : signFactor true = -1 := rfl
@[simp] theorem signFactor_false : signFactor false = 1 := rfl

theorem abs_signFactor_mul (neg : Bool) (x : ℝ) : |signFactor neg * x| = |x| := by cases neg <;> simp

theorem abs_signFactor_mul_of_pos (neg : Bool) {x : ℝ} (hx : 0 < x) : |signFactor neg * x| = x := by
  rw [abs_signFactor_mul, abs_of_pos hx]

theorem signFactor_mul_ne_zero (neg : Bool) {x : ℝ} (hx : 0 < x) : signFactor neg * x ≠ 0 :=
  abs_pos.mp (by rwa [abs_signFactor_mul_of_pos neg hx])

theorem signFactor_mul_neg_iff {neg : Bool} {x : ℝ} (hx : 0 < x) : neg = true ↔ signFactor neg * x < 0 := by
  cases neg <;> simp [hx, hx.le]

/-- A pattern's value in units of `2^-149`. -/
theorem val32_eq_signFactor (w : Word) : (val32 w : ℝ) * 2 ^ 149 = signFactor (signBit w) * magUnits (magOf w) := by
  rw [val32_eq, signFactor]
  field_simp

/-- A pattern is no nearer than its magnitude is: an unlike sign only adds to the distance. -/
theorem abs_sub_mag_le (X : ℝ) (neg : Bool) (u : Word) (hX : 0 ≤ X) :
    |X - magUnits (magOf u)| ≤ |signFactor neg * X - (val32 u : ℝ) * 2 ^ 149| := by
  have h := abs_abs_sub_abs_le (signFactor neg * X) ((val32 u : ℝ) * 2 ^ 149)
  rwa [val32_eq_signFactor, abs_signFactor_mul, abs_signFactor_mul, abs_of_nonneg hX, Nat.abs_cast,
    ← val32_eq_signFactor] at h

/-- Two values of one magnitude at one distance from a number other than zero are the same. -/
theorem eq_of_abs_sub_eq {x a b : ℝ} (hx : x ≠ 0) (hab : |a| = |b|) (h : |x - a| = |x - b|) : a = b := by
  rcases abs_eq_abs.mp hab with rfl | rfl
  · rfl
  · rcases abs_eq_abs.mp h with h | h
    · linarith
    · exact absurd (by linarith : x = 0) hx

/-- A nearest finite magnitude, with the number's sign, is the correct rounding: a pattern of the other sign is never
nearer, and as near only if it is a zero. -/
theorem isRnd32_of_nearest {x : ℝ} {m : Nat} (neg : Bool) (hx : 0 < x) (hlt : x < (2 : ℝ) ^ 128 - 2 ^ 103)
    (hm : m < 0x7F800000) (hn : IsNearestMag (x * 2 ^ 149) m) : IsRnd32 (signFactor neg * x) (withSign neg m) := by
  have hX : 0 < x * 2 ^ 149 := by positivity
  have hmag : magOf (withSign neg m) = m := magOf_withSign neg (by omega)
  have hsign : signBit (withSign neg m) = neg := signBit_withSign neg (by omega)
  have habs := abs_signFactor_mul_of_pos neg hx
  have hne := signFactor_mul_ne_zero neg hx
  refine ⟨fun h => absurd h hne, fun h => absurd h (by rw [habs]; exact not_le.mpr hlt), fun _ _ => ?_⟩
  refine ⟨(isFinite32_iff _).mpr (by rwa [hmag]), by rw [hsign]; exact signFactor_mul_neg_iff hx, fun u _ => ?_⟩
  have scale : ∀ v : Word, |signFactor neg * x - val32 v| * 2 ^ 149 =
      |signFactor neg * (x * 2 ^ 149) - (val32 v : ℝ) * 2 ^ 149| := fun v => by
    rw [← mul_assoc, ← sub_mul, abs_mul, abs_of_pos (by positivity : (0 : ℝ) < 2 ^ 149)]
  have hw : |signFactor neg * x - val32 (withSign neg m)| * 2 ^ 149 = |x * 2 ^ 149 - magUnits m| := by
    rw [scale, val32_eq_signFactor, hsign, hmag, ← mul_sub, abs_signFactor_mul]
  have hu := abs_sub_mag_le (x * 2 ^ 149) neg u hX.le
  rw [← scale] at hu
  obtain ⟨near, tie⟩ := hn (magOf u)
  rw [← hw] at near tie
  refine ⟨le_of_mul_le_mul_right (near.trans hu) (by positivity), fun heq hval => ?_⟩
  rw [getLsbD_zero, hmag]
  refine tie (le_antisymm near (by rwa [heq])) fun hmu => hval ?_
  have hv : |(val32 u : ℝ)| = |(val32 (withSign neg m) : ℝ)| := by rw [abs_val32, abs_val32, hmag, hmu]
  exact_mod_cast (eq_of_abs_sub_eq hne hv.symm heq).symm

/-- `roundMag_nearest` for the quotient itself. -/
theorem isNearestMag_roundMag {num den : Nat} (hd : 0 < den) (hf : roundMag num den < 0x7F800000) :
    IsNearestMag ((num : ℝ) / den * 2 ^ 149) (roundMag num den) := by
  intro u
  rw [div_mul_eq_mul_div]
  exact roundMag_nearest num den hd hf u

/-- From `2^128 - 2^103` on the rounding is an infinity of the number's sign. -/
theorem isRnd32_withSign_inf {x : ℝ} (neg : Bool) (hx : 0 < x) (h : (2 : ℝ) ^ 128 - 2 ^ 103 ≤ x) :
    IsRnd32 (signFactor neg * x) (withSign neg 0x7F800000) := by
  have habs := abs_signFactor_mul_of_pos neg hx
  have hne := signFactor_mul_ne_zero neg hx
  refine ⟨fun h0 => absurd h0 hne, fun _ => ⟨(isInf32_iff _).mpr (magOf_withSign neg (by norm_num)), ?_⟩,
    fun _ hlt => absurd h (by rw [habs] at hlt; exact not_le.mpr hlt)⟩
  rw [signBit_withSign neg (by norm_num)]
  exact signFactor_mul_neg_iff hx

/-- `rnd32(0)` is +0.0 (00_scope.md R19). -/
theorem isRnd32_zeroValue : IsRnd32 0 0x00000000#32 :=
  ⟨fun _ => rfl, fun h => absurd h (by norm_num), fun h => absurd rfl h⟩

/-- `rnd32` of a rational is its correct rounding (00_scope.md R19). -/
theorem isRnd32_rnd32 (neg : Bool) (num : Nat) {den : Nat} (hd : 0 < den) :
    IsRnd32 (signFactor neg * ((num : ℝ) / den)) (rnd32 neg num den) := by
  rcases Nat.eq_zero_or_pos num with rfl | hn
  · simpa [rnd32] using isRnd32_zeroValue
  have hx : (0 : ℝ) < num / den := by positivity
  rw [rnd32, if_neg hn.ne']
  rcases (roundMag_le num den).lt_or_eq with hf | hf
  · have hlt := fun h => hf.ne ((roundMag_overflow num den hd).mpr h)
    exact isRnd32_of_nearest neg hx (not_le.mp hlt) hf (isNearestMag_roundMag hd hf)
  · rw [hf]
    exact isRnd32_withSign_inf neg hx ((roundMag_overflow num den hd).mp hf)

/-- The largest finite magnitude. -/
theorem magUnits_top : magUnits 0x7F7FFFFF = (2 ^ 24 - 1) * 2 ^ 253 := by
  rw [← magUnits_add (by norm_num) (.inr (by norm_num))]
  norm_num

/-- The magnitude after it, which the pattern of infinity would have. -/
theorem magUnits_inf : magUnits 0x7F800000 = 2 ^ 24 * 2 ^ 253 := by
  rw [← magUnits_add (by norm_num) (.inr (by norm_num))]
  norm_num

/-- A rational that is a magnitude is rounded to it. -/
theorem roundMag_of_magUnits {num den m : Nat} (hd : 0 < den) (hm : m < 0x7F800000)
    (h : num * 2 ^ 149 = magUnits m * den) : roundMag num den = m := by
  have hval : (num : ℝ) / den * 2 ^ 149 = magUnits m := by
    have hden : (den : ℝ) ≠ 0 := by exact_mod_cast hd.ne'
    have hreal : (num : ℝ) * 2 ^ 149 = magUnits m * den := by exact_mod_cast h
    rw [div_mul_eq_mul_div, hreal, mul_div_cancel_right₀ _ hden]
  have hfin : roundMag num den < 0x7F800000 := by
    refine lt_of_le_of_ne (roundMag_le num den) fun ho => ?_
    have hbig := (roundMag_overflow num den hd).mp ho
    have htop : (magUnits m : ℝ) ≤ magUnits 0x7F7FFFFF := by
      exact_mod_cast magUnits_mono.monotone (show m ≤ 0x7F7FFFFF by omega)
    rw [← hval, magUnits_top] at htop
    push_cast at htop
    linarith
  obtain ⟨near, -⟩ := isNearestMag_roundMag hd hfin m
  rw [hval, sub_self, abs_zero, abs_nonpos_iff, sub_eq_zero] at near
  exact magUnits_mono.injective (by exact_mod_cast near.symm)

/-- What does not round above a finite magnitude is below the overflow: the largest magnitude is odd, so its upper tie
is excluded. -/
theorem lt_overflow_of_notAbove {x : ℝ} {m : Nat} (hm : m < 0x7F800000) (ha : NotAbove (x * 2 ^ 149) m) :
    x < (2 : ℝ) ^ 128 - 2 ^ 103 := by
  obtain ⟨hle, htie⟩ := ha
  by_contra hc
  have hbound : (magUnits 0x7F7FFFFF : ℝ) + magUnits 0x7F800000 ≤ 2 * (x * 2 ^ 149) := by
    rw [magUnits_top, magUnits_inf]
    push_cast
    linarith
  rcases Nat.lt_or_eq_of_le (show m ≤ 0x7F7FFFFF by omega) with h | rfl
  · have h1 : (magUnits m : ℝ) < magUnits 0x7F7FFFFF := by exact_mod_cast magUnits_mono h
    have h2 : (magUnits (m + 1) : ℝ) < magUnits 0x7F800000 := by
      exact_mod_cast magUnits_mono (show m + 1 < 0x7F800000 by omega)
    linarith
  · exact absurd (htie (le_antisymm hle hbound)) (by decide)

/-- A number between the two middles around a finite magnitude is rounded to it. -/
theorem isRnd32_of_middles {x : ℝ} {m : Nat} (neg : Bool) (hx : 0 < x) (hm : m < 0x7F800000)
    (hb : NotBelow (x * 2 ^ 149) m) (ha : NotAbove (x * 2 ^ 149) m) : IsRnd32 (signFactor neg * x) (withSign neg m) :=
  isRnd32_of_nearest neg hx (lt_overflow_of_notAbove hm ha) hm (nearest_of_middles hb ha)

/-! ### Signs and positive normal patterns -/

theorem withSign_magOf {w : Word} (h : signBit w = false) : withSign false (magOf w) = w := by
  have hlt : magOf w < 2 ^ 31 := Nat.mod_lt _ (by norm_num)
  exact word_ext (magOf_withSign false hlt) ((signBit_withSign false hlt).trans h.symm)

/-- What a positive normal pattern gives (00_scope.md R11). -/
theorem posNormal_iff (a : Word) :
    posNormal a = true ↔ signBit a = false ∧ 2 ^ 23 ≤ magOf a ∧ magOf a < 0x7F800000 := by
  have hexp : magOf a < 2 ^ 31 := Nat.mod_lt _ (by norm_num)
  simp only [posNormal, isNormal32, expField_eq, Bool.and_eq_true, Bool.not_eq_true', bne_iff_ne]
  exact and_congr_right fun _ => by omega

/-- A positive pattern's value is its scaled magnitude. -/
theorem val32_of_posNormal {a : Word} (ha : posNormal a = true) : (val32 a : ℝ) = scaledMag a / 2 ^ 150 := by
  rw [val32, ((posNormal_iff a).mp ha).1]
  push_cast
  norm_num

theorem negate32_toNat (a : Word) : (negate32 a).toNat = a.toNat ^^^ 2 ^ 31 := by simp [negate32]

theorem signBit_negate32 (a : Word) : signBit (negate32 a) = !signBit a := by
  simp [signBit, negate32]

theorem magOf_negate32 (a : Word) : magOf (negate32 a) = magOf a := by
  rw [magOf, negate32_toNat, Nat.xor_mod_two_pow]
  simp [magOf]

theorem negate32_ne (a : Word) : negate32 a ≠ a := fun h => by
  have := signBit_negate32 a
  rw [h] at this
  simp at this

end Sys2Proof.Machine

/-! The square, sawtooth and triangle banks of the wavetable ROM (20_memory.md R63 to R65): O27, O28, O29. -/

namespace Sys2Proof.Machine

open Sys2Proof.Safety

/-- The amplitude times a ratio `k / len`, of either sign, is rounded correctly. -/
theorem isRnd32_scaled {a : Word} (ha : posNormal a = true) (neg : Bool) (k : Nat) {len : Nat} (hl : 0 < len) :
    IsRnd32 (signFactor neg * (val32 a * (k / len))) (rnd32 neg (scaledMag a * k) (len * 2 ^ 150)) := by
  have h := isRnd32_rnd32 neg (scaledMag a * k) (den := len * 2 ^ 150) (by positivity)
  rw [val32_of_posNormal ha]
  convert h using 2
  push_cast
  field_simp
  ring

/-- The amplitude negated is representable, so it is its own rounding. -/
theorem rnd32_scaled_self {a : Word} (ha : posNormal a = true) {len : Nat} (hl : 0 < len) :
    rnd32 true (scaledMag a * len) (len * 2 ^ 150) = negate32 a := by
  obtain ⟨hsign, hlow, hhigh⟩ := (posNormal_iff a).mp ha
  have hmag : 0 < magUnits (magOf a) := lt_of_le_of_lt (Nat.zero_le _) (magUnits_mono (show 0 < magOf a by omega))
  have hround : roundMag (scaledMag a * len) (len * 2 ^ 150) = magOf a :=
    roundMag_of_magUnits (by positivity) hhigh (by rw [scaledMag_eq]; ring)
  have hnum : scaledMag a * len ≠ 0 := by rw [scaledMag_eq]; positivity
  rw [rnd32, if_neg hnum, hround]
  apply word_ext
  · rw [magOf_withSign true (by omega), magOf_negate32]
  · rw [signBit_withSign true (by omega), signBit_negate32, hsign, Bool.not_false]

theorem waveRom_square {c : Config} {i : Nat} (hi : i < c.lenSquare) :
    waveRom c 1#2 i = some (squareEntry c.amplitude c.lenSquare i) := if_pos hi

theorem waveRom_sawtooth {c : Config} {i : Nat} (hi : i < c.lenSawtooth) :
    waveRom c 2#2 i = some (sawtoothEntry c.amplitude c.lenSawtooth i) := if_pos hi

theorem waveRom_triangle {c : Config} {i : Nat} (hi : i < c.lenTriangle) :
    waveRom c 3#2 i = some (triangleEntry c.amplitude c.lenTriangle i) := if_pos hi

theorem legal_amplitude {c : Config} (h : configLegal c = true) : posNormal c.amplitude = true := by
  obtain ⟨-, -, -, hamp, -⟩ := configLegal_iff.mp h
  exact hamp

/-! ### Square -/

theorem squareEntry_eq_amplitude_iff {a : Word} {len i : Nat} :
    squareEntry a len i = a ↔ 2 * i < len := by
  unfold squareEntry
  split
  · exact iff_of_true rfl ‹_›
  · exact iff_of_false (negate32_ne a) ‹_›

theorem squareEntry_eq_negate_iff {a : Word} {len i : Nat} :
    squareEntry a len i = negate32 a ↔ len ≤ 2 * i := by
  unfold squareEntry
  split
  · exact iff_of_false (negate32_ne a).symm (by omega)
  · exact iff_of_true rfl (by omega)

/-- How many numbers below `n` are below `m`. -/
theorem filter_lt_range_length {n m : Nat} (h : m ≤ n) :
    ((List.range n).filter (fun i => decide (i < m))).length = m := by
  rw [← List.Ico.zero_bot, List.Ico.filter_lt, List.Ico.length]
  omega

/-- How many numbers below `n` are at least `m`. -/
theorem filter_ge_range_length (n m : Nat) : ((List.range n).filter (fun i => decide (m ≤ i))).length = n - m := by
  rw [← List.Ico.zero_bot, List.Ico.filter_le, List.Ico.length]
  omega

/-- Settles O27: an entry is one level or the other by the rule itself, and `2i < L` holds of the first `(L+1)/2`
indexes. -/
theorem squareBankHasTwoLevels : Obligations.SquareBankHasTwoLevels := by
  intro c hc
  refine ⟨fun i hi => waveRom_square hi, ?_, ?_⟩
  · rw [List.filter_congr (q := fun i => decide (i < (c.lenSquare + 1) / 2)), filter_lt_range_length (by omega)]
    intro i hi
    rw [waveRom_square (List.mem_range.mp hi), Bool.eq_iff_iff, beq_iff_eq, Option.some_inj,
      squareEntry_eq_amplitude_iff, decide_eq_true_iff]
    omega
  · rw [List.filter_congr (q := fun i => decide ((c.lenSquare + 1) / 2 ≤ i)), filter_ge_range_length]
    · omega
    intro i hi
    rw [waveRom_square (List.mem_range.mp hi), Bool.eq_iff_iff, beq_iff_eq, Option.some_inj,
      ← negate32, squareEntry_eq_negate_iff, decide_eq_true_iff]
    omega

/-! ### Sawtooth -/

/-- Both signs of the ramp of 20_memory.md R64. -/
theorem isRnd32_sawtoothEntry {a : Word} (ha : posNormal a = true) {len : Nat} (i : Nat) (hl : 0 < len) :
    IsRnd32 ((val32 a : ℝ) * (2 * (i : ℝ) - len) / len) (sawtoothEntry a len i) := by
  unfold sawtoothEntry
  split
  · rename_i h
    convert isRnd32_scaled ha true (len - 2 * i) hl using 1
    rw [Nat.cast_sub h.le, signFactor_true]
    push_cast
    ring
  · rename_i h
    convert isRnd32_scaled ha false (2 * i - len) hl using 1
    rw [Nat.cast_sub (not_lt.mp h), signFactor_false]
    push_cast
    ring

/-- Settles O28: entry 0 is `A` negated because that is representable, and the middle entry is `rnd32(0)`. -/
theorem sawtoothBankIsARoundedRamp : Obligations.SawtoothBankIsARoundedRamp := by
  intro c hc
  have hamp := legal_amplitude hc
  have hlen : 0 < c.lenSawtooth := tableLen_pos hc 2#2
  refine ⟨fun i hi => ⟨_, waveRom_sawtooth hi, isRnd32_sawtoothEntry hamp i hlen⟩, ?_, fun i hi => ?_⟩
  · rw [waveRom_sawtooth hlen, sawtoothEntry, if_pos (by omega), Nat.mul_zero, Nat.sub_zero,
      rnd32_scaled_self hamp hlen]
  · rw [waveRom_sawtooth (by omega), sawtoothEntry, if_neg (by omega), hi, Nat.sub_self, Nat.mul_zero, rnd32,
      if_pos rfl]

/-! ### Triangle -/

/-- The first piece of 20_memory.md R65. -/
theorem isRnd32_triangleEntry_rising {a : Word} (ha : posNormal a = true) {len i : Nat} (hl : 0 < len)
    (h : 4 * i ≤ len) :
    IsRnd32 ((val32 a : ℝ) * (4 * (i : ℝ) / len)) (triangleEntry a len i) := by
  rw [triangleEntry, if_pos h]
  convert isRnd32_scaled ha false (4 * i) hl using 1
  rw [signFactor_false]
  push_cast
  ring

/-- The second piece of 20_memory.md R65; the model splits it where the line changes sign. -/
theorem isRnd32_triangleEntry_falling {a : Word} (ha : posNormal a = true) {len i : Nat} (hl : 0 < len)
    (h1 : len < 4 * i) (h3 : 4 * i ≤ 3 * len) :
    IsRnd32 ((val32 a : ℝ) * (2 - 4 * (i : ℝ) / len)) (triangleEntry a len i) := by
  rw [triangleEntry, if_neg (by omega)]
  rcases le_or_gt (4 * i) (2 * len) with h2 | h2
  · rw [if_pos h2]
    convert isRnd32_scaled ha false (2 * len - 4 * i) hl using 1
    rw [Nat.cast_sub h2, signFactor_false]
    push_cast
    field_simp
  · rw [if_neg (not_le.mpr h2), if_pos h3]
    convert isRnd32_scaled ha true (4 * i - 2 * len) hl using 1
    rw [Nat.cast_sub h2.le, signFactor_true]
    push_cast
    field_simp
    ring

/-- The third piece of 20_memory.md R65. -/
theorem isRnd32_triangleEntry_returning {a : Word} (ha : posNormal a = true) {len i : Nat} (hi : i < len)
    (h3 : 3 * len < 4 * i) : IsRnd32 ((val32 a : ℝ) * (4 * (i : ℝ) / len - 4)) (triangleEntry a len i) := by
  rw [triangleEntry, if_neg (by omega), if_neg (by omega), if_neg (by omega)]
  have hl : 0 < len := by omega
  convert isRnd32_scaled ha true (4 * len - 4 * i) hl using 1
  rw [Nat.cast_sub (by omega), signFactor_true]
  push_cast
  field_simp
  ring

/-- Settles O29, one lemma for each piece of the line. -/
theorem triangleBankIsRounded : Obligations.TriangleBankIsRounded := by
  intro c hc i hi
  have hamp := legal_amplitude hc
  have hlen : 0 < c.lenTriangle := tableLen_pos hc 3#2
  exact ⟨_, waveRom_triangle hi, isRnd32_triangleEntry_rising hamp hlen, isRnd32_triangleEntry_falling hamp hlen,
    isRnd32_triangleEntry_returning hamp hi⟩

end Sys2Proof.Machine

/-! The note ROM (20_memory.md R69): O24. -/

namespace Sys2Proof.Machine

open Sys2Proof.Safety

/-- The equal-tempered frequency of note `n` (20_memory.md R69). -/
noncomputable def noteHertz (n : Nat) : ℝ := 27.5 * (2 : ℝ) ^ (((n : ℝ) - 21) / 12)

theorem noteHertz_pos (n : Nat) : 0 < noteHertz n := by unfold noteHertz; positivity

/-- The twelfth power of twice the frequency, at any scale `c`, is rational. -/
theorem noteHertz_pow (n : Nat) (c : ℝ) : (2 * (noteHertz n * c)) ^ 12 * 2 ^ 21 = 55 ^ 12 * c ^ 12 * 2 ^ n := by
  have hroot : ((2 : ℝ) ^ (((n : ℝ) - 21) / 12)) ^ 12 * 2 ^ 21 = 2 ^ n := by
    rw [← Real.rpow_natCast, ← Real.rpow_mul (by norm_num), ← Real.rpow_natCast, ← Real.rpow_natCast,
      ← Real.rpow_add (by norm_num)]
    congr 1
    push_cast
    ring
  rw [← hroot, noteHertz]
  ring

/-- Note `n`'s frequency lies strictly between the middles around the magnitude `m`, said of twelfth powers, which are
integers once both sides are multiplied by `2^21`. -/
def NoteBetweenMiddles (n m : Nat) : Prop :=
  (magUnits (m - 1) + magUnits m) ^ 12 * 2 ^ 21 < 55 ^ 12 * (2 ^ 149) ^ 12 * 2 ^ n ∧
    55 ^ 12 * (2 ^ 149) ^ 12 * 2 ^ n < (magUnits m + magUnits (m + 1)) ^ 12 * 2 ^ 21

/-- The whole note ROM, 256 words. -/
theorem noteRom_between (n : BitVec 8) :
    posNormal (noteRom n) = true ∧ NoteBetweenMiddles n.toNat (magOf (noteRom n)) := by
  revert n
  unfold NoteBetweenMiddles
  decide +kernel

/-- Twelfth powers compare as their roots do. -/
theorem lt_of_pow_twelve_lt {a b : ℝ} (hb : 0 ≤ b) (h : a ^ 12 * 2 ^ 21 < b ^ 12 * 2 ^ 21) : a < b :=
  lt_of_pow_lt_pow_left₀ 12 hb (lt_of_mul_lt_mul_right h (by positivity))

/-- The comparison of twelfth powers read back as one of frequencies. -/
theorem notBelow_notAbove_of_between {n m : Nat} (h : NoteBetweenMiddles n m) :
    NotBelow (noteHertz n * 2 ^ 149) m ∧ NotAbove (noteHertz n * 2 ^ 149) m := by
  obtain ⟨hlow, hhigh⟩ := h
  have hpos : 0 ≤ 2 * (noteHertz n * 2 ^ 149) := by have := noteHertz_pos n; positivity
  have below : (magUnits (m - 1) : ℝ) + magUnits m < 2 * (noteHertz n * 2 ^ 149) :=
    lt_of_pow_twelve_lt hpos (by rw [noteHertz_pow]; exact_mod_cast hlow)
  have above : 2 * (noteHertz n * 2 ^ 149) < (magUnits m : ℝ) + magUnits (m + 1) :=
    lt_of_pow_twelve_lt (by positivity) (by rw [noteHertz_pow]; exact_mod_cast hhigh)
  refine ⟨?_, above.le, fun htie => absurd htie above.ne⟩
  rintro k rfl
  exact ⟨below.le, fun htie => absurd htie below.ne⟩

/-- Settles O24: the twelfth power of the frequency is rational, so each word's two middles are compared with it in
integers. -/
theorem noteRomIsCorrectlyRounded : Obligations.NoteRomIsCorrectlyRounded := by
  refine ⟨fun n => ?_, by decide, by decide⟩
  obtain ⟨hnormal, hbetween⟩ := noteRom_between n
  obtain ⟨hsign, -, hfin⟩ := (posNormal_iff _).mp hnormal
  obtain ⟨hb, ha⟩ := notBelow_notAbove_of_between hbetween
  have h := isRnd32_of_middles false (noteHertz_pos n.toNat) hfin hb ha
  rw [signFactor_false, one_mul, withSign_magOf hsign] at h
  exact ⟨hnormal, h⟩

end Sys2Proof.Machine

/-! The command registers and the drain of a buffer cycle (20_memory.md R80, R81): O43, O41. -/

namespace Sys2Proof.Machine

open Sys2Proof.Safety

/-- Settles O43, by the frame of the other agents' steps. -/
theorem onlyTheEngineWritesTheOscillator : Obligations.OnlyTheEngineWritesTheOscillator := by
  intro a s t ha h
  obtain ⟨hframe, -, -⟩ := perform_frame ha h
  rw [hframe]
  exact ⟨rfl, rfl, rfl, rfl, rfl, rfl⟩

/-! ### The registers of the commands -/

/-- The registers that commands read and write, the event sequence aside (41_commands.md). -/
structure CommandRegs where
  cfg : Config
  freq : Word
  waveSel : BitVec 2
  lphase : Phase
  rphase : Phase
  cntUnknownParam : Word
  cntUnsupported : Word
  cntBadWave : Word

/-- These registers of a state. -/
def commandRegs (s : State) : CommandRegs where
  cfg := s.cfg
  freq := s.freq
  waveSel := s.waveSel
  lphase := s.lphase
  rphase := s.rphase
  cntUnknownParam := s.cntUnknownParam
  cntUnsupported := s.cntUnsupported
  cntBadWave := s.cntBadWave

/-- What a command makes of these registers (41_commands.md). -/
def CommandRegs.after (g : CommandRegs) : Instr → CommandRegs
  | .noteOn n => { g with freq := noteFreq n }
  | .noteOff => { g with freq := silentFreq }
  | .setParam v => { g with freq := v }
  | .setParamUnknown _ => { g with cntUnknownParam := g.cntUnknownParam + 1#32 }
  | .setWave k =>
    { g with waveSel := k, lphase := clampPhase g.cfg k g.lphase, rphase := clampPhase g.cfg k g.rphase }
  | .setWaveInvalid _ => { g with cntBadWave := g.cntBadWave + 1#32 }
  | .reserved _ => { g with cntUnsupported := g.cntUnsupported + 1#32 }

/-- A command's effect on its registers depends on these registers only. -/
theorem exec_commandRegs {i : Instr} {s t : State} (h : exec i s = .next t) :
    commandRegs t = (commandRegs s).after i := by
  cases i <;> cases h <;> rfl

theorem applyWord_commandRegs {w : CmdWord} {s s' t t' : State} (hr : commandRegs s = commandRegs t)
    (hs : applyWord w s = .next s') (ht : applyWord w t = .next t') : commandRegs s' = commandRegs t' := by
  rw [exec_commandRegs hs, exec_commandRegs ht, hr]

/-- One more word at the end (41_commands.md R172). -/
theorem applyAll_append_singleton {ws : List CmdWord} {w : CmdWord} {s r r' : State} (hws : applyAll ws s = .next r)
    (hw : applyWord w r = .next r') : applyAll (ws ++ [w]) s = .next r' := by
  induction ws generalizing s with
  | nil =>
    cases hws
    simp [applyAll, hw]
  | cons v ws ih =>
    obtain ⟨t, ht⟩ := exec_next (decode v) s
    have hv : applyWord v s = .next t := ht
    simp only [List.cons_append, applyAll, hv] at hws ⊢
    exact ih hws

/-- A command leaves the sequencer where it is. -/
theorem exec_estate {i : Instr} {s t : State} (h : exec i s = .next t) : t.estate = s.estate := by
  rcases exec_cases h with ⟨f, rfl⟩ | ⟨k, rfl⟩ | ⟨x, rfl⟩ | ⟨x, rfl⟩ | ⟨x, rfl⟩ <;> rfl

/-- Whatever the state, `raise Fatal` leaves FATAL (60_exceptions.md R245). -/
theorem raiseFatal_estate (c : BitVec 2) (s : State) : (raiseFatal c s).estate = .fatal := by
  by_cases h : s.estate = .fatal
  · rwa [raiseFatal_of_fatal c s h]
  · rw [raiseFatal_of_running c s h]

/-! ### The drain -/

/-- A step that is not an engine edge, as the drain sees it. -/
theorem step_not_clk_frame {s t : State} (h : step s = .next t) (hc : clkNext s = false) :
    t.estate = s.estate ∧ t.drainLeft = s.drainLeft ∧ commandRegs t = commandRegs s ∧ ∃ new, t.q = s.q ++ new := by
  obtain ⟨a, ha, hp⟩ := step_not_clk h hc
  obtain ⟨hframe, ⟨new, -, hq⟩, -⟩ := perform_frame ha hp
  refine ⟨?_, ?_, ?_, new, hq⟩ <;> rw [hframe] <;> rfl

/-- An engine edge that leaves the engine in a state other than IDLE and FATAL is the engine's own step. -/
theorem step_clk_engine {s t : State} (h : step s = .next t) (hc : clkNext s = true) (hidle : t.estate ≠ .idle)
    (hfatal : t.estate ≠ .fatal) : ∃ u, engineStep (taken s) = .next u ∧ t = latchLevel u := by
  obtain ⟨u, hu, rfl⟩ := clkEdge_eq_next.mp (step_clk h hc)
  rcases clkStep_cases hu with ⟨-, rfl⟩ | ⟨-, -, -, rfl⟩ | ⟨-, -, -, -, rfl⟩ | ⟨-, -, -, hx⟩
  · exact absurd rfl hidle
  · exact absurd (raiseFatal_estate _ _) hfatal
  · exact absurd (raiseFatal_estate _ _) hfatal
  · exact ⟨u, hx, rfl⟩

/-- A cycle start that goes to DRAIN takes the number of visible words and leaves the FIFO (43_buffer_cycle.md R211). -/
theorem cycleStart_to_drain {s : State} (h : (cycleStart s).estate = .drain) :
    (cycleStart s).q = s.q ∧ (cycleStart s).drainLeft = s.v := by
  rw [cycleStart_eq] at h ⊢
  by_cases hm : lengthMismatch s
  · rw [if_pos hm, raiseFatal_estate] at h
    cases h
  · rw [if_neg hm]
    exact ⟨rfl, rfl⟩

/-- The same of the step from IDLE to DRAIN. -/
theorem step_idle_to_drain {s t : State} (h : step s = .next t) (hs : s.estate = .idle) (ht : t.estate = .drain) :
    t.q = s.q ∧ t.drainLeft = s.v := by
  cases hc : clkNext s with
  | false =>
    obtain ⟨he, -⟩ := step_not_clk_frame h hc
    exact absurd (ht.symm.trans (he.trans hs)) (by decide)
  | true =>
    obtain ⟨u, hu, rfl⟩ := step_clk_engine h hc (by simp [ht]) (by simp [ht])
    have hs' : (taken s).estate = .idle := hs
    simp only [engineStep, hs'] at hu
    cases hu
    split at ht
    · rw [if_pos ‹_›]
      exact cycleStart_to_drain ht
    · exact absurd (ht.symm.trans hs') (by decide)

/-- Everything a step from DRAIN can do that leaves the engine in DRAIN or STEP: a step of another agent, the drain's
end, or a drain step. -/
theorem step_from_drain {s t : State} (h : step s = .next t) (hs : s.estate = .drain)
    (ht : t.estate = .drain ∨ t.estate = .step) :
    (t.estate = .drain ∧ t.drainLeft = s.drainLeft ∧ commandRegs t = commandRegs s ∧ ∃ new, t.q = s.q ++ new) ∨
    (t.estate = .step ∧ s.drainLeft = 0#11 ∧ commandRegs t = commandRegs s ∧ t.q = s.q) ∨
    (t.estate = .drain ∧ s.drainLeft ≠ 0#11 ∧ t.drainLeft = s.drainLeft - 1#11 ∧
      ∃ (w : CmdWord) (s1 s2 : State), s.q = w :: t.q ∧ commandRegs s1 = commandRegs s ∧
        applyWord w s1 = .next s2 ∧ commandRegs t = commandRegs s2) := by
  cases hc : clkNext s with
  | false =>
    obtain ⟨he, hrest⟩ := step_not_clk_frame h hc
    exact .inl ⟨he.trans hs, hrest⟩
  | true =>
    obtain ⟨u, hu, rfl⟩ := step_clk_engine h hc (by rcases ht with ht | ht <;> simp [ht])
      (by rcases ht with ht | ht <;> simp [ht])
    have hs' : (taken s).estate = .drain := hs
    simp only [engineStep, hs'] at hu
    split at hu
    · rename_i hd
      cases hu
      refine .inr (.inl ⟨rfl, hd, ?_⟩)
      rcases drainEnd_cases (taken s) with he | ⟨-, -, he⟩ <;> rw [he] <;> exact ⟨rfl, rfl⟩
    · rename_i hd
      obtain ⟨w, rest, s2, hq, -, ha, rfl⟩ := drainStep_eq_next hu
      obtain ⟨-, -, hq2, -, hd2⟩ := exec_frame ha
      refine .inr (.inr ⟨(exec_estate ha).trans hs, hd, congrArg (· - 1#11) hd2, w,
        { taken s with q := rest, v := (taken s).v - 1#11 }, s2, ?_, rfl, ha, rfl⟩)
      exact hq.trans (congrArg (w :: ·) hq2.symm)

/-- How far the drain that began in `s` has come in `t`: of the words `ws` of its snapshot the first ones have been
applied, and the others are the FIFO's head and are counted in `DRAIN_LEFT`; `later` are the words that were in the FIFO
behind the snapshot. -/
def DrainProgress (ws later : List CmdWord) (s t : State) : Prop :=
  ∃ (done todo new : List CmdWord) (r : State), ws = done ++ todo ∧ applyAll done s = .next r ∧
    commandRegs t = commandRegs r ∧ t.q = todo ++ (later ++ new) ∧ t.drainLeft.toNat = todo.length

/-- Each step within DRAIN keeps the progress. -/
theorem drainProgress_step {ws later : List CmdWord} {s t u : State} (hp : DrainProgress ws later s t)
    (ht : t.estate = .drain) (h : step t = .next u) (hu : u.estate = .drain) : DrainProgress ws later s u := by
  obtain ⟨done, todo, new, r, hws, hdone, hregs, hq, hleft⟩ := hp
  rcases step_from_drain h ht (.inl hu) with
    ⟨-, hd, hr, more, hm⟩ | ⟨he, -⟩ | ⟨-, hd0, hd, w, t1, t2, hw, hr1, ha, hr2⟩
  · exact ⟨done, todo, new ++ more, r, hws, hdone, hr.trans hregs, by rw [hm, hq]; simp, by rw [hd, hleft]⟩
  · exact absurd (hu.symm.trans he) (by decide)
  · cases todo with
    | nil => exact absurd (BitVec.eq_of_toNat_eq hleft) hd0
    | cons w' todo =>
      rw [hq, List.cons_append, List.cons.injEq] at hw
      obtain ⟨rfl, hw⟩ := hw
      obtain ⟨r', hr'⟩ := exec_next (decode w') r
      refine ⟨done ++ [w'], todo, new, r', by simp [hws], applyAll_append_singleton hdone hr',
        hr2.trans (applyWord_commandRegs (hr1.trans hregs) ha hr'), hw.symm, ?_⟩
      rw [hd, sub_one_toNat _ hd0, hleft, List.length_cons, Nat.add_sub_cancel]

/-- Along a path within DRAIN the progress is kept. -/
theorem drainProgress_of_staysIn {ws later : List CmdWord} {s t : State} (hp : DrainProgress ws later s s)
    (h : StaysIn .drain s t) : DrainProgress ws later s t ∧ t.estate = .drain := by
  induction h with
  | refl he => exact ⟨hp, he⟩
  | tail t u _ hstep hu ih =>
    obtain ⟨hpt, ht⟩ := ih
    exact ⟨drainProgress_step hpt ht hstep hu, hu⟩

/-- Settles O41: the drain's progress holds at its start, is kept by every step within DRAIN, and is complete where the
drain ends. -/
theorem drainAppliesTheSnapshot : Obligations.DrainAppliesTheSnapshot := by
  intro s0 s t u hinv hidle hstart hs hstay hend hu
  obtain ⟨hq, hleft⟩ := step_idle_to_drain hstart hidle hs
  have hbegin : DrainProgress (s.q.take s0.v.toNat) (s.q.drop s0.v.toNat) s s :=
    ⟨[], _, [], s, rfl, rfl, rfl, by simp, by rw [hleft, List.length_take, hq, min_eq_left hinv.v_le]⟩
  obtain ⟨⟨done, todo, new, r, hws, hdone, hregs, htq, htleft⟩, ht⟩ := drainProgress_of_staysIn hbegin hstay
  rcases step_from_drain hend ht (.inr hu) with ⟨he, -⟩ | ⟨-, hd, hr, huq⟩ | ⟨he, -⟩
  · exact absurd (hu.symm.trans he) (by decide)
  · obtain rfl : todo = [] := List.length_eq_zero_iff.mp (by rw [← htleft, hd]; rfl)
    rw [List.append_nil] at hws
    have hfinal := hr.trans hregs
    simp only [commandRegs, CommandRegs.mk.injEq] at hfinal
    obtain ⟨-, hfreq, hwave, hl, hrp, hunk, hunsup, hbad⟩ := hfinal
    exact ⟨r, new, hws ▸ hdone, huq.trans htq, hfreq, hwave, hl, hrp, hunk, hunsup, hbad⟩
  · exact absurd (hu.symm.trans he) (by decide)

end Sys2Proof.Machine

/-! The decode list, its ignored fields and its example words (30_encoding.md R98, R100, R108): O3, O4, O5. -/

namespace Sys2Proof

open Machine

/-- `w` meets the condition of `i`'s line of 30_encoding.md R98, and `i` holds the fields that this line reads. -/
def MeetsLine (w : CmdWord) : Instr → Prop
  | .noteOn n => opcField w = 0x90#8 ∧ n = noteField w
  | .noteOff => opcField w = 0x80#8
  | .setParam v => opcField w = 0x01#8 ∧ subField w = 0x00#8 ∧ v = payloadField w
  | .setParamUnknown id => opcField w = 0x01#8 ∧ subField w ≠ 0x00#8 ∧ id = subField w
  | .setWave k => opcField w = 0x02#8 ∧ (payloadField w).toNat ≤ 3 ∧ k = kindField w
  | .setWaveInvalid kind => opcField w = 0x02#8 ∧ 3 < (payloadField w).toNat ∧ kind = payloadField w
  | .reserved o =>
    opcField w ≠ 0x90#8 ∧ opcField w ≠ 0x80#8 ∧ opcField w ≠ 0x01#8 ∧ opcField w ≠ 0x02#8 ∧ o = opcField w

/-- Every word meets the line it is decoded by (30_encoding.md R103). -/
theorem meetsLine_decode (w : CmdWord) : MeetsLine w (decode w) := by
  unfold decode
  split_ifs with hon hoff hparam hsub hwave hkind
  · exact ⟨hon, rfl⟩
  · exact hoff
  · exact ⟨hparam, hsub, rfl⟩
  · exact ⟨hparam, hsub, rfl⟩
  · exact ⟨hwave, hkind, rfl⟩
  · exact ⟨hwave, not_le.mp hkind, rfl⟩
  · exact ⟨hon, hoff, hparam, hwave, rfl⟩

/-- A word is decoded by whichever line it meets, the lines being mutually exclusive. -/
theorem decode_of_meetsLine {w : CmdWord} {i : Instr} (h : MeetsLine w i) : decode w = i := by
  cases i with
  | noteOn n =>
    obtain ⟨hopc, rfl⟩ := h
    simp [decode, hopc]
  | noteOff =>
    have hopc : opcField w = 0x80#8 := h
    simp [decode, hopc]
  | setParam v =>
    obtain ⟨hopc, hsub, rfl⟩ := h
    simp [decode, hopc, hsub]
  | setParamUnknown id =>
    obtain ⟨hopc, hsub, rfl⟩ := h
    simp [decode, hopc, hsub]
  | setWave k =>
    obtain ⟨hopc, hkind, rfl⟩ := h
    simp [decode, hopc, hkind]
  | setWaveInvalid kind =>
    obtain ⟨hopc, hkind, rfl⟩ := h
    simp [decode, hopc, not_le.mpr hkind]
  | reserved o =>
    obtain ⟨hon, hoff, hparam, hwave, rfl⟩ := h
    simp [decode, hon, hoff, hparam, hwave]

theorem decode_eq_iff_meetsLine (w : CmdWord) (i : Instr) : decode w = i ↔ MeetsLine w i :=
  ⟨fun h => h ▸ meetsLine_decode w, decode_of_meetsLine⟩

/-- Settles O3: `MeetsLine` of each constructor is that line's condition and fields. -/
theorem decodeTakesTheMatchingLine : Obligations.DecodeTakesTheMatchingLine := by
  intro w
  have line := decode_eq_iff_meetsLine w
  exact ⟨fun n => line (.noteOn n), line .noteOff, fun v => line (.setParam v), fun id => line (.setParamUnknown id),
    fun k => line (.setWave k), fun kind => line (.setWaveInvalid kind), fun o => line (.reserved o)⟩

/-! ### Ignored fields -/

@[simp] theorem decode_mkWord_noteOn (sub : BitVec 8) (p : Word) :
    decode (mkWord 0x90#8 sub p) = .noteOn (p.extractLsb' 0 8) :=
  decode_of_meetsLine ⟨opcField_mkWord .., (noteField_mkWord ..).symm⟩

@[simp] theorem decode_mkWord_noteOff (sub : BitVec 8) (p : Word) : decode (mkWord 0x80#8 sub p) = .noteOff :=
  decode_of_meetsLine (opcField_mkWord 0x80#8 sub p)

theorem decode_mkWord_setWave (sub : BitVec 8) {p : Word} (hp : p.toNat ≤ 3) :
    decode (mkWord 0x02#8 sub p) = .setWave (p.extractLsb' 0 2) :=
  decode_of_meetsLine ⟨opcField_mkWord .., by rwa [payloadField_mkWord], (kindField_mkWord ..).symm⟩

theorem decode_mkWord_setWaveInvalid (sub : BitVec 8) {p : Word} (hp : 3 < p.toNat) :
    decode (mkWord 0x02#8 sub p) = .setWaveInvalid p :=
  decode_of_meetsLine ⟨opcField_mkWord .., by rwa [payloadField_mkWord], (payloadField_mkWord ..).symm⟩

/-- Settles O4: what each of the three opcodes decodes to is written without the fields it ignores. -/
theorem ignoredFieldsDecodeTheSame : Obligations.IgnoredFieldsDecodeTheSame := by
  intro sub sub' p p'
  refine ⟨fun hnote => ?_, ?_, ?_⟩
  · rw [decode_mkWord_noteOn, decode_mkWord_noteOn, hnote]
  · rw [decode_mkWord_noteOff, decode_mkWord_noteOff]
  · rcases le_or_gt p.toNat 3 with hp | hp
    · rw [decode_mkWord_setWave sub hp, decode_mkWord_setWave sub' hp]
    · rw [decode_mkWord_setWaveInvalid sub hp, decode_mkWord_setWaveInvalid sub' hp]

/-! ### Example words -/

/-- 440.0 is `1.71875 * 2^8`. -/
theorem rnd32_440 : rnd32 false 440 1 = 0x43DC0000#32 := by decide

theorem rnd32_one : rnd32 false 1 1 = 0x3F800000#32 := by decide

/-- Settles O5: with the two decimal reals rounded, each line puts its operands into the fields of its word. -/
theorem exampleLinesAssembleToTheirWords : Obligations.ExampleLinesAssembleToTheirWords := by
  unfold Obligations.ExampleLinesAssembleToTheirWords
  rw [rnd32_440, rnd32_one]
  decide

end Sys2Proof

/-! The pop of the command FIFO (40_command_fifo.md R131): O39. -/

namespace Sys2Proof.Machine

open Sys2Proof.Safety

/-- Where words are left to drain, a pop finds one: `DRAIN_LEFT <= V <= |Q|`. -/
theorem fifoPop_isSome {s : State} (h : Inv s) (hd : s.drainLeft ≠ 0#11) : (fifoPop s).isSome = true := by
  rw [Option.isSome_iff_ne_none, ne_eq, fifoPop_eq_none, not_or]
  exact ⟨q_ne_nil h hd, v_ne_zero h hd⟩

/-- A drain step faults where the pop's precondition fails. -/
theorem drainStep_of_fifoPop_none {s : State} (h : fifoPop s = none) : drainStep s = .fault .popFromEmptyFifo := by
  simp only [drainStep, h]

/-- Settles O39, one lemma about the pop for each part. -/
theorem popTakesTheOldestWord : Obligations.PopTakesTheOldestWord :=
  ⟨fun _ _ rest hq hv => fifoPop_eq_some.mpr ⟨rest, hq, hv, rfl⟩,
    fun _ hinv _ hd => fifoPop_isSome hinv hd,
    fun _ hv => drainStep_of_fifoPop_none (fifoPop_eq_none.mpr (.inr hv))⟩

end Sys2Proof.Machine

/-! The commands (41_commands.md): O10, O11, O13 to O19. -/

namespace Sys2Proof.Machine

open Sys2Proof.Safety

/-! ### What a word of each line does -/

section
variable {w : CmdWord} (s : State)

/-- NOTE_ON (41_commands.md R150). -/
theorem exec_decode_noteOn (hopc : opcField w = 0x90#8) :
    exec (decode w) s = .next (setFreq (noteRom (noteField w)) s) := by
  rw [decode_of_meetsLine (i := .noteOn (noteField w)) ⟨hopc, rfl⟩]
  rfl

/-- NOTE_OFF (41_commands.md R151). -/
theorem exec_decode_noteOff (hopc : opcField w = 0x80#8) : exec (decode w) s = .next (setFreq silentFreq s) := by
  rw [decode_of_meetsLine (i := .noteOff) hopc]
  rfl

/-- SET_PARAM of an unknown id (41_commands.md R165). -/
theorem exec_decode_setParamUnknown (hopc : opcField w = 0x01#8) (hsub : subField w ≠ 0x00#8) :
    exec (decode w) s = .next (countUnknownParam (raiseDiag codeUnknownParam (zext8 (subField w)) s)) := by
  rw [decode_of_meetsLine (i := .setParamUnknown (subField w)) ⟨hopc, hsub, rfl⟩]
  rfl

/-- SET_WAVE of a valid kind (41_commands.md R160). -/
theorem exec_decode_setWave (hopc : opcField w = 0x02#8) (hkind : (payloadField w).toNat ≤ 3) :
    exec (decode w) s = .next (selectWave (kindField w) s) := by
  rw [decode_of_meetsLine (i := .setWave (kindField w)) ⟨hopc, hkind, rfl⟩]
  rfl

/-- SET_WAVE of an invalid kind (41_commands.md R163). -/
theorem exec_decode_setWaveInvalid (hopc : opcField w = 0x02#8) (hkind : 3 < (payloadField w).toNat) :
    exec (decode w) s = .next (countBadWave (raiseDiag codeBadWave (payloadField w) s)) := by
  rw [decode_of_meetsLine (i := .setWaveInvalid (payloadField w)) ⟨hopc, hkind, rfl⟩]
  rfl

/-- A reserved opcode (41_commands.md R170). -/
theorem exec_decode_reserved (hon : opcField w ≠ 0x90#8) (hoff : opcField w ≠ 0x80#8) (hparam : opcField w ≠ 0x01#8)
    (hwave : opcField w ≠ 0x02#8) :
    exec (decode w) s = .next (countUnsupported (raiseDiag codeUnsupportedCmd (zext8 (opcField w)) s)) := by
  rw [decode_of_meetsLine (i := .reserved (opcField w)) ⟨hon, hoff, hparam, hwave, rfl⟩]
  rfl

end

/-! ### The table swap -/

/-- The clamp keeps a cursor below the new length and takes any other to the last index (41_commands.md R161). -/
theorem clampPhase_toNat_eq_ite (c : Config) (k : BitVec 2) (ph : Phase) :
    (clampPhase c k ph).toNat = if ph.toNat < tableLen c k then ph.toNat else tableLen c k - 1 := by
  rw [clampPhase_toNat]
  split <;> omega

/-- Settles O15: SET_WAVE writes both cursors through the clamp. -/
theorem tableSwapKeepsThePhase : Obligations.TableSwapKeepsThePhase := by
  refine ⟨fun k s hlegal => ⟨selectWave k s, rfl, clampPhase_toNat_eq_ite .., clampPhase_toNat_eq_ite ..,
    clampPhase_lt hlegal k _, clampPhase_lt hlegal k _⟩, fun k s hlen hphase => ⟨selectWave k s, rfl, ?_⟩⟩
  apply BitVec.eq_of_toNat_eq
  rw [selectWave_lphase, clampPhase_toNat, hlen, hphase]
  rfl

/-! ### Completion -/

/-- A command leaves the fatal flag and its cause. -/
theorem exec_fatal {i : Instr} {s t : State} (h : exec i s = .next t) :
    t.fatal = s.fatal ∧ t.fatalCause = s.fatalCause := by
  rcases exec_cases h with ⟨f, rfl⟩ | ⟨k, rfl⟩ | ⟨x, rfl⟩ | ⟨x, rfl⟩ | ⟨x, rfl⟩ <;> exact ⟨rfl, rfl⟩

/-- A command neither reads nor writes the driver's signals. -/
theorem exec_pins_comm {i : Instr} {s t : State} (p : Pins) (h : exec i s = .next t) :
    exec i { s with pins := p } = .next { t with pins := p } := by
  cases i <;> cases h <;> rfl

/-- Under the invariant a drain step with words left completes, since `1 ≤ DRAIN_LEFT ≤ V ≤ |Q|`. -/
theorem drainStep_completes {s : State} (h : Inv s) (hd : s.drainLeft ≠ 0#11) : ∃ t, drainStep s = .next t := by
  obtain ⟨w, rest, hq⟩ := List.exists_cons_of_ne_nil (q_ne_nil h hd)
  obtain ⟨s2, -, hs2⟩ := drainStep_next hq (v_ne_zero h hd)
  exact ⟨_, hs2⟩

/-- Settles O19, by the frame of a command and of a drain step. -/
theorem everyWordCompletes : Obligations.EveryWordCompletes := by
  refine ⟨fun w s => ?_, fun s hinv hdrain hleft => ?_⟩
  · obtain ⟨t, ht⟩ := exec_next (decode w) s
    obtain ⟨hfatal, hcause⟩ := exec_fatal ht
    exact ⟨t, ht, exec_estate ht, hfatal, hcause, fun p => exec_pins_comm p ht⟩
  · obtain ⟨t, ht⟩ := drainStep_completes hinv hleft
    obtain ⟨-, hestate, hcount⟩ := inv_drainStep hinv hdrain hleft ht
    refine ⟨t, ht, hestate, ?_⟩
    rw [hcount, sub_one_toNat _ hleft, Nat.sub_add_cancel (ne_zero_toNat hleft)]

/-! ### The next state of each command -/

/-- Note 69 is 440.0 (20_memory.md R69). -/
theorem noteRom_69 : noteRom 69#8 = 0x43DC0000#32 := by decide

/-- Settles O10: the example word's note is 69. -/
theorem noteOnWritesTheNoteFrequency : Obligations.NoteOnWritesTheNoteFrequency := by
  refine ⟨fun w s hopc => exec_decode_noteOn s hopc, fun s => ?_⟩
  have hnote : noteField 0x900000000045#48 = 69#8 := by decide
  rw [exec_decode_noteOn s (by decide), hnote, noteRom_69]
  rfl

/-- Settles O11. -/
theorem noteOffWritesZero : Obligations.NoteOffWritesZero := fun _ s hopc => exec_decode_noteOff s hopc

/-- Settles O13: the example word's id is 7. -/
theorem unknownParamIsCountedOnly : Obligations.UnknownParamIsCountedOnly := by
  refine ⟨fun w s hopc hsub => exec_decode_setParamUnknown s hopc hsub, fun s => ?_⟩
  have hid : zext8 (subField 0x01073F800000#48) = 0x00000007#32 := by decide
  rw [exec_decode_setParamUnknown s (by decide) (by decide), hid]
  rfl

/-- Settles O14. -/
theorem setWaveSelectsTheBank : Obligations.SetWaveSelectsTheBank := fun _ s hopc hkind =>
  exec_decode_setWave s hopc hkind

/-- Settles O16: the example word's kind is 4. -/
theorem invalidKindIsCountedOnly : Obligations.InvalidKindIsCountedOnly := by
  refine ⟨fun w s hopc hkind => exec_decode_setWaveInvalid s hopc hkind, fun s => ?_⟩
  have hkind : payloadField 0x020000000004#48 = 0x00000004#32 := by decide
  rw [exec_decode_setWaveInvalid s (by decide) (by decide), hkind]
  rfl

/-- Settles O17: the example word's opcode is 0xB0. -/
theorem reservedOpcodeIsCountedOnly : Obligations.ReservedOpcodeIsCountedOnly := by
  refine ⟨fun w s hon hoff hparam hwave => exec_decode_reserved s hon hoff hparam hwave, fun s => ?_⟩
  have hopc : zext8 (opcField 0xB00000000007#48) = 0x000000B0#32 := by decide
  rw [exec_decode_reserved s (by decide) (by decide) (by decide) (by decide), hopc]
  rfl

/-! ### Two frequency commands in a row -/

/-- The word of a NOTE_ON writes its note's frequency. -/
theorem applyWord_encode_noteOn (n : BitVec 8) (s : State) :
    applyWord (encode (.noteOn n)) s = .next (setFreq (noteRom n) s) := by
  have hnote : (n.setWidth 32).extractLsb' 0 8 = n := by
    apply BitVec.eq_of_toNat_eq
    simp
  rw [applyWord, encode, decode_mkWord_noteOn, hnote]
  rfl

/-- The word of a SET_PARAM writes its payload. -/
theorem applyWord_encode_setParam (v : Word) (s : State) :
    applyWord (encode (.setParam v)) s = .next (setFreq v s) := by
  have hdecode : decode (encode (.setParam v)) = .setParam v :=
    decode_of_meetsLine ⟨opcField_mkWord .., subField_mkWord .., (payloadField_mkWord ..).symm⟩
  rw [applyWord, hdecode]
  rfl

/-- The first word of a sequence hands its state to the rest (41_commands.md R172). -/
theorem applyAll_cons {w : CmdWord} {s t : State} (ws : List CmdWord) (h : applyWord w s = .next t) :
    applyAll (w :: ws) s = applyAll ws t := by
  simp only [applyAll, h]

/-- Settles O18: the second command overwrites what the first wrote. -/
theorem laterFrequencyCommandWins : Obligations.LaterFrequencyCommandWins := by
  intro n v s
  constructor
  · rw [applyAll_cons _ (applyWord_encode_noteOn n s), applyAll_cons _ (applyWord_encode_setParam v _)]
    rfl
  · rw [applyAll_cons _ (applyWord_encode_setParam v s), applyAll_cons _ (applyWord_encode_noteOn n _)]
    rfl

end Sys2Proof.Machine

/-! The step computation, the advance and the closed form of one buffer (42_synthesis.md R182, R187, R191): O32, O34,
O35. -/

namespace Sys2Proof.Machine

open Sys2Proof.Safety

/-! ### The step computation and the advance -/

/-- The two zero patterns (00_scope.md R19). -/
theorem isZero32_iff_eq (b : Word) : isZero32 b = true ↔ b = 0x00000000#32 ∨ b = 0x80000000#32 := by
  have hlt := b.isLt
  rw [isZero32_iff, magOf, ← BitVec.toNat_inj, ← BitVec.toNat_inj, BitVec.toNat_ofNat, BitVec.toNat_ofNat]
  omega

@[simp] theorem stepComputation_silent (s : State) : (stepComputation s).silent = isZero32 s.freq :=
  congrArg State.silent (stepState_eq s)

@[simp] theorem stepComputation_phaseStep (s : State) :
    (stepComputation s).phaseStep =
      if isZero32 s.freq then 0#24 else stepOfFreq s.cfg.sampleRate s.freq (tableLen s.cfg s.waveSel) :=
  congrArg State.phaseStep (stepState_eq s)

/-- Settles O32: `SILENT` is the zero test, which a NaN fails. -/
theorem silenceIsEitherZero : Obligations.SilenceIsEitherZero := by
  intro s
  rw [stepComputation_silent]
  refine ⟨isZero32_iff_eq s.freq, fun hnan => Bool.eq_false_iff.mpr fun hzero => ?_⟩
  rcases (isZero32_iff_eq s.freq).mp hzero with h | h <;> rw [h] at hnan <;> exact absurd hnan (by decide)

/-- Settles O34, by the law of `advance` for each cursor. -/
theorem advanceIsAdditionModulo : Obligations.AdvanceIsAdditionModulo := by
  refine ⟨fun s hlegal hl hr hstep => ?_, by decide⟩
  have hlen := tableLen_le hlegal s.waveSel
  exact ⟨_, _, rfl, advance_toNat hlen hl hstep, advance_toNat hlen hr hstep, advance_lt hlen hl hstep,
    advance_lt hlen hr hstep⟩

/-! ### The steps of EMIT -/

/-- `t` is `s` but for what the other agents write and for `IN_CNT`, which no word of the output stream depends on. -/
def OutputFrame (s t : State) : Prop :=
  t =
    { s with
      q := t.q, v := t.v, arbst := t.arbst, att := t.att, pins := t.pins, rstClkEdges := t.rstClkEdges
      rstWclkEdges := t.rstWclkEdges, schedule := t.schedule, levelShown := t.levelShown, inCnt := t.inCnt
      inFull := t.inFull }

theorem OutputFrame.estate {s t : State} (h : OutputFrame s t) : t.estate = s.estate := by rw [h]

@[simp] theorem takeOutput_estate (w : Word) (s : State) : (takeOutput w s).estate = s.estate := by rw [takeOutput_eq]

/-- An input side is within the frame, and so is showing `V` after it. -/
theorem outputFrame_inputSide (s : State) : OutputFrame s (latchLevel (inputSide s)) := by
  rcases inputSide_cases s with h | ⟨-, -, h⟩ <;> rw [h] <;> rfl

/-- Only an engine edge changes `ESTATE` (43_buffer_cycle.md R225). -/
theorem clkNext_of_estate_ne {s t : State} (h : step s = .next t) (hne : t.estate ≠ s.estate) : clkNext s = true :=
  Bool.of_not_eq_false fun hc => hne (step_not_clk_frame h hc).1

/-- A step that goes from STEP to EMIT is the engine's step computation (43_buffer_cycle.md R217). -/
theorem step_from_step {s t : State} (h : step s = .next t) (hs : s.estate = .step) (ht : t.estate = .emit) :
    t = latchLevel (stepState (taken s)) := by
  have hc := clkNext_of_estate_ne h (by rw [ht, hs]; decide)
  obtain ⟨u, hu, rfl⟩ := step_clk_engine h hc (by simp [ht]) (by simp [ht])
  have hs' : (taken s).estate = .step := hs
  simp only [engineStep, hs'] at hu
  cases hu
  rfl

/-- Everything a step within EMIT does to the output stream: nothing, or it moves the presented word
(43_buffer_cycle.md R218). -/
theorem step_within_emit {s t : State} (h : step s = .next t) (hs : s.estate = .emit) (ht : t.estate = .emit) :
    OutputFrame s t ∨
      ∃ w, outPending s = true ∧ sampleWord s (outCount s) = some w ∧ OutputFrame (takeOutput w s) t := by
  cases hc : clkNext s with
  | false =>
    obtain ⟨a, ha, hp⟩ := step_not_clk h hc
    obtain ⟨hframe, -, -⟩ := perform_frame ha hp
    left
    rw [hframe]
    rfl
  | true =>
    obtain ⟨u, hu, rfl⟩ := step_clk_engine h hc (by simp [ht]) (by simp [ht])
    have hs' : (taken s).estate = .emit := hs
    simp only [engineStep, hs'] at hu
    rcases emitStep_cases hu with ⟨-, -, rfl⟩ | ⟨-, ⟨rfl, -⟩ | ⟨w, hpend, -, hw, rfl⟩⟩
    · cases ht
    · left
      rw [outputFrame_inputSide (taken s)]
      rfl
    · refine .inr ⟨w, hpend, hw, ?_⟩
      rw [outputFrame_inputSide (takeOutput w (taken s)), takeOutput_eq, takeOutput_eq]
      rfl

/-- A step from EMIT to IDLE without reset is the cycle's completion (43_buffer_cycle.md R220). -/
theorem step_emit_to_idle {s t : State} (h : step s = .next t) (hs : s.estate = .emit) (ht : t.estate = .idle)
    (hrst : s.pins.rst = false) : outCount s = bufferWords s ∧ t = latchLevel (completeCycle (taken s)) := by
  have hc := clkNext_of_estate_ne h (by rw [ht, hs]; decide)
  obtain ⟨u, hu, rfl⟩ := clkEdge_eq_next.mp (step_clk h hc)
  have hs' : (taken s).estate = .emit := hs
  rcases clkStep_cases hu with ⟨hr, -⟩ | ⟨-, -, -, rfl⟩ | ⟨-, -, -, -, rfl⟩ | ⟨-, -, -, hx⟩
  · exact absurd (hr.symm.trans hrst) (by decide)
  · exact absurd (ht.symm.trans (raiseFatal_estate _ _)) (by decide)
  · exact absurd (ht.symm.trans (raiseFatal_estate _ _)) (by decide)
  · simp only [engineStep, hs'] at hx
    rcases emitStep_cases hx with ⟨hout, -, rfl⟩ | ⟨-, ⟨rfl, -⟩ | ⟨w, -, -, -, rfl⟩⟩
    · exact ⟨hout, rfl⟩
    · have he := (outputFrame_inputSide (taken s)).estate
      exact absurd (ht.symm.trans (he.trans hs')) (by decide)
    · have he := (outputFrame_inputSide (takeOutput w (taken s))).estate
      exact absurd (ht.symm.trans (he.trans ((takeOutput_estate w _).trans hs'))) (by decide)

/-! ### The progress of a buffer -/

/-- What word `j` of the buffer that begins in `s` is (42_synthesis.md R186, R190). -/
def bufferEntry (s : State) (j : Nat) : Option Word :=
  if s.silent then some 0x00000000#32
  else waveRom s.cfg s.waveSel ((s.lphase.toNat + j / 2 * s.phaseStep.toNat) % tableLen s.cfg s.waveSel)

theorem bufferEntry_of_silent {s : State} (h : s.silent = true) : bufferEntry s = fun _ => some 0x00000000#32 := by
  funext j
  rw [bufferEntry, if_pos h]

theorem bufferEntry_of_sounding {s : State} (h : s.silent = false) :
    bufferEntry s = fun j =>
      waveRom s.cfg s.waveSel ((s.lphase.toNat + j / 2 * s.phaseStep.toNat) % tableLen s.cfg s.waveSel) := by
  funext j
  rw [bufferEntry, h]
  rfl

/-- How far the buffer that began in `s` has come in `t`: `OUT_CNT` of its words are out, and the cursors have
advanced once for each complete frame.  In a silent buffer they have advanced by a step of 0. -/
structure BufferProgress (s t : State) : Prop where
  cfg : t.cfg = s.cfg
  waveSel : t.waveSel = s.waveSel
  phaseStep : t.phaseStep = s.phaseStep
  silent : t.silent = s.silent
  cursors_eq : t.lphase = t.rphase
  lphase : t.lphase.toNat = (s.lphase.toNat + outCount t / 2 * s.phaseStep.toNat) % tableLen s.cfg s.waveSel
  words : t.outWords.map some = (List.range (outCount t)).map (bufferEntry s)

theorem BufferProgress.of_frame {s t u : State} (hp : BufferProgress s t) (h : OutputFrame t u) :
    BufferProgress s u := by
  rw [h]
  exact { hp with cfg := hp.cfg }

/-- At the start of EMIT nothing is out. -/
theorem bufferProgress_start {s : State} (hinv : Inv s) (h0 : outCount s = 0) : BufferProgress s s where
  cfg := rfl
  waveSel := rfl
  phaseStep := rfl
  silent := rfl
  cursors_eq := hinv.cursors_eq
  lphase := by simp [h0, Nat.mod_eq_of_lt hinv.lphase_lt]
  words := by
    have hnil : s.outWords = [] := List.length_eq_zero_iff.mp (hinv.out_words.trans h0)
    simp [hnil, h0]

section
variable {s t : State} (hinv : Inv s) (he : s.estate = .emit) (hp : BufferProgress s t)
include hp

/-- The word presented next is the buffer's entry of its index: both cursors are where the frames so far have brought
them. -/
theorem BufferProgress.sampleWord_eq : sampleWord t (outCount t) = bufferEntry s (outCount t) := by
  rw [sampleWord, bufferEntry, hp.silent, ← hp.cursors_eq, ite_self, hp.cfg, hp.waveSel, hp.lphase]

include hinv he

/-- A cursor after the advance of the next word, where that word is a right one of a sounding frame, is where the
frames then complete bring it. -/
theorem BufferProgress.cursor_next :
    (if outCount t % 2 = 1 ∧ t.silent = false then advance (tableLen t.cfg t.waveSel) t.phaseStep t.lphase
      else t.lphase).toNat =
      (s.lphase.toNat + (outCount t + 1) / 2 * s.phaseStep.toNat) % tableLen s.cfg s.waveSel := by
  have hlt : t.lphase.toNat < tableLen s.cfg s.waveSel := by
    rw [hp.lphase]
    exact Nat.mod_lt _ (tableLen_pos hinv.legal _)
  rw [hp.cfg, hp.waveSel, hp.phaseStep, hp.silent]
  split
  · rename_i h
    have hframe : (outCount t + 1) / 2 = outCount t / 2 + 1 := by omega
    rw [advance_toNat (tableLen_le hinv.legal _) hlt (hinv.step_lt he), hp.lphase, Nat.mod_add_mod, hframe,
      Nat.add_one_mul, Nat.add_assoc]
  · rename_i h
    rw [hp.lphase]
    cases hsilent : s.silent with
    | true => simp [(hinv.emit_silent he).2 hsilent]
    | false =>
      have hframe : (outCount t + 1) / 2 = outCount t / 2 := by
        simp only [hsilent, and_true] at h
        omega
      rw [hframe]

/-- The transfer of the presented word keeps the progress. -/
theorem BufferProgress.of_takeOutput {w : Word} (hpend : outPending t = true) (hw : sampleWord t (outCount t) = some w) :
    BufferProgress s (takeOutput w t) := by
  have hcount : countOf (t.outCnt + 1#31) (nextFull t.outCnt t.outFull) = outCount t + 1 := by
    refine countOf_next_of_lt hinv ?_
    simpa [outPending, outCount, bufferWords, hp.cfg] using hpend
  rw [takeOutput_eq]
  exact
    { hp with
      cursors_eq := by simp only [hp.cursors_eq]
      lphase := by
        show _ = (_ + countOf _ _ / 2 * _) % _
        rw [hcount]
        exact hp.cursor_next hinv he
      words := by
        show (t.outWords ++ [w]).map some = (List.range (countOf _ _)).map _
        rw [hcount, List.range_succ, List.map_append, List.map_append, hp.words, List.map_singleton,
          List.map_singleton, ← hp.sampleWord_eq, hw] }

end

/-- Both ends of a path have its `ESTATE`. -/
theorem staysIn_estate {e : EState} {s t : State} (h : StaysIn e s t) : s.estate = e ∧ t.estate = e := by
  induction h with
  | refl he => exact ⟨he, he⟩
  | tail _ _ _ _ hu ih => exact ⟨ih.1, hu⟩

/-- Along a path within EMIT the progress is kept. -/
theorem bufferProgress_of_staysIn {s t : State} (hinv : Inv s) (h0 : outCount s = 0) (h : StaysIn .emit s t) :
    BufferProgress s t := by
  induction h with
  | refl => exact bufferProgress_start hinv h0
  | tail t u hst hstep hu ih =>
    obtain ⟨hs, ht⟩ := staysIn_estate hst
    rcases step_within_emit hstep ht hu with hframe | ⟨w, hpend, hw, hframe⟩
    · exact ih.of_frame hframe
    · exact (ih.of_takeOutput hinv hs hpend hw).of_frame hframe

/-- Where EMIT begins: the step computation's results, no word out yet, and all else that the output depends on as it
was in STEP. -/
theorem emit_start {s t : State} (hinv : Inv s) (h : step s = .next t) (hs : s.estate = .step)
    (ht : t.estate = .emit) :
    Inv t ∧ outCount t = 0 ∧ t.silent = isZero32 s.freq ∧ t.phaseStep = (stepComputation s).phaseStep ∧
      t.cfg = s.cfg ∧ t.waveSel = s.waveSel ∧ t.lphase = s.lphase := by
  have hstep := step_from_step h hs ht
  have hinvt : Inv t := hstep ▸ inv_latchLevel (inv_stepState (inv_schedule hinv _) hs)
  rw [stepState_eq] at hstep
  rw [stepComputation_phaseStep]
  refine ⟨hinvt, ?_⟩
  rw [hstep]
  exact ⟨(hinv.counts_clear (.inr hs)).1, rfl, rfl, rfl, rfl, rfl⟩

/-- Settles O35: the buffer's progress holds at the start of EMIT, is kept by every step within EMIT, and is complete
where the cycle completes. -/
theorem bufferHasItsClosedForm : Obligations.BufferHasItsClosedForm := by
  intro s s0 t u hinv hs hstart hstay hend hu hrst
  obtain ⟨hs0, ht⟩ := staysIn_estate hstay
  obtain ⟨hinv0, hcount0, hsilent, hphaseStep, hcfg, hwave, hphase⟩ := emit_start hinv hstart hs hs0
  have hp := bufferProgress_of_staysIn hinv0 hcount0 hstay
  obtain ⟨hcount, rfl⟩ := step_emit_to_idle hend ht hu hrst
  have hfull : outCount t = 2 * s.cfg.fpb := by rw [hcount, bufferWords, hp.cfg, hcfg]
  have hwords := hp.words
  have hcursor := hp.lphase
  rw [hfull] at hwords
  rw [hfull, ← hp.phaseStep, hcfg, hwave, hphase, Nat.mul_div_cancel_left _ (by decide)] at hcursor
  have hps : t.phaseStep = (stepComputation s).phaseStep := hp.phaseStep.trans hphaseStep
  refine ⟨hp.cursors_eq, rfl, fun hzero => ⟨?_, ?_⟩, fun hnonzero => ⟨?_, hcursor, hps⟩⟩
  · rw [bufferEntry_of_silent (hsilent.trans hzero), List.map_const', List.length_range, ← List.map_replicate] at hwords
    exact List.map_injective_iff.mpr (Option.some_injective _) hwords
  · rw [hps, stepComputation_phaseStep, if_pos hzero] at hcursor
    refine BitVec.eq_of_toNat_eq (hcursor.trans ?_)
    simpa using Nat.mod_eq_of_lt hinv.lphase_lt
  · rw [bufferEntry_of_sounding (hsilent.trans hnonzero), hcfg, hwave, hphase, ← hp.phaseStep] at hwords
    exact hwords

end Sys2Proof.Machine

/-! The transitions of the buffer cycle (43_buffer_cycle.md R212, R216, R225): O49, O45, O46. -/

namespace Sys2Proof.Machine

open Sys2Proof.Safety

/-! ### The order of the conditions of one `clk` edge (60_exceptions.md R250) -/

/-- Reset comes before everything (70_reset_and_hazards.md R280). -/
theorem clkStep_of_rst {s : State} (hrst : s.pins.rst = true) : clkStep s = .next (applyReset s) := by
  rw [clkStep, if_pos hrst]

/-- Without reset a driver error outside FATAL comes next (43_buffer_cycle.md R222). -/
theorem clkStep_of_drvFatal {s : State} (hrst : s.pins.rst = false) (hdrv : s.pins.drvFatal = true)
    (hrun : s.estate ≠ .fatal) : clkStep s = .next (raiseFatal causeDriverFatal s) := by
  simp [clkStep, hrst, hdrv, hrun]

/-- Then a cycle start while busy (43_buffer_cycle.md R221). -/
theorem clkStep_of_overlap {s : State} (hrst : s.pins.rst = false) (hdrv : s.pins.drvFatal = false ∨ s.estate = .fatal)
    (hcyc : s.pins.cycStart = true) (hbusy : busy s.estate = true) :
    clkStep s = .next (raiseFatal causeCycleOverlap s) := by
  rcases hdrv with hdrv | he
  · simp [clkStep, hrst, hdrv, hcyc, hbusy]
  · rw [he] at hbusy
    cases hbusy

/-- With none of these the edge is the engine's own step. -/
theorem clkStep_eq_engineStep {s : State} (hrst : s.pins.rst = false)
    (hdrv : s.pins.drvFatal = false ∨ s.estate = .fatal) (hcyc : s.pins.cycStart = false ∨ busy s.estate = false) :
    clkStep s = engineStep s := by
  have herror : ¬ (s.pins.drvFatal && s.estate != .fatal) = true := by rcases hdrv with h | h <;> simp [h]
  have hoverlap : ¬ (s.pins.cycStart && busy s.estate) = true := by rcases hcyc with h | h <;> simp [h]
  rw [clkStep, if_neg (by simp [hrst]), if_neg herror, if_neg hoverlap]

/-- Outside FATAL `raise Fatal` goes to FATAL with its cause (60_exceptions.md R245). -/
theorem raiseFatal_estate_cause {s : State} (c : BitVec 2) (h : s.estate ≠ .fatal) :
    (raiseFatal c s).estate = .fatal ∧ (raiseFatal c s).fatalCause = c := by
  rw [raiseFatal_of_running c s h]
  exact ⟨rfl, rfl⟩

/-- An edge in a busy state is the overlap where a cycle start is offered, and the engine's own step, whatever `P` that
makes true, where none is. -/
theorem overlap_or_engineStep {s t : State} {P : Prop} (h : clkStep s = .next t) (hrst : s.pins.rst = false)
    (hdrv : s.pins.drvFatal = false ∨ s.estate = .fatal) (hbusy : busy s.estate = true)
    (hown : engineStep s = .next t → P) :
    if s.pins.cycStart = true then t.estate = .fatal ∧ t.fatalCause = 3#2 else P := by
  have hrun : s.estate ≠ .fatal := fun he => by
    rw [he] at hbusy
    cases hbusy
  split
  · rename_i hcyc
    rw [clkStep_of_overlap hrst hdrv hcyc hbusy] at h
    cases h
    exact raiseFatal_estate_cause _ hrun
  · rename_i hcyc
    rw [clkStep_eq_engineStep hrst hdrv (.inl (Bool.eq_false_iff.mpr hcyc))] at h
    exact hown h

/-! ### The engine's own transitions, one for each `ESTATE` -/

/-- When a length is wrong (43_buffer_cycle.md R212). -/
theorem lengthMismatch_iff {s : State} :
    lengthMismatch s = true ↔ s.pins.cycInLen.toNat ≠ bufferWords s ∨ s.pins.cycOutLen.toNat ≠ bufferWords s := by
  simp [lengthMismatch]

/-- In IDLE the engine waits, starts a cycle, or refuses its lengths (43_buffer_cycle.md R211, R212, R224). -/
theorem engineStep_from_idle {s t : State} (h : engineStep s = .next t) (he : s.estate = .idle) :
    t.estate = (if s.pins.cycStart then (if lengthMismatch s then .fatal else .drain) else .idle) ∧
      (s.pins.cycStart = true → lengthMismatch s = true → t.fatalCause = 1#2) := by
  simp only [engineStep, he] at h
  cases h
  cases hcyc : s.pins.cycStart with
  | false => simp [he]
  | true =>
    simp only [if_true, cycleStart_eq]
    cases hlen : lengthMismatch s with
    | true =>
      obtain ⟨hfatal, hcause⟩ := raiseFatal_estate_cause causeLenMismatch (s := s) (by simp [he])
      exact ⟨hfatal, fun _ _ => hcause⟩
    | false => simp

/-- In DRAIN the engine makes a drain step, or ends the drain (43_buffer_cycle.md R215, R216). -/
theorem engineStep_from_drain {s t : State} (h : engineStep s = .next t) (he : s.estate = .drain) :
    t.estate = if s.drainLeft = 0#11 then .step else .drain := by
  simp only [engineStep, he] at h
  split at h
  · rename_i hleft
    cases h
    rw [if_pos hleft]
    rfl
  · rename_i hleft
    obtain ⟨w, rest, s2, -, -, ha, rfl⟩ := drainStep_eq_next h
    rw [if_neg hleft]
    exact (exec_estate ha).trans he

/-- STEP takes one edge (43_buffer_cycle.md R217). -/
theorem engineStep_from_step {s t : State} (h : engineStep s = .next t) (he : s.estate = .step) :
    t.estate = .emit := by
  simp only [engineStep, he] at h
  cases h
  rfl

/-- An edge in EMIT completes the cycle where both streams are complete, and stays where one is not
(43_buffer_cycle.md R220). -/
theorem engineStep_from_emit {s t : State} (h : engineStep s = .next t) (he : s.estate = .emit) :
    t.estate = if outCount s = bufferWords s ∧ inCount s = bufferWords s then .idle else .emit := by
  simp only [engineStep, he] at h
  rcases emitStep_cases h with ⟨hout, hin, rfl⟩ | ⟨hopen, ⟨rfl, -⟩ | ⟨w, -, -, -, rfl⟩⟩
  · rw [if_pos ⟨hout, hin⟩]
    rfl
  · rw [if_neg hopen]
    exact (outputFrame_inputSide s).estate.trans he
  · rw [if_neg hopen]
    exact (outputFrame_inputSide (takeOutput w s)).estate.trans ((takeOutput_estate w s).trans he)

/-- In FATAL the engine takes no step (60_exceptions.md R241). -/
theorem engineStep_from_fatal {s t : State} (h : engineStep s = .next t) (he : s.estate = .fatal) : t = s := by
  simp only [engineStep, he] at h
  cases h
  rfl

/-- Settles O49: reset, the driver error and the overlap in their order, and then the table's row for each `ESTATE`. -/
theorem sequencerTakesOnlyItsTransitions : Obligations.SequencerTakesOnlyItsTransitions := by
  intro s t hinv h
  cases hclk : clkNext s with
  | false =>
    obtain ⟨hsame, -⟩ := step_not_clk_frame h hclk
    simpa [resetNext, hclk] using hsame
  | true =>
    obtain ⟨u, hu, rfl⟩ := clkEdge_eq_next.mp (step_clk h hclk)
    simp only [resetNext, hclk, Bool.true_and, true_and, if_true]
    split
    · rename_i hrst
      rw [clkStep_of_rst (s := taken s) hrst] at hu
      cases hu
      rfl
    · rename_i hrst
      have hrst : (taken s).pins.rst = false := Bool.eq_false_iff.mpr hrst
      split
      · rename_i hfatal
        obtain ⟨hdrv, hrun⟩ := hfatal
        rw [clkStep_of_drvFatal hrst hdrv hrun] at hu
        cases hu
        exact raiseFatal_estate_cause (s := taken s) _ hrun
      · rename_i hquiet
        have hdrv : s.pins.drvFatal = false ∨ s.estate = .fatal := by
          simpa only [not_and_or, ne_eq, not_not, Bool.not_eq_true] using hquiet
        cases he : s.estate with
        | idle =>
          rw [clkStep_eq_engineStep hrst hdrv (.inr (congrArg busy he :))] at hu
          exact (engineStep_from_idle hu he :)
        | drain => exact (overlap_or_engineStep hu hrst hdrv (congrArg busy he :) (engineStep_from_drain · he) :)
        | step => exact (overlap_or_engineStep hu hrst hdrv (congrArg busy he :) (engineStep_from_step · he) :)
        | emit => exact (overlap_or_engineStep hu hrst hdrv (congrArg busy he :) (engineStep_from_emit · he) :)
        | fatal =>
          rw [clkStep_eq_engineStep hrst hdrv (.inr (congrArg busy he :))] at hu
          rw [engineStep_from_fatal hu he]
          exact he
        | undefinedCode c => exact hinv.estate_defined c he

/-! ### The whole state after a wrong length and after the drain's end -/

/-- Settles O45: the length check comes before everything else of the cycle start. -/
theorem wrongLengthIsFatal : Obligations.WrongLengthIsFatal := by
  intro s hidle hrst hdrv hcyc hlen
  have hedge : clkStep s = .next (raiseFatal causeLenMismatch s) := by
    rw [clkStep_eq_engineStep hrst (.inl hdrv) (.inr (by rw [hidle]; rfl)), engineStep, hidle]
    simp only [hcyc, if_true, cycleStart_eq, if_pos (lengthMismatch_iff.mpr hlen)]
  rw [raiseFatal_of_running _ _ (by simp [hidle])] at hedge
  exact clkEdge_next hedge

/-- The drain's end written out (43_buffer_cycle.md R216, 40_command_fifo.md R134). -/
theorem drainEnd_eq (s : State) :
    drainEnd s =
      if (∀ b ∈ s.att, b = false) ∧ s.v = 0#11 ∧ s.discLogged = false then
        { s with
          estate := .step, discLogged := true, events := s.events ++ [⟨codeDisconnected, 0x00000000#32⟩] }
      else { s with estate := .step } := by
  have hcond : (disconnected s && !s.discLogged) = true ↔
      (∀ b ∈ s.att, b = false) ∧ s.v = 0#11 ∧ s.discLogged = false := by
    simp [disconnected, and_assoc]
  simp only [drainEnd, disconnectionCheck, hcond]
  split <;> rfl

/-- Settles O46, by the drain's end written out. -/
theorem drainEndChecksTheConnection : Obligations.DrainEndChecksTheConnection := by
  intro s hdrain hleft hrst hdrv hcyc
  have hedge : clkStep s = .next (drainEnd s) := by
    rw [clkStep_eq_engineStep hrst (.inl hdrv) (.inl hcyc), engineStep, hdrain]
    exact if_pos hleft
  refine (clkEdge_next hedge).trans ?_
  rw [drainEnd_eq]
  split <;> rfl

end Sys2Proof.Machine

/-! What a step from FATAL leaves unchanged (60_exceptions.md R246): O51. -/

namespace Sys2Proof.Machine

open Sys2Proof.Safety

/-- In FATAL a `clk` edge without reset only shows the present state at the register port: a driver error and a cycle
start raise nothing (60_exceptions.md R246). -/
theorem clkEdge_from_fatal {s t : State} (h : clkEdge s = .next t) (he : s.estate = .fatal)
    (hrst : s.pins.rst = false) : t = latchLevel s := by
  obtain ⟨u, hu, rfl⟩ := clkEdge_eq_next.mp h
  rw [clkStep_eq_engineStep hrst (.inr he) (.inr (by rw [he]; rfl))] at hu
  rw [engineStep_from_fatal hu he]

/-- In FATAL a step of another agent leaves the FIFO's words too, since no port is ready (40_command_fifo.md R123). -/
theorem perform_from_fatal {a : Action} {s t : State} (ha : a ≠ .clk) (h : perform a s = .next t)
    (he : s.estate = .fatal) :
    t =
      { s with
        v := t.v, att := t.att, arbst := t.arbst, pins := t.pins
        rstClkEdges := t.rstClkEdges, rstWclkEdges := t.rstWclkEdges } := by
  obtain ⟨hframe, -, hq⟩ := perform_frame ha h
  rwa [hq he] at hframe

/-- What a step from FATAL that is not a reset edge may write. -/
theorem step_from_fatal {s t : State} (h : step s = .next t) (he : s.estate = .fatal) (hr : resetNext s = false) :
    t =
      { s with
        v := t.v, att := t.att, arbst := t.arbst, pins := t.pins, levelShown := t.levelShown
        rstClkEdges := t.rstClkEdges, rstWclkEdges := t.rstWclkEdges, schedule := t.schedule } := by
  cases hclk : clkNext s with
  | false =>
    obtain ⟨a, ha, hp⟩ := step_not_clk h hclk
    have hframe := perform_from_fatal ha hp he
    have hlevel : t.levelShown = s.levelShown := (congrArg State.levelShown hframe :)
    have hschedule : t.schedule = s.schedule.tail := (congrArg State.schedule hframe :)
    rw [hlevel, hschedule]
    exact hframe
  | true =>
    have hrst : s.pins.rst = false := by simpa [resetNext, hclk] using hr
    rw [clkEdge_from_fatal (step_clk h hclk) he hrst]
    rfl

/-- Settles O51, by the frame of a step from FATAL; the invariant gives `FATAL` itself. -/
theorem fatalKeepsTheFirstCause : Obligations.FatalKeepsTheFirstCause := by
  intro s t hinv he h hr
  have hframe := step_from_fatal h he hr
  refine ⟨?_, ?_, ?_, ?_, ?_, hframe⟩ <;> rw [hframe]
  · exact he
  · exact hinv.fatal_iff.mpr he

end Sys2Proof.Machine

/-! Encoding and decoding are inverse (30_encoding.md R98 to R100), example words and MIDI words: O1, O2, O6, O7. -/

namespace Sys2Proof

open Machine

/-! ### What decodes to a well-formed instruction -/

/-- The line a word meets is a well-formed one: its condition is what `wf` asks of the operands. -/
theorem wf_of_meetsLine {w : CmdWord} {i : Instr} (h : MeetsLine w i) : i.wf = true := by
  cases i with
  | noteOn n => rfl
  | noteOff => rfl
  | setParam v => rfl
  | setParamUnknown id =>
    obtain ⟨-, hsub, rfl⟩ := h
    simpa [Instr.wf, Instr.unknownIdOk] using hsub
  | setWave k => rfl
  | setWaveInvalid kind =>
    obtain ⟨-, hkind, rfl⟩ := h
    simpa [Instr.wf, Instr.invalidKindOk] using hkind
  | reserved o =>
    obtain ⟨hon, hoff, hparam, hwave, rfl⟩ := h
    simp [Instr.wf, Instr.reservedOpcOk, hon, hoff, hparam, hwave]

/-- A waveform kind of two bits is at most 3 in the payload. -/
theorem setWidth_kind_le (k : BitVec 2) : (k.setWidth 32).toNat ≤ 3 := by
  have := k.isLt
  rw [BitVec.toNat_setWidth]
  omega

/-- The word of a well-formed instruction meets its line, and no operand is lost in it. -/
theorem meetsLine_encode {i : Instr} (h : i.wf = true) : MeetsLine (encode i) i := by
  cases i with
  | noteOn n => exact ⟨opcField_mkWord .., by simp [encode]⟩
  | noteOff => exact opcField_mkWord ..
  | setParam v => exact ⟨opcField_mkWord .., subField_mkWord .., (payloadField_mkWord ..).symm⟩
  | setParamUnknown id =>
    refine ⟨opcField_mkWord .., ?_, (subField_mkWord ..).symm⟩
    simpa [encode, Instr.wf, Instr.unknownIdOk] using h
  | setWave k => exact ⟨opcField_mkWord .., by simpa [encode] using setWidth_kind_le k, by simp [encode]⟩
  | setWaveInvalid kind =>
    refine ⟨opcField_mkWord .., ?_, (payloadField_mkWord ..).symm⟩
    simpa [encode, Instr.wf, Instr.invalidKindOk] using h
  | reserved o =>
    obtain ⟨hon, hoff, hparam, hwave⟩ : o ≠ 0x90#8 ∧ o ≠ 0x80#8 ∧ o ≠ 0x01#8 ∧ o ≠ 0x02#8 := by
      simpa [Instr.wf, Instr.reservedOpcOk, and_assoc] using h
    simp [MeetsLine, encode, hon, hoff, hparam, hwave]

/-- Settles O1: the encoded word meets the instruction's line, and a word is decoded by the line it meets. -/
theorem decodeOfEncodeIsIdentity : Obligations.DecodeOfEncodeIsIdentity := fun _ h =>
  decode_of_meetsLine (meetsLine_encode h)

/-! ### The bits a line reads -/

/-- The fields of a word under a mask given by its fields. -/
theorem word_and_mkWord (w : CmdWord) (mo ms : BitVec 8) (mp : Word) :
    w &&& mkWord mo ms mp = mkWord (opcField w &&& mo) (subField w &&& ms) (payloadField w &&& mp) := by
  rw [← mkWord_and, mkWord_fields]

/-- The note number is the payload's low byte. -/
theorem setWidth_noteField (w : CmdWord) : (noteField w).setWidth 32 = payloadField w &&& 0x000000FF#32 := by
  apply BitVec.eq_of_toNat_eq
  rw [BitVec.toNat_and, BitVec.toNat_setWidth, noteField, payloadField, toNat_field, toNat_field]
  rw [show (0x000000FF#32).toNat = 2 ^ 8 - 1 from rfl, Nat.and_two_pow_sub_one_eq_mod]
  omega

/-- A kind of at most 3 is its two low bits. -/
theorem setWidth_kindField {w : CmdWord} (h : (payloadField w).toNat ≤ 3) :
    (kindField w).setWidth 32 = payloadField w := by
  apply BitVec.eq_of_toNat_eq
  rw [payloadField, toNat_field] at h
  rw [BitVec.toNat_setWidth, kindField, payloadField, toNat_field, toNat_field]
  omega

/-- Encoding an instruction whose line a word meets gives back the bits that the line reads. -/
theorem encode_of_meetsLine {w : CmdWord} {i : Instr} (h : MeetsLine w i) : encode i = w &&& careMask i := by
  cases i with
  | noteOn n =>
    obtain ⟨hopc, rfl⟩ := h
    rw [encode, careMask, show 0xFF00000000FF#48 = mkWord (.allOnes 8) 0x00#8 0x000000FF#32 by decide, word_and_mkWord, hopc,
      setWidth_noteField]
    simp only [BitVec.and_allOnes, BitVec.and_zero]
  | noteOff =>
    have hopc : opcField w = 0x80#8 := h
    rw [encode, careMask, show 0xFF0000000000#48 = mkWord (.allOnes 8) 0x00#8 0x00000000#32 by decide, word_and_mkWord, hopc]
    simp only [BitVec.and_allOnes, BitVec.and_zero]
  | setParam v =>
    obtain ⟨hopc, hsub, rfl⟩ := h
    rw [encode, careMask, show 0xFFFFFFFFFFFF#48 = mkWord (.allOnes 8) (.allOnes 8) (.allOnes 32) by decide, word_and_mkWord, hopc,
      hsub]
    simp only [BitVec.and_allOnes]
  | setParamUnknown id =>
    obtain ⟨hopc, -, rfl⟩ := h
    rw [encode, careMask, show 0xFFFF00000000#48 = mkWord (.allOnes 8) (.allOnes 8) 0x00000000#32 by decide, word_and_mkWord, hopc]
    simp only [BitVec.and_allOnes, BitVec.and_zero]
  | setWave k =>
    obtain ⟨hopc, hkind, rfl⟩ := h
    rw [encode, careMask, show 0xFF00FFFFFFFF#48 = mkWord (.allOnes 8) 0x00#8 (.allOnes 32) by decide, word_and_mkWord, hopc,
      setWidth_kindField hkind]
    simp only [BitVec.and_allOnes, BitVec.and_zero]
  | setWaveInvalid kind =>
    obtain ⟨hopc, -, rfl⟩ := h
    rw [encode, careMask, show 0xFF00FFFFFFFF#48 = mkWord (.allOnes 8) 0x00#8 (.allOnes 32) by decide, word_and_mkWord, hopc]
    simp only [BitVec.and_allOnes, BitVec.and_zero]
  | reserved o =>
    obtain ⟨-, -, -, -, rfl⟩ := h
    rw [encode, careMask, show 0xFF0000000000#48 = mkWord (.allOnes 8) 0x00#8 0x00000000#32 by decide, word_and_mkWord]
    simp only [BitVec.and_allOnes, BitVec.and_zero]

/-- Settles O2: both parts hold of every instruction whose line a word meets. -/
theorem encodeOfDecodeKeepsTheReadBits : Obligations.EncodeOfDecodeKeepsTheReadBits := fun w =>
  ⟨encode_of_meetsLine (meetsLine_decode w), wf_of_meetsLine (meetsLine_decode w)⟩

/-! ### Written-out words -/

/-- Settles O6: the seven words are fixed, so decoding them is a computation. -/
theorem writtenWordsDecode : Obligations.WrittenWordsDecode := by
  unfold Obligations.WrittenWordsDecode
  decide

/-- A status byte with bit 7 set is neither SET_PARAM's opcode nor SET_WAVE's. -/
theorem status_ne {status : BitVec 8} (h : status.getLsbD 7 = true) : status ≠ 0x01#8 ∧ status ≠ 0x02#8 := by
  constructor <;> rintro rfl <;> exact absurd h (by decide)

/-- Settles O7: the forwarded word has the status for its opcode, and that decides the line. -/
theorem midiEventsForwardUnchanged : Obligations.MidiEventsForwardUnchanged := by
  intro status data hbit
  obtain ⟨hparam, hwave⟩ := status_ne hbit
  unfold midiWord
  split_ifs with hon hoff
  · rw [hon, decode_mkWord_noteOn, extract_setWidth_note]
  · rw [hoff, decode_mkWord_noteOff]
  · exact decode_of_meetsLine (i := .reserved status) (by simp [MeetsLine, hon, hoff, hparam, hwave])

end Sys2Proof

/-! The invariant: it holds at reset, every step keeps it, and it excludes the faults (10_state.md, 93_implementation_defined.md
section 2): O58, O59, O60. -/

namespace Sys2Proof.Machine

open Sys2Proof.Safety

/-! ### Reset -/

/-- The reset state of a legal block (70_reset_and_hazards.md R280). -/
theorem inv_resetOf {c : Config} (h : configLegal c = true) : Inv (State.resetOf c) where
  legal := h
  lphase_lt := tableLen_pos h 0#2
  cursors_eq := rfl
  step_lt := nofun
  emit_silent := nofun
  v_le := le_rfl
  q_le := Nat.zero_le _
  drain_le := le_rfl
  drain_over _ := rfl
  fatal_iff := by simp [State.resetOf]
  cause_iff := by simp [State.resetOf]
  estate_defined := nofun
  out_le := Nat.zero_le _
  in_le := Nat.zero_le _
  counts_clear _ := ⟨rfl, rfl⟩
  out_words := rfl
  att_len := List.length_replicate
  event_codes := nofun
  disc_once := rfl
  fatal_once := rfl
  cnt_unknown := rfl
  cnt_unsupported := rfl
  cnt_bad_wave := rfl
  cnt_in_ovf := rfl
  cnt_out_unf := rfl
  rst_counts _ := ⟨rfl, rfl⟩

/-- Settles O59; the model's own configuration is CFG-8, which is legal. -/
theorem invariantHoldsAtReset : Obligations.InvariantHoldsAtReset :=
  ⟨fun _ h => inv_resetOf h, inv_resetOf (by decide)⟩

/-- A reset edge leaves the reset state but for the inputs and the edge counts. -/
theorem inv_applyReset {s : State} (h : Inv s) (hrst : s.pins.rst = true) : Inv (applyReset s) :=
  { inv_resetOf h.legal with rst_counts := fun hlow => absurd (hrst.symm.trans hlow) (by decide) }

/-! ### The engine's edge -/

theorem inv_emitStep {s t : State} (h : Inv s) (he : s.estate = .emit) (hx : emitStep s = .next t) : Inv t := by
  rcases emitStep_cases hx with ⟨-, -, rfl⟩ | ⟨-, ⟨rfl, -⟩ | ⟨w, hpend, -, -, rfl⟩⟩
  · exact inv_completeCycle h he
  · exact inv_inputSide h he
  · exact inv_inputSide (inv_takeOutput h he hpend w) ((takeOutput_estate w s).trans he)

theorem inv_engineStep {s t : State} (h : Inv s) (hx : engineStep s = .next t) : Inv t := by
  rcases engineStep_cases hx with
    ⟨-, -, rfl⟩ | ⟨he, -, rfl⟩ | ⟨he, hd, rfl⟩ | ⟨he, hd, hs⟩ | ⟨he, rfl⟩ | ⟨he, hs⟩ | ⟨-, rfl⟩
  · exact h
  · exact inv_cycleStart h he
  · exact inv_drainEnd h he hd
  · exact (inv_drainStep h he hd hs).1
  · exact inv_stepState h he
  · exact inv_emitStep h he hs
  · exact h

theorem inv_clkEdge {s t : State} (h : Inv s) (hx : clkEdge s = .next t) : Inv t := by
  obtain ⟨u, hu, rfl⟩ := clkEdge_eq_next.mp hx
  refine inv_latchLevel ?_
  rcases clkStep_cases hu with ⟨hrst, rfl⟩ | ⟨-, -, -, rfl⟩ | ⟨-, -, -, -, rfl⟩ | ⟨-, -, -, hs⟩
  · exact inv_applyReset h hrst
  · exact inv_raiseFatal h _ (by decide)
  · exact inv_raiseFatal h _ (by decide)
  · exact inv_engineStep h hs

/-! ### The other agents -/

theorem inv_wclkEdge {s : State} (h : Inv s) (g : Option Nat) (arb : Nat) : Inv (wclkEdge g arb s) := by
  rcases wclkEdge_cases g arb s with ⟨hrst, hs⟩ | ⟨-, hs⟩ | ⟨-, hroom, -, p, -, hs⟩ <;> rw [hs]
  · exact { h with rst_counts := fun hlow => absurd (hrst.symm.trans hlow) (by decide) }
  · exact { h with legal := h.legal }
  · exact
      { h with
        v_le := h.v_le.trans (by simp)
        q_le := by simpa using hroom }

/-- The crossing makes one more of the FIFO's words visible, of which there are at most 1024. -/
theorem crossed_v {s : State} (h : Inv s) (hlt : s.v.toNat < s.q.length) : (s.v + 1#11).toNat = s.v.toNat + 1 := by
  have hq : s.q.length ≤ 1024 := h.q_le
  exact add_one_toNat _ (by omega)

theorem inv_crossStep {s : State} (h : Inv s) : Inv (crossStep s) := by
  rcases crossStep_cases s with hs | ⟨-, hlt, hs⟩ <;> rw [hs]
  · exact h
  · have hv := crossed_v h hlt
    exact
      { h with
        v_le := hv.trans_le hlt
        drain_le := h.drain_le.trans (by rw [hv]; exact Nat.le_succ _) }

theorem inv_sampleAttachStep {s : State} (h : Inv s) (p : Nat) : Inv (sampleAttachStep p s) := by
  rcases sampleAttachStep_cases p s with hs | ⟨b, hs⟩ <;> rw [hs]
  · exact h
  · exact { h with att_len := (List.length_set ..).trans h.att_len }

theorem inv_drivePins {s t : State} (h : Inv s) {p : Pins} (hx : drivePins p s = .next t) : Inv t := by
  rcases drivePins_cases p s with ⟨hs, -⟩ | hs <;> rw [hs] at hx <;> cases hx
  exact { h with rst_counts := fun hlow => by simp [show p.rst = false from hlow] }

/-- Every agent's step keeps the invariant (00_scope.md R14). -/
theorem inv_perform {a : Action} {s t : State} (h : Inv s) (hx : perform a s = .next t) : Inv t := by
  cases a with
  | drive p => exact inv_drivePins h hx
  | clk => exact inv_clkEdge h hx
  | wclk g arb =>
    cases hx
    exact inv_wclkEdge h g arb
  | cross =>
    cases hx
    exact inv_crossStep h
  | sampleAttach p =>
    cases hx
    exact inv_sampleAttachStep h p

/-- Settles O58: a step is an agent's step on the state with the schedule's head taken. -/
theorem everyStepKeepsTheInvariant : Obligations.EveryStepKeepsTheInvariant := fun _ _ h hx =>
  inv_perform (inv_schedule h _) (step_cases hx).2

/-! ### No fault -/

/-- A step of a legal block is its next agent's step, `step_cases` for every outcome. -/
theorem step_eq_perform {s : State} (h : configLegal s.cfg = true) :
    step s = perform (s.schedule.head?.getD .clk) (taken s) := by
  rw [step, nextStep, if_pos h]
  cases hs : s.schedule with
  | nil =>
    have he : taken s = s := by rw [taken, hs, List.tail_nil, ← hs]
    rw [he]
    rfl
  | cons a rest =>
    rw [taken, hs]
    rfl

/-- Under the invariant an EMIT edge completes: the word it presents is in its bank. -/
theorem emitStep_completes {s : State} (h : Inv s) : ∃ t, emitStep s = .next t := by
  obtain ⟨w, hw⟩ := Option.isSome_iff_exists.mp (sampleWord_isSome h (outCount s))
  unfold emitStep outputSide
  rw [hw]
  split_ifs <;> exact ⟨_, rfl⟩

/-- Under the invariant the engine's own step completes. -/
theorem engineStep_completes {s : State} (h : Inv s) : ∃ t, engineStep s = .next t := by
  unfold engineStep
  cases he : s.estate with
  | idle => exact ⟨_, rfl⟩
  | drain =>
    by_cases hd : s.drainLeft = 0#11
    · exact ⟨_, if_pos hd⟩
    · simpa only [if_neg hd] using drainStep_completes h hd
  | step => exact ⟨_, rfl⟩
  | emit => exact emitStep_completes h
  | fatal => exact ⟨_, rfl⟩
  | undefinedCode c => exact absurd he (h.estate_defined c)

/-- Under the invariant a `clk` edge completes. -/
theorem clkEdge_completes {s : State} (h : Inv s) : ∃ t, clkEdge s = .next t := by
  have hstep : ∃ t, clkStep s = .next t := by
    unfold clkStep
    split_ifs
    · exact ⟨_, rfl⟩
    · exact ⟨_, rfl⟩
    · exact ⟨_, rfl⟩
    · exact engineStep_completes h
  obtain ⟨t, ht⟩ := hstep
  exact ⟨_, clkEdge_next ht⟩

/-- Under the invariant an agent's step completes, or it ends a reset too early. -/
theorem perform_completes_or_refuses {s : State} (h : Inv s) (a : Action) :
    (∃ t, perform a s = .next t) ∨ (perform a s = .refused .resetTooShort ∧ s.pins.rst = true) := by
  cases a with
  | drive p =>
    rcases drivePins_cases p s with ⟨hs, hrst, -, -⟩ | hs
    · exact .inr ⟨hs, hrst⟩
    · exact .inl ⟨_, hs⟩
  | clk => exact .inl (clkEdge_completes h)
  | wclk g arb => exact .inl ⟨_, rfl⟩
  | cross => exact .inl ⟨_, rfl⟩
  | sampleAttach p => exact .inl ⟨_, rfl⟩

/-- Settles O60: what an agent's step can answer, read for a fault and for a refusal. -/
theorem invariantExcludesFaults : Obligations.InvariantExcludesFaults := by
  intro s h
  rw [step_eq_perform h.legal]
  rcases perform_completes_or_refuses (inv_schedule h s.schedule.tail) (s.schedule.head?.getD .clk) with
    ⟨t, ht⟩ | ⟨hr, hrst⟩
  · rw [taken, ht]
    exact ⟨nofun, nofun⟩
  · rw [taken, hr]
    refine ⟨nofun, fun r hr' => ?_⟩
    cases hr'
    exact ⟨rfl, hrst⟩

end Sys2Proof.Machine

/-! What steps leave of the parameters, the events and the FIFO's words, and the liveness of the crossing (60_exceptions.md
R244, 20_memory.md R78, R79, 40_command_fifo.md R129): O57, O40, O42. -/

namespace Sys2Proof.Machine

open Sys2Proof.Safety

/-- Settles O57, by the frames of an engine edge and of the other agents' steps. -/
theorem parametersStayAndEventsAppend : Obligations.ParametersStayAndEventsAppend := by
  intro s t h
  cases hclk : clkNext s with
  | false =>
    obtain ⟨a, ha, hp⟩ := step_not_clk h hclk
    obtain ⟨hframe, -, -⟩ := perform_frame ha hp
    rw [hframe]
    exact ⟨rfl, fun _ => ⟨[], by simp [taken], by simp⟩⟩
  | true =>
    obtain ⟨hcfg, hrest⟩ := clkEdge_frame (step_clk h hclk)
    refine ⟨hcfg, fun hr => ?_⟩
    have hrst : s.pins.rst = false := by simpa [resetNext, hclk] using hr
    exact (hrest hrst).1

/-! ### Words stay in order -/

/-- The FIFO's words and the registers that only commands write are in `t` as in `s`. -/
def NoWordMoved (s t : State) : Prop :=
  t.q = s.q ∧ t.freq = s.freq ∧ t.waveSel = s.waveSel ∧ t.cntUnknownParam = s.cntUnknownParam ∧
    t.cntUnsupported = s.cntUnsupported ∧ t.cntBadWave = s.cntBadWave

theorem NoWordMoved.refl (s : State) : NoWordMoved s s := ⟨rfl, rfl, rfl, rfl, rfl, rfl⟩

theorem noWordMoved_raiseFatal (c : BitVec 2) (s : State) : NoWordMoved s (raiseFatal c s) := by
  by_cases h : s.estate = .fatal
  · rw [raiseFatal_of_fatal c s h]
    exact .refl _
  · rw [raiseFatal_of_running c s h]
    exact .refl _

theorem noWordMoved_inputSide (s : State) : NoWordMoved s (inputSide s) := by
  rcases inputSide_cases s with h | ⟨-, -, h⟩ <;> rw [h] <;> exact .refl _

theorem noWordMoved_emitStep {s t : State} (h : emitStep s = .next t) : NoWordMoved s t := by
  rcases emitStep_cases h with ⟨-, -, rfl⟩ | ⟨-, ⟨rfl, -⟩ | ⟨w, -, -, -, rfl⟩⟩
  · exact .refl _
  · exact noWordMoved_inputSide s
  · have h := noWordMoved_inputSide (takeOutput w s)
    rwa [takeOutput_eq] at h ⊢

/-- An engine step moves no word unless it is a drain step. -/
theorem noWordMoved_engineStep {s t : State} (h : engineStep s = .next t) :
    NoWordMoved s t ∨ (s.estate = .drain ∧ drainStep s = .next t) := by
  rcases engineStep_cases h with
    ⟨-, -, rfl⟩ | ⟨-, -, rfl⟩ | ⟨-, -, rfl⟩ | ⟨he, -, hx⟩ | ⟨-, rfl⟩ | ⟨-, hx⟩ | ⟨-, rfl⟩
  · exact .inl (.refl _)
  · left
    rw [cycleStart_eq]
    split
    · exact noWordMoved_raiseFatal _ s
    · exact .refl _
  · left
    rcases drainEnd_cases s with hs | ⟨-, -, hs⟩ <;> rw [hs] <;> exact .refl _
  · exact .inr ⟨he, hx⟩
  · left
    rw [stepState_eq]
    exact .refl _
  · exact .inl (noWordMoved_emitStep hx)
  · exact .inl (.refl _)

/-- The same of a whole `clk` edge without reset. -/
theorem noWordMoved_clkEdge {s t : State} (h : clkEdge s = .next t) (hrst : s.pins.rst = false) :
    NoWordMoved s t ∨ (s.estate = .drain ∧ ∃ u, drainStep s = .next u ∧ t = latchLevel u) := by
  obtain ⟨u, hu, rfl⟩ := clkEdge_eq_next.mp h
  rcases clkStep_cases hu with ⟨hr, -⟩ | ⟨-, -, -, rfl⟩ | ⟨-, -, -, -, rfl⟩ | ⟨-, -, -, hx⟩
  · exact absurd (hr.symm.trans hrst) (by decide)
  · exact .inl (noWordMoved_raiseFatal _ s)
  · exact .inl (noWordMoved_raiseFatal _ s)
  · exact (noWordMoved_engineStep hx).imp id fun ⟨he, hd⟩ => ⟨he, u, hd, rfl⟩

/-- A `wclk` edge moves no word unless it transfers the one its granted port offers. -/
theorem noWordMoved_wclkEdge (g : Option Nat) (arb : Nat) (s : State) :
    NoWordMoved s (wclkEdge g arb s) ∨
      ∃ p, g = some p ∧ portReady s (some p) p = true ∧ (portPins s p).valid = true ∧
        wclkEdge g arb s = { s with q := s.q ++ [(portPins s p).data], arbst := arb } := by
  unfold wclkEdge
  split
  · exact .inl (.refl _)
  · rcases transferAt_cases g s with hs | ⟨p, rfl, hready, hvalid, hs⟩ <;> rw [hs]
    · exact .inl (.refl _)
    · exact .inr ⟨p, rfl, hready, hvalid, rfl⟩

/-- A step of another agent moves no word unless it transfers the one its granted port offers. -/
theorem noWordMoved_perform {a : Action} {s t : State} (ha : a ≠ .clk) (h : perform a s = .next t) :
    NoWordMoved s t ∨
      ∃ p arb, a = .wclk (some p) arb ∧ portReady s (some p) p = true ∧ (portPins s p).valid = true ∧
        t = { s with q := s.q ++ [(portPins s p).data], arbst := arb } := by
  cases a with
  | clk => exact absurd rfl ha
  | drive p =>
    rcases drivePins_cases p s with ⟨hs, -⟩ | hs <;> rw [perform, hs] at h <;> cases h
    exact .inl (.refl _)
  | wclk g arb =>
    cases h
    exact (noWordMoved_wclkEdge g arb s).imp id fun ⟨p, hg, hp⟩ => ⟨p, arb, by rw [hg], hp⟩
  | cross =>
    cases h
    rcases crossStep_cases s with hs | ⟨-, -, hs⟩ <;> rw [hs] <;> exact .inl (.refl _)
  | sampleAttach p =>
    cases h
    rcases sampleAttachStep_cases p s with hs | ⟨b, hs⟩ <;> rw [hs] <;> exact .inl (.refl _)

/-- What a drain step does, as the whole next state of its `clk` edge. -/
theorem clkEdge_drained {s u : State} (h : drainStep s = .next u) :
    ∃ (w : CmdWord) (s2 : State), s.q = w :: u.q ∧ s.v ≠ 0#11 ∧
      applyWord w { s with q := u.q, v := s.v - 1#11 } = .next s2 ∧
      latchLevel u = { s2 with drainLeft := s2.drainLeft - 1#11, levelShown := s2.v } := by
  obtain ⟨w, rest, s2, hq, hv, ha, rfl⟩ := drainStep_eq_next h
  obtain ⟨-, -, hrest, -⟩ := exec_frame ha
  exact ⟨w, s2, hq.trans (congrArg (w :: ·) hrest.symm), hv, by rwa [hrest], rfl⟩

/-- A step that is another agent's is the one the schedule names first. -/
theorem head?_of_not_clk {s : State} {a : Action} (h : s.schedule.head?.getD .clk = a) (ha : a ≠ .clk) :
    s.schedule.head? = some a := by
  cases hs : s.schedule.head? with
  | none => exact absurd (by simpa [hs] using h.symm) ha
  | some b => simpa [hs] using h

/-- Settles O40: an engine edge moves no word or is a drain step, another agent's step moves none or is a transfer. -/
theorem wordsStayInTransferOrder : Obligations.WordsStayInTransferOrder := by
  intro s t _ h hr
  have hstep := (step_cases h).2
  generalize ha : s.schedule.head?.getD .clk = a at hstep
  by_cases hclk : a = .clk
  · have hnext : clkNext s = true := by simp [clkNext, ha, hclk]
    have hrst : s.pins.rst = false := by simpa [resetNext, hnext] using hr
    rcases noWordMoved_clkEdge (step_clk h hnext) hrst with hmoved | ⟨he, u, hu, rfl⟩
    · exact .inl hmoved
    · obtain ⟨w, s2, hq, hv, happly, hlatch⟩ := clkEdge_drained hu
      exact .inr (.inl ⟨w, s2, hq, he, hv, happly, hlatch⟩)
  · rcases noWordMoved_perform hclk hstep with hmoved | ⟨p, arb, rfl, hready, hvalid, ht⟩
    · exact .inl hmoved
    · exact .inr (.inr ⟨p, arb, head?_of_not_clk ha hclk, hready, hvalid, ht⟩)

/-! ### Every word becomes visible -/

/-- The oldest word that is not visible yet. -/
def oldestInvisible (s : State) : Option CmdWord := s.q[s.v.toNat]?

/-- A crossing is enabled exactly while there is one (40_command_fifo.md R128). -/
theorem oldestInvisible_eq_some {s : State} {w : CmdWord} (h : oldestInvisible s = some w) : s.v.toNat < s.q.length :=
  (List.getElem?_eq_some_iff.mp h).1

/-- The crossing of an invisible word (40_command_fifo.md R128). -/
theorem crossStep_of_lt {s : State} (hrst : s.pins.rst = false) (hlt : s.v.toNat < s.q.length) :
    crossStep s = { s with v := s.v + 1#11 } := by
  simp [crossStep, hrst, hlt]

/-- Words behind the invisible one do not change which it is. -/
theorem oldestInvisible_append {s t : State} {w : CmdWord} {new : List CmdWord} (h : oldestInvisible s = some w)
    (hq : t.q = s.q ++ new) (hv : t.v = s.v) : oldestInvisible t = some w := by
  rw [oldestInvisible, hq, hv, List.getElem?_append_left (oldestInvisible_eq_some h)]
  exact h

/-- A drain step takes a visible word, so the invisible ones move up with `V`. -/
theorem oldestInvisible_drainStep {s t : State} (h : drainStep s = .next t) : oldestInvisible t = oldestInvisible s := by
  obtain ⟨w, rest, s2, hq, hv, ha, rfl⟩ := drainStep_eq_next h
  obtain ⟨-, -, hq2, hv2, -⟩ := exec_frame ha
  have hpos := ne_zero_toNat hv
  show s2.q[s2.v.toNat]? = s.q[s.v.toNat]?
  rw [hq2, hv2, hq, sub_one_toNat _ hv]
  obtain ⟨n, hn⟩ : ∃ n, s.v.toNat = n + 1 := ⟨s.v.toNat - 1, by omega⟩
  rw [hn, List.getElem?_cons_succ, Nat.add_sub_cancel]

/-- Without reset no step but a crossing changes which word is the oldest invisible one. -/
theorem oldestInvisible_perform {a : Action} {s t : State} {w : CmdWord} (hrst : s.pins.rst = false) (ha : a ≠ .cross)
    (h : perform a s = .next t) (hw : oldestInvisible s = some w) : oldestInvisible t = some w := by
  cases a with
  | clk =>
    rcases (clkEdge_frame h).2 hrst with ⟨-, ⟨hq, hv⟩ | ⟨-, -, u, hu, rfl⟩⟩
    · exact oldestInvisible_append (new := []) hw (by rw [hq, List.append_nil]) hv
    · exact (oldestInvisible_drainStep hu).trans hw
  | drive p =>
    rcases drivePins_cases p s with ⟨hs, -⟩ | hs <;> rw [perform, hs] at h <;> cases h
    exact hw
  | wclk g arb =>
    cases h
    rcases wclkEdge_cases g arb s with ⟨-, hs⟩ | ⟨-, hs⟩ | ⟨-, -, -, p, -, hs⟩ <;> rw [hs]
    · exact hw
    · exact hw
    · exact oldestInvisible_append hw rfl rfl
  | cross => exact absurd rfl ha
  | sampleAttach p =>
    cases h
    rcases sampleAttachStep_cases p s with hs | ⟨b, hs⟩ <;> rw [hs] <;> exact hw

section
variable {a : Nat → Action} {s : Nat → State} (hrun : IsExecution a s)
include hrun

/-- Every state of an execution meets the invariant. -/
theorem inv_of_isExecution (t : Nat) : Inv (s t) := by
  obtain ⟨h0, hstep⟩ := hrun
  induction t with
  | zero => exact h0
  | succ t ih => exact inv_perform ih (hstep t)

variable (hrst : NeverReset s)
include hrst

/-- The oldest invisible word stays the same until a crossing is taken. -/
theorem oldestInvisible_until_cross {t u : Nat} {w : CmdWord} (htu : t ≤ u) (hw : oldestInvisible (s t) = some w)
    (hn : ∀ k, t ≤ k → k < u → a k ≠ .cross) : oldestInvisible (s u) = some w := by
  induction u, htu using Nat.le_induction with
  | base => exact hw
  | succ u htu ih =>
    have hu := ih fun k hk hku => hn k hk (by omega)
    exact oldestInvisible_perform (hrst u) (hn u htu (Nat.lt_succ_self u)) (hrun.2 u) hu

/-- Were no crossing taken from `t` on, it would stay enabled; so under fairness a first one is taken. -/
theorem exists_first_cross (hfair : FairCrossing a s) {t : Nat} {w : CmdWord} (hw : oldestInvisible (s t) = some w) :
    ∃ u, t ≤ u ∧ a u = .cross ∧ ∀ k, t ≤ k → k < u → a k ≠ .cross := by
  classical
  have hex : ∃ u, t ≤ u ∧ a u = .cross := by
    by_contra hnone
    push Not at hnone
    obtain ⟨u, htu, hcross⟩ := hfair t fun u htu =>
      oldestInvisible_eq_some (oldestInvisible_until_cross hrun hrst htu hw fun k hk _ => hnone k hk)
    exact hnone u htu hcross
  obtain ⟨htu, hcross⟩ := Nat.find_spec hex
  exact ⟨Nat.find hex, htu, hcross, fun k hk hku hc => Nat.find_min hex hku ⟨hk, hc⟩⟩

end

/-- Settles O42: at the first crossing the oldest invisible word is still the same, and the crossing makes it visible. -/
theorem everyWordBecomesVisible : Obligations.EveryWordBecomesVisible := by
  intro a s hrun hrst hfair t ht
  have hw : oldestInvisible (s t) = some (s t).q[(s t).v.toNat] := List.getElem?_eq_getElem ht
  obtain ⟨u, htu, hcross, hfirst⟩ := exists_first_cross hrun hrst hfair hw
  have hu := oldestInvisible_until_cross hrun hrst htu hw hfirst
  have hlt := oldestInvisible_eq_some hu
  have hstep := hrun.2 u
  rw [hcross, perform, crossStep_of_lt (hrst u) hlt, Host.Outcome.next.injEq] at hstep
  refine ⟨u, htu, hcross, ?_, hu.trans hw.symm⟩
  rw [← hstep]
  exact crossed_v (inv_of_isExecution hrun u) hlt

end Sys2Proof.Machine

/-! Division, its rounding and the step of a frequency (00_scope.md R19, R20, 42_synthesis.md R181, R183, R184): O21, O22,
O23, O31, O33. -/

namespace Sys2Proof.Machine

open Sys2Proof.Safety

/-- Settles O21. -/
theorem rationalsRoundToNearestEven : Obligations.RationalsRoundToNearestEven := fun neg num _ hd =>
  isRnd32_rnd32 neg num hd

/-! ### The kinds of patterns -/

theorem isNaN32_iff (b : Word) : isNaN32 b = true ↔ 0x7F800000 < magOf b := by
  have : magOf b < 2 ^ 31 := Nat.mod_lt _ (by norm_num)
  rw [isNaN32, Bool.and_eq_true, beq_iff_eq, bne_iff_ne, expField_eq, fracField_eq]
  omega

theorem isFinite32_of_isZero32 {b : Word} (h : isZero32 b = true) : isFinite32 b = true := by
  rw [isZero32_iff] at h
  rw [isFinite32_iff, h]
  norm_num

theorem isNaN32_of_isFinite32 {b : Word} (h : isFinite32 b = true) : isNaN32 b = false := by
  rw [isFinite32_iff] at h
  rw [← Bool.not_eq_true, isNaN32_iff]
  omega

theorem isInf32_of_isFinite32 {b : Word} (h : isFinite32 b = true) : isInf32 b = false := by
  rw [isFinite32_iff] at h
  rw [← Bool.not_eq_true, isInf32_iff]
  omega

theorem isNaN32_of_isInf32 {b : Word} (h : isInf32 b = true) : isNaN32 b = false := by
  rw [isInf32_iff] at h
  rw [← Bool.not_eq_true, isNaN32_iff]
  omega

/-- What is neither a NaN nor an infinity is finite. -/
theorem isFinite32_of_not {b : Word} (hnan : isNaN32 b = false) (hinf : isInf32 b = false) : isFinite32 b = true := by
  rw [← Bool.not_eq_true, isNaN32_iff] at hnan
  rw [← Bool.not_eq_true, isInf32_iff] at hinf
  rw [isFinite32_iff]
  omega

theorem isZero32_of_not_finite {b : Word} (h : isFinite32 b = false) : isZero32 b = false :=
  Bool.eq_false_iff.mpr fun hz => absurd (h.symm.trans (isFinite32_of_isZero32 hz)) (by decide)

theorem isFinite32_of_isInf32 {b : Word} (h : isInf32 b = true) : isFinite32 b = false :=
  Bool.eq_false_iff.mpr fun hf => absurd (h.symm.trans (isInf32_of_isFinite32 hf)) (by decide)

theorem isFinite32_of_isNaN32 {b : Word} (h : isNaN32 b = true) : isFinite32 b = false :=
  Bool.eq_false_iff.mpr fun hf => absurd (h.symm.trans (isNaN32_of_isFinite32 hf)) (by decide)

/-- A finite pattern that is not zero has a magnitude. -/
theorem scaledMag_pos {b : Word} (h : isZero32 b = false) : 0 < scaledMag b := by
  rw [← Bool.not_eq_true, isZero32_iff] at h
  rw [scaledMag_eq]
  have := magUnits_mono (Nat.pos_of_ne_zero h)
  omega

theorem isInf32_inf32 (neg : Bool) : isInf32 (inf32 neg) = true :=
  (isInf32_iff _).mpr (magOf_withSign neg (by norm_num))

theorem isZero32_zero32 (neg : Bool) : isZero32 (zero32 neg) = true :=
  (isZero32_iff _).mpr (magOf_withSign neg (by norm_num))

/-! ### Division, one equation for each pair of kinds (00_scope.md R20) -/

section
variable {a b : Word}

theorem div32_nan_left (ha : isNaN32 a = true) : div32 a b = none := by simp [div32, ha]

theorem div32_nan_right (hb : isNaN32 b = true) : div32 a b = none := by simp [div32, hb]

theorem div32_inf_inf (ha : isInf32 a = true) (hb : isInf32 b = true) : div32 a b = none := by
  simp [div32, ha, hb]

theorem div32_inf_finite (ha : isInf32 a = true) (hb : isFinite32 b = true) :
    div32 a b = some (inf32 (signBit a ^^ signBit b)) := by
  simp [div32, ha, isNaN32_of_isInf32 ha, isNaN32_of_isFinite32 hb, isInf32_of_isFinite32 hb]

theorem div32_finite_inf (ha : isFinite32 a = true) (hb : isInf32 b = true) :
    div32 a b = some (zero32 (signBit a ^^ signBit b)) := by
  simp [div32, hb, isNaN32_of_isInf32 hb, isNaN32_of_isFinite32 ha, isInf32_of_isFinite32 ha]

theorem div32_zero_zero (ha : isZero32 a = true) (hb : isZero32 b = true) : div32 a b = none := by
  have hfa := isFinite32_of_isZero32 ha
  have hfb := isFinite32_of_isZero32 hb
  simp [div32, ha, hb, isInf32_of_isFinite32 hfa, isInf32_of_isFinite32 hfb]

theorem div32_by_zero (ha : isFinite32 a = true) (ha0 : isZero32 a = false) (hb : isZero32 b = true) :
    div32 a b = some (inf32 (signBit a ^^ signBit b)) := by
  have hfb := isFinite32_of_isZero32 hb
  simp [div32, hb, ha0, isNaN32_of_isFinite32 ha, isNaN32_of_isFinite32 hfb, isInf32_of_isFinite32 ha,
    isInf32_of_isFinite32 hfb]

theorem div32_of_zero (ha : isZero32 a = true) (hb : isFinite32 b = true) (hb0 : isZero32 b = false) :
    div32 a b = some (zero32 (signBit a ^^ signBit b)) := by
  have hfa := isFinite32_of_isZero32 ha
  simp [div32, ha, hb0, isNaN32_of_isFinite32 hfa, isNaN32_of_isFinite32 hb, isInf32_of_isFinite32 hfa,
    isInf32_of_isFinite32 hb]

theorem div32_finite (ha : isFinite32 a = true) (hb : isFinite32 b = true) (ha0 : isZero32 a = false)
    (hb0 : isZero32 b = false) : div32 a b = some (rnd32 (signBit a ^^ signBit b) (scaledMag a) (scaledMag b)) := by
  rw [rnd32, if_neg (scaledMag_pos ha0).ne']
  simp [div32, ha0, hb0, isNaN32_of_isFinite32 ha, isNaN32_of_isFinite32 hb, isInf32_of_isFinite32 ha,
    isInf32_of_isFinite32 hb]

/-- A quotient is a NaN or a pattern with the exclusive or of the signs. -/
theorem div32_cases (a b : Word) :
    div32 a b = none ∨ ∃ m, m < 2 ^ 31 ∧ div32 a b = some (withSign (signBit a ^^ signBit b) m) := by
  unfold div32
  split_ifs
  · exact .inl rfl
  · exact .inl rfl
  · exact .inr ⟨_, by norm_num, rfl⟩
  · exact .inr ⟨_, by norm_num, rfl⟩
  · exact .inl rfl
  · exact .inr ⟨_, by norm_num, rfl⟩
  · exact .inr ⟨_, by norm_num, rfl⟩
  · exact .inr ⟨_, (roundMag_le _ _).trans_lt (by norm_num), rfl⟩

theorem signBit_of_div32 {w : Word} (h : div32 a b = some w) : signBit w = (signBit a ^^ signBit b) := by
  rcases div32_cases a b with hn | ⟨m, hm, hs⟩
  · rw [hn] at h
    cases h
  · rw [hs] at h
    cases h
    exact signBit_withSign _ hm

/-- The pairs whose quotient is a NaN: every other pair has an equation above. -/
theorem div32_eq_none_iff :
    div32 a b = none ↔
      isNaN32 a = true ∨ isNaN32 b = true ∨ (isZero32 a = true ∧ isZero32 b = true) ∨
        (isInf32 a = true ∧ isInf32 b = true) := by
  constructor
  · intro h
    by_contra hno
    simp only [not_or, Bool.not_eq_true, not_and] at hno
    obtain ⟨hna, hnb, hzero, hinf⟩ := hno
    cases hia : isInf32 a with
    | true =>
      rw [div32_inf_finite hia (isFinite32_of_not hnb (hinf hia))] at h
      cases h
    | false =>
      have hfa := isFinite32_of_not hna hia
      cases hib : isInf32 b with
      | true =>
        rw [div32_finite_inf hfa hib] at h
        cases h
      | false =>
        have hfb := isFinite32_of_not hnb hib
        cases hza : isZero32 a with
        | true =>
          rw [div32_of_zero hza hfb (hzero hza)] at h
          cases h
        | false =>
          cases hzb : isZero32 b with
          | true =>
            rw [div32_by_zero hfa hza hzb] at h
            cases h
          | false =>
            rw [div32_finite hfa hfb hza hzb] at h
            cases h
  · rintro (h | h | ⟨ha, hb⟩ | ⟨ha, hb⟩)
    · exact div32_nan_left h
    · exact div32_nan_right h
    · exact div32_zero_zero ha hb
    · exact div32_inf_inf ha hb

end

/-- Settles O23, by the equations. -/
theorem divisionSpecialCases : Obligations.DivisionSpecialCases := fun _ _ =>
  ⟨div32_eq_none_iff, div32_by_zero, div32_inf_finite, div32_finite_inf, div32_of_zero, fun _ => signBit_of_div32⟩

/-- The quotient of two values from their signs and scaled magnitudes. -/
theorem val32_div_val32 (a b : Word) :
    (val32 a : ℝ) / val32 b = signFactor (signBit a ^^ signBit b) * ((scaledMag a : ℝ) / scaledMag b) := by
  simp only [val32, signFactor]
  cases signBit a <;> cases signBit b <;> push_cast <;> field_simp <;> norm_num

/-- The quotient of finite operands that are not zero is the correct rounding (00_scope.md R19). -/
theorem isRnd32_div32 {a b : Word} (hb0 : isZero32 b = false) :
    IsRnd32 ((val32 a : ℝ) / val32 b) (rnd32 (signBit a ^^ signBit b) (scaledMag a) (scaledMag b)) := by
  rw [val32_div_val32]
  exact isRnd32_rnd32 _ _ (scaledMag_pos hb0)

/-- Settles O22. -/
theorem quotientsAreRoundedOnce : Obligations.QuotientsAreRoundedOnce := fun _ _ ha hb ha0 hb0 =>
  ⟨_, div32_finite ha hb ha0 hb0, isRnd32_div32 hb0⟩

/-! ### The correct rounding is unique -/

/-- A number is its sign times its magnitude. -/
theorem signFactor_mul_abs (x : ℝ) : signFactor (decide (x < 0)) * |x| = x := by
  by_cases h : x < 0
  · simp [h, abs_of_neg h]
  · simp [h, abs_of_nonneg (not_lt.mp h)]

/-- The distance to a pattern of the number's own sign is that of the magnitudes (in units of `2^-149`). -/
theorem abs_sub_val32 {x : ℝ} {w : Word} (h : signBit w = decide (x < 0)) :
    |x - val32 w| * 2 ^ 149 = |(|x| * 2 ^ 149) - magUnits (magOf w)| := by
  rw [← abs_of_pos (show (0 : ℝ) < 2 ^ 149 by positivity), ← abs_mul, sub_mul, val32_eq_signFactor, h,
    abs_of_pos (show (0 : ℝ) < 2 ^ 149 by positivity)]
  nth_rw 1 [← signFactor_mul_abs x]
  rw [mul_assoc, ← mul_sub, abs_signFactor_mul]

/-- What a correct rounding below the overflow says of magnitudes, `isRnd32_of_nearest` backwards. -/
theorem nearest_of_isRnd32 {x : ℝ} {w : Word} (h : IsRnd32 x w) (hx : x ≠ 0) (hlt : |x| < (2 : ℝ) ^ 128 - 2 ^ 103) :
    signBit w = decide (x < 0) ∧ magOf w < 0x7F800000 ∧ ∀ u, u < 0x7F800000 →
      |(|x| * 2 ^ 149) - magUnits (magOf w)| ≤ |(|x| * 2 ^ 149) - magUnits u| ∧
        (|(|x| * 2 ^ 149) - magUnits (magOf w)| = |(|x| * 2 ^ 149) - magUnits u| → u ≠ magOf w → magOf w % 2 = 0) := by
  obtain ⟨hfin, hsign, hnear⟩ := h.nearest hx hlt
  have hs : signBit w = decide (x < 0) := Bool.eq_iff_iff.mpr (hsign.trans decide_eq_true_iff.symm)
  refine ⟨hs, (isFinite32_iff w).mp hfin, fun u hu => ?_⟩
  have hmu : magOf (withSign (decide (x < 0)) u) = u := magOf_withSign _ (by omega)
  have hsu : signBit (withSign (decide (x < 0)) u) = decide (x < 0) := signBit_withSign _ (by omega)
  obtain ⟨hle, htie⟩ := hnear (withSign (decide (x < 0)) u) ((isFinite32_iff _).mpr (by rwa [hmu]))
  rw [← hmu, ← abs_sub_val32 hs, ← abs_sub_val32 hsu]
  refine ⟨by gcongr, fun heq hne => ?_⟩
  rw [← getLsbD_zero]
  refine htie (mul_right_cancel₀ (by positivity) heq) fun hval => hne ?_
  have hunits : (magUnits (magOf (withSign (decide (x < 0)) u)) : ℝ) = magUnits (magOf w) := by
    have habs := congrArg (fun q : ℚ => |(q : ℝ)| * 2 ^ 149) hval
    simpa only [abs_val32, div_mul_cancel₀ _ (show (2 : ℝ) ^ 149 ≠ 0 by positivity)] using habs
  exact magUnits_mono.injective (by exact_mod_cast hunits)

/-- Of two magnitudes at one distance an intermediate one is nearer. -/
theorem closer_between {X a b c : ℝ} (hab : a < b) (hbc : b < c) (h : |X - a| = |X - c|) : |X - b| < |X - a| := by
  rcases abs_eq_abs.mp h with h | h
  · linarith
  · obtain rfl : X = (a + c) / 2 := by linarith
    rw [abs_of_pos (show 0 < (a + c) / 2 - a by linarith), abs_lt]
    constructor <;> linarith

/-- Two nearest magnitudes, both even at a tie, are one: between two even ones lies an odd one. -/
theorem nearestMag_le {X : ℝ} {m n : Nat} (hn : n < 0x7F800000)
    (hnearm : ∀ u, u < 0x7F800000 → |X - magUnits m| ≤ |X - magUnits u| ∧
      (|X - magUnits m| = |X - magUnits u| → u ≠ m → m % 2 = 0))
    (hnearn : |X - magUnits n| ≤ |X - magUnits m| ∧ (|X - magUnits n| = |X - magUnits m| → m ≠ n → n % 2 = 0)) :
    n ≤ m := by
  by_contra hlt
  push Not at hlt
  obtain ⟨hmn, htiem⟩ := hnearm n hn
  have heq := le_antisymm hmn hnearn.1
  have hevenm := htiem heq hlt.ne'
  have hevenn := hnearn.2 heq.symm hlt.ne
  have hclose := closer_between (X := X) (a := magUnits m) (b := magUnits (m + 1)) (c := magUnits n)
    (by exact_mod_cast magUnits_succ m) (by exact_mod_cast magUnits_mono (show m + 1 < n by omega)) heq
  exact absurd (hnearm (m + 1) (by omega)).1 (not_le.mpr hclose)

/-- A real number has one correct rounding. -/
theorem isRnd32_unique {x : ℝ} {w w' : Word} (h : IsRnd32 x w) (h' : IsRnd32 x w') : w = w' := by
  rcases eq_or_ne x 0 with hx | hx
  · rw [h.zero hx, h'.zero hx]
  rcases le_or_gt ((2 : ℝ) ^ 128 - 2 ^ 103) |x| with hbig | hlt
  · obtain ⟨hinf, hsign⟩ := h.overflow hbig
    obtain ⟨hinf', hsign'⟩ := h'.overflow hbig
    exact word_ext (((isInf32_iff w).mp hinf).trans ((isInf32_iff w').mp hinf').symm)
      (Bool.eq_iff_iff.mpr (hsign.trans hsign'.symm))
  · obtain ⟨hs, hfin, hnear⟩ := nearest_of_isRnd32 h hx hlt
    obtain ⟨hs', hfin', hnear'⟩ := nearest_of_isRnd32 h' hx hlt
    exact word_ext (le_antisymm (nearestMag_le hfin hnear' (hnear _ hfin')) (nearestMag_le hfin' hnear (hnear' _ hfin)))
      (hs.trans hs'.symm)

/-- So a correctly rounded quotient is what `div32` gives. -/
theorem div32_of_isRnd32 {a b w : Word} (ha : isFinite32 a = true) (hb : isFinite32 b = true) (ha0 : isZero32 a = false)
    (hb0 : isZero32 b = false) (h : IsRnd32 ((val32 a : ℝ) / val32 b) w) : div32 a b = some w := by
  rw [div32_finite ha hb ha0 hb0, isRnd32_unique h (isRnd32_div32 hb0)]

/-! ### Positive normal patterns and integers -/

/-- What a positive normal operand is for `div32`. -/
theorem kinds_of_posNormal {a : Word} (h : posNormal a = true) :
    signBit a = false ∧ isFinite32 a = true ∧ isZero32 a = false := by
  obtain ⟨hsign, hlow, hhigh⟩ := (posNormal_iff a).mp h
  refine ⟨hsign, (isFinite32_iff a).mpr hhigh, ?_⟩
  rw [← Bool.not_eq_true, isZero32_iff]
  omega

/-- A number up to `2^24` has 24 significant bits. -/
theorem exists_significand {n : Nat} (h1 : 1 ≤ n) (h2 : n ≤ 2 ^ 24) :
    ∃ e, e ≤ 23 ∧ 2 ^ 23 ≤ n * 2 ^ e ∧ n * 2 ^ e ≤ 2 ^ 24 := by
  have hlow : 2 ^ n.log2 ≤ n := Nat.log2_self_le (by omega)
  have hhigh : n < 2 ^ (n.log2 + 1) := Nat.lt_log2_self
  rcases le_or_gt n.log2 23 with h | h
  · refine ⟨23 - n.log2, by omega, ?_, ?_⟩
    · calc 2 ^ 23 = 2 ^ n.log2 * 2 ^ (23 - n.log2) := by rw [← pow_add]; congr 1; omega
        _ ≤ n * 2 ^ (23 - n.log2) := by gcongr
    · calc n * 2 ^ (23 - n.log2) ≤ 2 ^ (n.log2 + 1) * 2 ^ (23 - n.log2) := by gcongr
        _ = 2 ^ 24 := by rw [← pow_add]; congr 1; omega
  · refine ⟨0, by omega, ?_, by simpa using h2⟩
    rw [pow_zero, mul_one]
    exact le_trans (Nat.pow_le_pow_right (by norm_num) h.le) hlow

/-- `i2f32` is exact for a table length: a positive normal pattern with the length for its value (00_scope.md R19). -/
theorem i2f32_exact {n : Nat} (h1 : 1 ≤ n) (h2 : n ≤ 2 ^ 24) :
    posNormal (i2f32 n) = true ∧ (val32 (i2f32 n) : ℝ) = n := by
  obtain ⟨e, he, hlow, hhigh⟩ := exists_significand h1 h2
  set m := n * 2 ^ e + (149 - e) * 2 ^ 23 with hm
  have hunits : magUnits m = n * 2 ^ 149 := by
    rw [hm, magUnits_add hhigh (.inr hlow), Nat.mul_assoc, ← pow_add]
    congr 2
    omega
  have hm1 : 2 ^ 23 ≤ m := by omega
  have hm2 : m < 0x7F800000 := by omega
  have hround : i2f32 n = withSign false m := by
    rw [i2f32, rnd32, if_neg (by omega), roundMag_of_magUnits (by norm_num) hm2 (by rw [hunits, Nat.mul_one])]
  have hmag : magOf (withSign false m) = m := magOf_withSign false (by omega)
  have hsign : signBit (withSign false m) = false := signBit_withSign false (by omega)
  rw [hround]
  refine ⟨(posNormal_iff _).mpr ⟨hsign, by rwa [hmag], by rwa [hmag]⟩, ?_⟩
  rw [val32_eq, hsign, hmag, hunits]
  push_cast
  norm_num

/-- `floor` of a pattern that is not negative (00_scope.md R19). -/
theorem floor32_eq {b : Word} (h : signBit b = false) : floor32 b = ⌊val32 b⌋₊ := by
  rw [floor32, val32, h]
  simp only [Bool.false_eq_true, if_false, one_mul]
  rw [← Nat.floor_div_eq_div (K := ℚ)]
  push_cast
  rfl

/-! ### The step of a frequency -/

theorem stepComputation_sounding {s : State} (h : isZero32 s.freq = false) :
    stepComputation s =
      { s with
        silent := false
        phaseStep := stepOfFreq s.cfg.sampleRate s.freq (tableLen s.cfg s.waveSel) } := by
  simp [stepComputation, silentFlag, h]

section
variable {sr freq : Word} {len : Nat}

/-- The step from the two quotients (42_synthesis.md R181). -/
theorem stepOfFreq_of_quotients {q1 q2 : Word} (h1 : div32 sr freq = some q1) (h2 : div32 (i2f32 len) q1 = some q2) :
    stepOfFreq sr freq len =
      if isInf32 q2 || signBit q2 || isZero32 q2 then 0#24 else BitVec.ofNat 24 (floor32 q2 % len) := by
  simp only [stepOfFreq, h1, h2]

/-- No first quotient: a NaN (42_synthesis.md R183). -/
theorem stepOfFreq_of_nan (h : div32 sr freq = none) : stepOfFreq sr freq len = 0#24 := by
  simp only [stepOfFreq, h]

variable (hl1 : 1 ≤ len) (hl2 : len ≤ 2 ^ 24)
include hl1 hl2

/-- An infinite first quotient makes the second a zero. -/
theorem stepOfFreq_of_inf {q1 : Word} (h1 : div32 sr freq = some q1) (hq : isInf32 q1 = true) :
    stepOfFreq sr freq len = 0#24 := by
  obtain ⟨-, hfin, -⟩ := kinds_of_posNormal (i2f32_exact hl1 hl2).1
  rw [stepOfFreq_of_quotients h1 (div32_finite_inf hfin hq), isZero32_zero32, Bool.or_true, if_pos rfl]

/-- A first quotient of zero makes the second an infinity. -/
theorem stepOfFreq_of_zero {q1 : Word} (h1 : div32 sr freq = some q1) (hq : isZero32 q1 = true) :
    stepOfFreq sr freq len = 0#24 := by
  obtain ⟨-, hfin, hnz⟩ := kinds_of_posNormal (i2f32_exact hl1 hl2).1
  rw [stepOfFreq_of_quotients h1 (div32_by_zero hfin hnz hq), isInf32_inf32, Bool.true_or, Bool.true_or, if_pos rfl]

/-- A negative frequency makes every quotient negative. -/
theorem stepOfFreq_of_negative (hsr : signBit sr = false) (hf : signBit freq = true) :
    stepOfFreq sr freq len = 0#24 := by
  obtain ⟨hsign, -, -⟩ := kinds_of_posNormal (i2f32_exact hl1 hl2).1
  cases h1 : div32 sr freq with
  | none => exact stepOfFreq_of_nan h1
  | some q1 =>
    cases h2 : div32 (i2f32 len) q1 with
    | none => simp only [stepOfFreq, h1, h2]
    | some q2 =>
      have hneg : signBit q2 = true := by
        rw [signBit_of_div32 h2, signBit_of_div32 h1, hsign, hsr, hf]
        rfl
      rw [stepOfFreq_of_quotients h1 h2, hneg, Bool.or_true, Bool.true_or, if_pos rfl]

/-- The second quotient by its rounding (00_scope.md R19). -/
theorem second_quotient {q1 q2 : Word} (hq1 : isFinite32 q1 = true) (hq10 : isZero32 q1 = false)
    (hr2 : IsRnd32 ((len : ℝ) / val32 q1) q2) : div32 (i2f32 len) q1 = some q2 := by
  obtain ⟨hnormal, hval⟩ := i2f32_exact hl1 hl2
  obtain ⟨-, hfin, hnz⟩ := kinds_of_posNormal hnormal
  exact div32_of_isRnd32 hfin hq1 hnz hq10 (by rwa [hval])

/-- The step where both quotients are finite is the floor of the second, a second quotient of zero included. -/
theorem stepOfFreq_of_finite {q1 q2 : Word} (h1 : div32 sr freq = some q1) (h2 : div32 (i2f32 len) q1 = some q2)
    (hq1 : signBit q1 = false) (hq2 : isFinite32 q2 = true) :
    stepOfFreq sr freq len = BitVec.ofNat 24 (⌊val32 q2⌋₊ % len) := by
  have hsign : signBit q2 = false := by
    rw [signBit_of_div32 h2, (kinds_of_posNormal (i2f32_exact hl1 hl2).1).1, hq1]
    rfl
  rw [stepOfFreq_of_quotients h1 h2, isInf32_of_isFinite32 hq2, hsign, Bool.or_false, Bool.false_or,
    ← floor32_eq hsign]
  split
  · rename_i hzero
    have hfloor : floor32 q2 = 0 := by
      rw [floor32, scaledMag_eq, (isZero32_iff q2).mp hzero]
      norm_num [magUnits]
    rw [hfloor, Nat.zero_mod]
  · rfl

end

/-- Settles O31: the edge is the engine's own step, and the two correctly rounded quotients are those of `div32`. -/
theorem stepIsTheFloorOfTwoRoundedQuotients : Obligations.StepIsTheFloorOfTwoRoundedQuotients := by
  refine ⟨fun s hs hrst hdrv hcyc => ?_, fun s q1 q2 hsr hl1 hl2 hfin hsign hnz hr1 hq1 hq10 hr2 hq2 => ?_⟩
  · have hedge : clkStep s = .next (stepState s) := by
      rw [clkStep_eq_engineStep hrst (.inl hdrv) (.inl hcyc), engineStep, hs]
    rw [stepComputation_silent, stepComputation_phaseStep]
    refine (clkEdge_next hedge).trans ?_
    rw [stepState_eq]
  · obtain ⟨hsrs, hsrf, hsrz⟩ := kinds_of_posNormal hsr
    have h1 := div32_of_isRnd32 hsrf hfin hsrz hnz hr1
    have hq1s : signBit q1 = false := by
      rw [signBit_of_div32 h1, hsrs, hsign]
      rfl
    rw [stepComputation_sounding hnz,
      stepOfFreq_of_finite hl1 hl2 h1 (second_quotient hl1 hl2 hq1 hq10 hr2) hq1s hq2]

section
variable {s : State} (hlegal : configLegal s.cfg = true)
include hlegal

/-- The sample rate of a legal block is an operand that is positive, finite and not zero. -/
theorem kinds_of_sampleRate :
    signBit s.cfg.sampleRate = false ∧ isFinite32 s.cfg.sampleRate = true ∧ isZero32 s.cfg.sampleRate = false := by
  obtain ⟨-, -, hsr, -⟩ := configLegal_iff.mp hlegal
  exact kinds_of_posNormal hsr

/-- The first form of 42_synthesis.md R183: a NaN, an infinite or a negative frequency. -/
theorem stepComputation_of_odd
    (hodd : isNaN32 s.freq = true ∨ isInf32 s.freq = true ∨ (signBit s.freq = true ∧ isZero32 s.freq = false)) :
    stepComputation s = { s with silent := false, phaseStep := 0#24 } := by
  obtain ⟨hsign, hfin, -⟩ := kinds_of_sampleRate hlegal
  have hl1 := tableLen_pos hlegal s.waveSel
  have hl2 := tableLen_le hlegal s.waveSel
  rcases hodd with hnan | hinf | ⟨hneg, hnz⟩
  · rw [stepComputation_sounding (isZero32_of_not_finite (isFinite32_of_isNaN32 hnan)),
      stepOfFreq_of_nan (div32_nan_right hnan)]
  · rw [stepComputation_sounding (isZero32_of_not_finite (isFinite32_of_isInf32 hinf)),
      stepOfFreq_of_zero hl1 hl2 (div32_finite_inf hfin hinf) (isZero32_zero32 _)]
  · rw [stepComputation_sounding hnz, stepOfFreq_of_negative hl1 hl2 hsign hneg]

variable (hfin : isFinite32 s.freq = true) (hnz : isZero32 s.freq = false) {q1 : Word}
  (hr1 : IsRnd32 ((val32 s.cfg.sampleRate : ℝ) / (val32 s.freq : ℝ)) q1)
include hfin hnz hr1

/-- The first quotient by its rounding. -/
theorem first_quotient : div32 s.cfg.sampleRate s.freq = some q1 := by
  obtain ⟨-, hsrf, hsrz⟩ := kinds_of_sampleRate hlegal
  exact div32_of_isRnd32 hsrf hfin hsrz hnz hr1

/-- The second form of R183: the first quotient is rounded to an infinity or to zero. -/
theorem stepComputation_of_first (hq1 : isInf32 q1 = true ∨ isZero32 q1 = true) :
    stepComputation s = { s with silent := false, phaseStep := 0#24 } := by
  have h1 := first_quotient hlegal hfin hnz hr1
  have hl1 := tableLen_pos hlegal s.waveSel
  have hl2 := tableLen_le hlegal s.waveSel
  rw [stepComputation_sounding hnz]
  rcases hq1 with hinf | hzero
  · rw [stepOfFreq_of_inf hl1 hl2 h1 hinf]
  · rw [stepOfFreq_of_zero hl1 hl2 h1 hzero]

/-- The third form of R183: the second quotient is rounded to an infinity. -/
theorem stepComputation_of_second {q2 : Word} (hq1 : isFinite32 q1 = true) (hq10 : isZero32 q1 = false)
    (hr2 : IsRnd32 ((tableLen s.cfg s.waveSel : ℝ) / (val32 q1 : ℝ)) q2) (hq2 : isInf32 q2 = true) :
    stepComputation s = { s with silent := false, phaseStep := 0#24 } := by
  have h1 := first_quotient hlegal hfin hnz hr1
  have h2 := second_quotient (tableLen_pos hlegal s.waveSel) (tableLen_le hlegal s.waveSel) hq1 hq10 hr2
  rw [stepComputation_sounding hnz, stepOfFreq_of_quotients h1 h2, hq2, Bool.true_or, Bool.true_or, if_pos rfl]

end

/-- Settles O33, one lemma for each form of R183. -/
theorem oddFrequenciesGiveStepZero : Obligations.OddFrequenciesGiveStepZero :=
  ⟨fun _ hlegal hodd => stepComputation_of_odd hlegal hodd,
    fun _ _ hlegal hfin _ hnz hr1 hq1 => stepComputation_of_first hlegal hfin hnz hr1 hq1,
    fun _ _ _ hlegal hfin _ hnz hr1 hq1 hq10 hr2 hq2 =>
      stepComputation_of_second hlegal hfin hnz hr1 hq1 hq10 hr2 hq2⟩

end Sys2Proof.Machine

/-! The built sine bank (20_memory.md R61, R62): O26, O25. -/

namespace Sys2Proof.Machine

open Sys2Proof.Safety

/-! ### Between the middles -/

/-- What does not round below `m` and does not round above `n` puts `m` at most `n`: at `m = n + 1` both bounds are one
tie, whose last place cannot be even on both sides. -/
theorem le_of_notBelow_notAbove {x : ℝ} {m n : Nat} (hm : NotBelow x m) (hn : NotAbove x n) : m ≤ n := by
  by_contra hlt
  obtain ⟨k, rfl⟩ : ∃ k, m = k + 1 := ⟨m - 1, by omega⟩
  obtain ⟨hlow, hlowtie⟩ := hm k rfl
  obtain ⟨hhigh, hhightie⟩ := hn
  rcases Nat.lt_or_eq_of_le (show n ≤ k by omega) with h | rfl
  · have h1 : (magUnits n : ℝ) < magUnits k := by exact_mod_cast magUnits_mono h
    have h2 : (magUnits (n + 1) : ℝ) < magUnits (k + 1) := by exact_mod_cast magUnits_mono (show n + 1 < k + 1 by omega)
    linarith
  · have htie := le_antisymm hlow hhigh
    have := hlowtie htie
    have := hhightie htie.symm
    omega

/-- A number up to a magnitude does not round above it. -/
theorem notAbove_of_le {x : ℝ} {m : Nat} (h : x ≤ magUnits m) : NotAbove x m := by
  have hgap : (magUnits m : ℝ) < magUnits (m + 1) := by exact_mod_cast magUnits_succ m
  exact ⟨by linarith, fun htie => absurd htie (by linarith)⟩

/-- A number from a magnitude on does not round below it. -/
theorem notBelow_of_ge {x : ℝ} {m : Nat} (h : magUnits m ≤ x) : NotBelow x m := by
  rintro k rfl
  have hgap : (magUnits k : ℝ) < magUnits (k + 1) := by exact_mod_cast magUnits_succ k
  exact ⟨by linarith, fun htie => absurd htie (by linarith)⟩

/-- A rational up to a finite magnitude is rounded to at most it. -/
theorem roundMag_le_of_le {num den m : Nat} (hd : 0 < den) (hm : m < 0x7F800000)
    (h : (num : ℝ) * 2 ^ 149 / den ≤ magUnits m) : roundMag num den ≤ m := by
  have hfin : roundMag num den < 0x7F800000 := by
    refine lt_of_le_of_ne (roundMag_le num den) fun ho => ?_
    have hbig := (roundMag_overflow num den hd).mp ho
    rw [← div_mul_eq_mul_div] at h
    exact absurd hbig (not_le.mpr (lt_overflow_of_notAbove hm (notAbove_of_le h)))
  exact le_of_notBelow_notAbove (roundMag_middles num den hd hfin).1 (notAbove_of_le h)

/-- The gap below a magnitude is at most the gap above it. -/
theorem gap_le_gap (k : Nat) : 2 ^ (max (k / 2 ^ 23) 1 - 1) ≤ 2 ^ (max ((k + 1) / 2 ^ 23) 1 - 1) := by
  apply Nat.pow_le_pow_right (by norm_num)
  have := Nat.div_le_div_right (c := 2 ^ 23) (Nat.le_add_right k 1)
  omega

/-- Between its middles a number is within half the gap above of the magnitude. -/
theorem abs_sub_le_half_gap {x : ℝ} {m : Nat} (hx : 0 ≤ x) (hb : NotBelow x m) (ha : NotAbove x m) :
    |x - magUnits m| ≤ 2 ^ (max (m / 2 ^ 23) 1 - 1) / 2 := by
  have hgap : (magUnits (m + 1) : ℝ) = magUnits m + 2 ^ (max (m / 2 ^ 23) 1 - 1) := by exact_mod_cast magUnits_gap m
  rw [abs_le]
  refine ⟨?_, by linarith [ha.1]⟩
  cases m with
  | zero =>
    have : (0 : ℝ) ≤ 2 ^ (max (0 / 2 ^ 23) 1 - 1) / 2 := by positivity
    have h0 : (magUnits 0 : ℝ) = 0 := by norm_num [magUnits]
    linarith
  | succ k =>
    have hlow : (magUnits (k + 1) : ℝ) = magUnits k + 2 ^ (max (k / 2 ^ 23) 1 - 1) := by exact_mod_cast magUnits_gap k
    have hle : (2 : ℝ) ^ (max (k / 2 ^ 23) 1 - 1) ≤ 2 ^ (max ((k + 1) / 2 ^ 23) 1 - 1) := by
      exact_mod_cast gap_le_gap k
    linarith [(hb k rfl).1]

/-! ### The magnitude of an entry -/

/-- The magnitude of the entry whose folded angle is `pi * num / len`. -/
def sineMag (amplitude : Word) (len num : Nat) : Nat :=
  let b := sineMagBounds len num
  let lo := roundMag (scaledMag amplitude * b.1) (b.2.2 * 2 ^ 150)
  let hi := roundMag (scaledMag amplitude * b.2.1) (b.2.2 * 2 ^ 150)
  sineRoundFrom amplitude len num lo (hi - lo)

/-- The sine of a folded angle. -/
noncomputable def foldedSin (len num : Nat) : ℝ := Real.sin (Real.pi * num / len)

/-- The amplitude times a ratio in units of `2^-149`. -/
theorem scaled_units (a n d : Nat) : ((a * n : ℕ) : ℝ) * 2 ^ 149 / ((d * 2 ^ 150 : ℕ) : ℝ) = a * (n / d) / 2 := by
  push_cast
  field_simp
  norm_num

/-- The amplitude times a ratio of at most 1 is rounded to at most the amplitude. -/
theorem roundMag_scaled_le {a : Word} (hfin : magOf a < 0x7F800000) {n d : Nat} (hd : 0 < d) (hn : n ≤ d) :
    roundMag (scaledMag a * n) (d * 2 ^ 150) ≤ magOf a := by
  refine roundMag_le_of_le (by positivity) hfin ?_
  have hratio : (n : ℝ) / d ≤ 1 := (div_le_one (by exact_mod_cast hd)).mpr (by exact_mod_cast hn)
  have hval : (scaledMag a : ℝ) = 2 * magUnits (magOf a) := by exact_mod_cast scaledMag_eq a
  rw [scaled_units, hval]
  nlinarith [Nat.cast_nonneg (α := ℝ) (magUnits (magOf a))]

section
variable {len num : Nat} (hl : 0 < len) (h : 2 * num ≤ len)
include hl h

theorem foldedAngle_le : Real.pi * num / len ≤ Real.pi / 2 := by
  have hlr : (0 : ℝ) < len := by exact_mod_cast hl
  have hnl : 2 * (num : ℝ) ≤ len := by exact_mod_cast h
  rw [div_le_div_iff₀ hlr (by norm_num)]
  nlinarith [Real.pi_pos]

theorem foldedSin_nonneg : 0 ≤ foldedSin len num := by
  have := foldedAngle_le hl h
  exact Real.sin_nonneg_of_nonneg_of_le_pi (by positivity) (by linarith [Real.pi_pos])

theorem foldedSin_pos (hn : 0 < num) : 0 < foldedSin len num := by
  have := foldedAngle_le hl h
  have := Real.pi_pos
  exact Real.sin_pos_of_pos_of_lt_pi (by positivity) (by linarith)

/-- The enclosure's upper end is zero only for the angle 0. -/
theorem sineMagBounds_hi_eq_zero_iff : (sineMagBounds len num).2.1 = 0 ↔ num = 0 := by
  refine ⟨fun hz => ?_, fun h0 => by simp [sineMagBounds, h0]⟩
  by_contra hn
  have hpos := foldedSin_pos hl h (Nat.pos_of_ne_zero hn)
  obtain ⟨-, -, hle⟩ := sineMagBounds_enclose hl h
  rw [hz, Nat.cast_zero, zero_div] at hle
  exact absurd hpos (not_lt.mpr hle)

/-- The enclosure's upper end is at most 1. -/
theorem sineMagBounds_hi_le (hlen : len ≤ 2 ^ 24) : (sineMagBounds len num).2.1 ≤ (sineMagBounds len num).2.2 := by
  unfold sineMagBounds
  split_ifs with h0 h2 h6
  · norm_num
  · norm_num
  · norm_num
  · exact sineBounds_le_one hl hlen (lt_of_le_of_ne h h2)

/-- Between the roundings of the enclosure's two ends the search finds the magnitude of the exact product, which is at
most the amplitude's. -/
theorem sineMag_spec {amplitude : Word} (ha : posNormal amplitude = true) (hlen : len ≤ 2 ^ 24) :
    NotBelow (scaledMag amplitude * foldedSin len num / 2) (sineMag amplitude len num) ∧
      NotAbove (scaledMag amplitude * foldedSin len num / 2) (sineMag amplitude len num) ∧
      sineMag amplitude len num ≤ magOf amplitude := by
  obtain ⟨-, -, hfin⟩ := (posNormal_iff amplitude).mp ha
  have hA := scaledMag_pos (kinds_of_posNormal ha).2.2
  obtain ⟨hd, hlo, hhi⟩ := sineMagBounds_enclose hl h
  have hone := sineMagBounds_hi_le hl h hlen
  simp only [sineMag]
  generalize sineMagBounds len num = b at *
  have hdr : (0 : ℝ) < b.2.2 := by exact_mod_cast hd
  have hden : 0 < b.2.2 * 2 ^ 150 := by positivity
  have hle : b.1 ≤ b.2.1 := by exact_mod_cast (div_le_div_iff_of_pos_right hdr).mp (hlo.trans hhi)
  have hloM := roundMag_scaled_le hfin hd (hle.trans hone)
  have hhiM := roundMag_scaled_le hfin hd hone
  have hlow := (roundMag_middles _ _ hden (hloM.trans_lt hfin)).1
  have hhigh := (roundMag_middles _ _ hden (hhiM.trans_lt hfin)).2
  rw [scaled_units] at hlow hhigh
  generalize roundMag (scaledMag amplitude * b.1) (b.2.2 * 2 ^ 150) = lo at *
  generalize roundMag (scaledMag amplitude * b.2.1) (b.2.2 * 2 ^ 150) = hi at *
  have hlow' : NotBelow (scaledMag amplitude * foldedSin len num / 2) lo := hlow.mono (by unfold foldedSin; gcongr)
  have hhigh' : NotAbove (scaledMag amplitude * foldedSin len num / 2) hi := hhigh.mono (by unfold foldedSin; gcongr)
  have hlohi := le_of_notBelow_notAbove hlow' hhigh'
  obtain ⟨h1, h2, h3⟩ := sineRoundFrom_spec hA hl h lo (hi - lo) hlow' (by rwa [Nat.add_sub_cancel' hlohi])
  exact ⟨h1, h2, by omega⟩

end

/-! ### The entries -/

/-- The sine of an entry's angle by its folded angle (20_memory.md R61). -/
theorem sin_entry {len i : Nat} (hi : i < len) :
    2 * (foldAngle len i).2 ≤ len ∧ Real.sin (2 * Real.pi * i / len) =
      signFactor (foldAngle len i).1 * foldedSin len (foldAngle len i).2 := sin_foldAngle hi

/-- An entry is +0.0 for the folded angle 0, and elsewhere the folded angle's sign and magnitude. -/
theorem sineEntry_eq {amplitude : Word} {len i : Nat} (hi : i < len) :
    sineEntry amplitude len i =
      if (foldAngle len i).2 = 0 then 0x00000000#32
      else withSign (foldAngle len i).1 (sineMag amplitude len (foldAngle len i).2) := by
  simp only [sineEntry, sineMagBounds_hi_eq_zero_iff (show 0 < len by omega) (sin_entry hi).1]
  rfl

/-- The model's half unit in the last place, from the exponent (00_scope.md R19). -/
theorem halfUlp_eq (w : Word) : halfUlp w = 2 ^ (max (magOf w / 2 ^ 23) 1 - 1) := by
  rw [halfUlp, expField_eq]

/-- It is half of one unit in the last place of the value. -/
theorem ulp32_half (w : Word) : ulp32 w / 2 = halfUlp w / 2 ^ 150 := by
  obtain ⟨e, he⟩ : ∃ e, max (expField w) 1 = e + 1 := ⟨max (expField w) 1 - 1, by omega⟩
  rw [ulp32, halfUlp, he, pow_succ, Nat.add_sub_cancel]
  push_cast
  ring

/-- The value of +0.0. -/
theorem val32_zero : (val32 0x00000000#32 : ℝ) = 0 := by
  exact_mod_cast (show val32 0x00000000#32 = 0 by decide +kernel)

section
variable {amplitude : Word} (ha : posNormal amplitude = true) {len : Nat} (hlen : len ≤ 2 ^ 24)
include ha hlen

/-- The magnitude of an entry is where `sineMag_spec` puts it, also at the folded angle 0; so is its sign elsewhere. -/
theorem sineEntry_spec {i : Nat} (hi : i < len) :
    NotBelow (scaledMag amplitude * foldedSin len (foldAngle len i).2 / 2) (magOf (sineEntry amplitude len i)) ∧
      NotAbove (scaledMag amplitude * foldedSin len (foldAngle len i).2 / 2) (magOf (sineEntry amplitude len i)) ∧
      magOf (sineEntry amplitude len i) ≤ magOf amplitude ∧
      ((foldAngle len i).2 ≠ 0 → signBit (sineEntry amplitude len i) = (foldAngle len i).1) := by
  obtain ⟨-, -, hfin⟩ := (posNormal_iff amplitude).mp ha
  rw [sineEntry_eq hi]
  split
  · rename_i h0
    rw [h0]
    refine ⟨nofun, notAbove_of_le ?_, Nat.zero_le _, fun hn => absurd rfl hn⟩
    simp [foldedSin]
  · obtain ⟨hb, ha', hle⟩ := sineMag_spec (by omega) (sin_entry hi).1 ha hlen
    rw [magOf_withSign _ (by omega), signBit_withSign _ (by omega)]
    exact ⟨hb, ha', hle, fun _ => rfl⟩

/-- Every entry is the correct rounding of 20_memory.md R61. -/
theorem isRnd32_sineEntry {i : Nat} (hi : i < len) :
    IsRnd32 ((val32 amplitude : ℝ) * Real.sin (2 * Real.pi * i / len)) (sineEntry amplitude len i) := by
  obtain ⟨-, -, hfin⟩ := (posNormal_iff amplitude).mp ha
  obtain ⟨hfold, hsin⟩ := sin_entry hi
  have hl : 0 < len := by omega
  rw [hsin, sineEntry_eq hi]
  split
  · rename_i h0
    simpa [h0, foldedSin] using isRnd32_zeroValue
  · rename_i h0
    obtain ⟨hb, ha', hle⟩ := sineMag_spec hl hfold ha hlen
    have hA : (0 : ℝ) < scaledMag amplitude := by exact_mod_cast scaledMag_pos (kinds_of_posNormal ha).2.2
    have hS := foldedSin_pos hl hfold (Nat.pos_of_ne_zero h0)
    have hunits : (val32 amplitude : ℝ) * foldedSin len (foldAngle len i).2 * 2 ^ 149 =
        scaledMag amplitude * foldedSin len (foldAngle len i).2 / 2 := by
      rw [val32_of_posNormal ha]
      ring
    rw [mul_left_comm]
    refine isRnd32_of_middles _ ?_ (by omega) (by rwa [hunits]) (by rwa [hunits])
    rw [val32_of_posNormal ha]
    positivity

/-! ### The properties of R62 -/

/-- 20_memory.md R62 (b). -/
theorem sineEntry_bounded {i : Nat} (hi : i < len) :
    isFinite32 (sineEntry amplitude len i) = true ∧ |val32 (sineEntry amplitude len i)| ≤ val32 amplitude := by
  obtain ⟨hsign, -, hfin⟩ := (posNormal_iff amplitude).mp ha
  obtain ⟨-, -, hle, -⟩ := sineEntry_spec ha hlen hi
  refine ⟨(isFinite32_iff _).mpr (by omega), ?_⟩
  have hunits : (magUnits (magOf (sineEntry amplitude len i)) : ℝ) ≤ magUnits (magOf amplitude) := by
    exact_mod_cast magUnits_mono.monotone hle
  have hreal : |(val32 (sineEntry amplitude len i) : ℝ)| ≤ val32 amplitude := by
    rw [abs_val32, val32_eq amplitude, hsign]
    simp only [Bool.false_eq_true, if_false, one_mul]
    gcongr
  exact_mod_cast hreal

/-- 20_memory.md R62 (g): a number between its middles is within half a unit in the last place. -/
theorem sineEntry_near {i : Nat} (hi : i < len) :
    |(val32 (sineEntry amplitude len i) : ℝ) - val32 amplitude * Real.sin (2 * Real.pi * i / len)| ≤
      ulp32 (sineEntry amplitude len i) / 2 := by
  obtain ⟨hfold, hsin⟩ := sin_entry hi
  obtain ⟨hb, ha', -, hs⟩ := sineEntry_spec ha hlen hi
  have hS := foldedSin_nonneg (show 0 < len by omega) hfold
  have hnear := abs_sub_le_half_gap (by positivity) hb ha'
  rw [hsin, ulp32_half, halfUlp_eq]
  by_cases h0 : (foldAngle len i).2 = 0
  · rw [sineEntry_eq hi, if_pos h0, h0, val32_zero]
    exact le_of_eq_of_le (by simp [foldedSin]) (show (0 : ℝ) ≤ _ by positivity)
  · rw [val32_of_posNormal ha, val32_eq, hs h0, mul_left_comm, ← signFactor, ← mul_sub, abs_signFactor_mul, abs_sub_comm]
    calc |scaledMag amplitude / 2 ^ 150 * foldedSin len (foldAngle len i).2 -
          magUnits (magOf (sineEntry amplitude len i)) / 2 ^ 149|
        = |scaledMag amplitude * foldedSin len (foldAngle len i).2 / 2 -
          magUnits (magOf (sineEntry amplitude len i))| / 2 ^ 149 := by
          rw [← abs_of_pos (show (0 : ℝ) < 2 ^ 149 by positivity), ← abs_div]
          congr 1
          rw [abs_of_pos (by positivity)]
          ring
      _ ≤ 2 ^ (max (magOf (sineEntry amplitude len i) / 2 ^ 23) 1 - 1) / 2 / 2 ^ 149 := by gcongr
      _ = _ := by
          push_cast
          ring

/-- At the first quarter the folded angle is a right angle, whose magnitude is the amplitude itself. -/
theorem sineMag_right_angle {num : Nat} (hn : 0 < num) (h : 2 * num = len) :
    sineMag amplitude len num = magOf amplitude := by
  obtain ⟨hb, ha', hle⟩ := sineMag_spec (show 0 < len by omega) h.le ha hlen
  have hone : foldedSin len num = 1 := by
    have hnr : (num : ℝ) ≠ 0 := by exact_mod_cast hn.ne'
    rw [foldedSin, ← h, ← Real.sin_pi_div_two]
    congr 1
    push_cast
    field_simp
  have hval : (scaledMag amplitude : ℝ) = 2 * magUnits (magOf amplitude) := by exact_mod_cast scaledMag_eq amplitude
  refine le_antisymm hle (le_of_notBelow_notAbove (notBelow_of_ge ?_) ha')
  rw [hone, hval]
  linarith

end

/-! ### The folded angles of particular indexes -/

theorem foldAngle_zero (len : Nat) : (foldAngle len 0).2 = 0 := by simp [foldAngle]

theorem foldAngle_half (i : Nat) : (foldAngle (2 * i) i).2 = 0 := by simp [foldAngle]

theorem foldAngle_quarter {i : Nat} (hi : 0 < i) : foldAngle (4 * i) i = (false, 2 * i) := by
  have hmod : 2 * i % (4 * i) = 2 * i := Nat.mod_eq_of_lt (by omega)
  simp only [foldAngle, hmod, Prod.mk.injEq, decide_eq_false_iff_not]
  exact ⟨by omega, if_neg (by omega)⟩

theorem foldAngle_three_quarters {i : Nat} (hi : 0 < i) : foldAngle (4 * i) (3 * i) = (true, 2 * i) := by
  have hmod : 2 * (3 * i) % (4 * i) = 2 * i := by
    rw [show 2 * (3 * i) = 2 * i + 4 * i by ring, Nat.add_mod_right, Nat.mod_eq_of_lt (by omega)]
  simp only [foldAngle, hmod, Prod.mk.injEq, decide_eq_true_eq]
  exact ⟨by omega, if_neg (by omega)⟩

/-- The angle reflected at the middle has the other sign and the same folded angle, which is not 0. -/
theorem foldAngle_reflect {len i : Nat} (h1 : 1 ≤ i) (hi : i < len) (hmid : 2 * i ≠ len) :
    foldAngle len (len - i) = (!(foldAngle len i).1, (foldAngle len i).2) ∧ (foldAngle len i).2 ≠ 0 := by
  rcases Nat.lt_or_gt_of_ne hmid with h | h
  · have hmod : 2 * i % len = 2 * i := Nat.mod_eq_of_lt h
    have hmod' : 2 * (len - i) % len = len - 2 * i := by
      rw [show 2 * (len - i) = len - 2 * i + len by omega, Nat.add_mod_right, Nat.mod_eq_of_lt (by omega)]
    simp only [foldAngle, hmod, hmod', Prod.mk.injEq]
    refine ⟨⟨by rw [← decide_not, decide_eq_decide]; omega, ?_⟩, ?_⟩ <;> split_ifs <;> omega
  · have hmod : 2 * i % len = 2 * i - len := by
      rw [Nat.mod_eq_sub_mod h.le, Nat.mod_eq_of_lt (by omega)]
    have hmod' : 2 * (len - i) % len = 2 * (len - i) := Nat.mod_eq_of_lt (by omega)
    simp only [foldAngle, hmod, hmod', Prod.mk.injEq]
    refine ⟨⟨by rw [← decide_not, decide_eq_decide]; omega, ?_⟩, ?_⟩ <;> split_ifs <;> omega

theorem withSign_not {m : Nat} (neg : Bool) (hm : m < 2 ^ 31) : withSign (!neg) m = negate32 (withSign neg m) := by
  apply word_ext
  · rw [magOf_negate32, magOf_withSign _ hm, magOf_withSign _ hm]
  · rw [signBit_negate32, signBit_withSign _ hm, signBit_withSign _ hm]

/-- Settles O26, one lemma for each property. -/
theorem builtSineBankMeetsTheImageRules : Obligations.BuiltSineBankMeetsTheImageRules := by
  intro amp len ha h1 hlen
  obtain ⟨hsign, -, hfin⟩ := (posNormal_iff amp).mp ha
  exact
    { bounded := fun i hi => sineEntry_bounded ha hlen hi
      first := by rw [sineEntry_eq h1, if_pos (foldAngle_zero len)]
      middle := by
        rintro i rfl
        rw [sineEntry_eq (by omega), if_pos (foldAngle_half i)]
      quarters := by
        rintro i rfl
        have hi : 0 < i := by omega
        have hmag := sineMag_right_angle ha hlen (show 0 < 2 * i by omega) (by ring)
        rw [sineEntry_eq (by omega), sineEntry_eq (by omega), foldAngle_quarter hi, foldAngle_three_quarters hi]
        simp only [if_neg (show 2 * i ≠ 0 by omega), hmag]
        refine ⟨withSign_magOf hsign, ?_⟩
        rw [← Bool.not_false, withSign_not false (by omega), withSign_magOf hsign]
      antisymmetric := fun i hi1 hi hmid => by
        obtain ⟨hfold, hn⟩ := foldAngle_reflect hi1 hi hmid
        obtain ⟨-, -, hle⟩ := sineMag_spec (show 0 < len by omega) (sin_entry hi).1 ha hlen
        rw [sineEntry_eq (by omega), sineEntry_eq hi, hfold]
        simp only [if_neg hn]
        rw [withSign_not _ (by omega)]
      near := fun i hi => sineEntry_near ha hlen hi }

/-! ### The bank of a legal block -/

/-- Where no image is supplied bank 0 is built (20_memory.md R61). -/
theorem waveRom_built {c : Config} (hnone : c.sineRom = none) {i : Nat} (hi : i < c.lenSine) :
    waveRom c 0#2 i = some (sineEntry c.amplitude c.lenSine i) := by
  have hbank : waveRom c 0#2 i = sineRomEntry c i := if_pos hi
  rw [hbank, sineRomEntry, hnone]

/-- Settles O25: the entries are those of the built bank, whose zeros and quarters O26 gives. -/
theorem sineBankIsCorrectlyRounded : Obligations.SineBankIsCorrectlyRounded := by
  intro c hc hnone
  have ha := legal_amplitude hc
  have hpos : 1 ≤ c.lenSine := tableLen_pos hc 0#2
  have hlen : c.lenSine ≤ 2 ^ 24 := tableLen_le hc 0#2
  have hrules := builtSineBankMeetsTheImageRules c.amplitude c.lenSine ha hpos hlen
  refine ⟨fun i hi => ⟨_, waveRom_built hnone hi, isRnd32_sineEntry ha hlen hi⟩, ?_, fun i hi => ?_, fun i hi => ?_⟩
  · rw [waveRom_built hnone hpos, hrules.first]
  · rw [waveRom_built hnone (by omega), hrules.middle i hi]
  · obtain ⟨hq1, hq3⟩ := hrules.quarters i hi
    rw [waveRom_built hnone (by omega), waveRom_built hnone (by omega), hq1, hq3]
    exact ⟨rfl, rfl⟩

end Sys2Proof.Machine

/-! Legal configurations, supplied images and table reads (00_scope.md R11, 20_memory.md R62, R68): O9, O30. -/

namespace Sys2Proof.Machine

open Sys2Proof.Safety

/-! ### R62 (g) of a supplied entry -/

/-- The comparison's "not greater" in real numbers. -/
theorem sineOrder_ne_gt_iff {len num a b : Nat} (hl : 0 < len) (h : 2 * num ≤ len) (hb : 0 < b) :
    sineOrder len num a b ≠ .gt ↔ (b : ℝ) * foldedSin len num ≤ a := by
  have ho := sineOrder_spec (a := a) hl h hb
  have hbr : (0 : ℝ) < b := by exact_mod_cast hb
  rw [← le_div_iff₀' hbr]
  cases hs : sineOrder len num a b <;> rw [hs] at ho
  · exact iff_of_true nofun ho.le
  · exact iff_of_true nofun ho.le
  · exact iff_of_false (fun hne => hne rfl) ho.not_ge

/-- The comparison's "not less" in real numbers. -/
theorem sineOrder_ne_lt_iff {len num a b : Nat} (hl : 0 < len) (h : 2 * num ≤ len) (hb : 0 < b) :
    sineOrder len num a b ≠ .lt ↔ (a : ℝ) ≤ b * foldedSin len num := by
  have ho := sineOrder_spec (a := a) hl h hb
  have hbr : (0 : ℝ) < b := by exact_mod_cast hb
  rw [← div_le_iff₀' hbr]
  cases hs : sineOrder len num a b <;> rw [hs] at ho
  · exact iff_of_false (fun hne => hne rfl) ho.not_ge
  · exact iff_of_true nofun ho.ge
  · exact iff_of_true nofun ho.le

/-- A distance between products with one sign factor each, for factors that agree and that differ. -/
theorem abs_signFactor_sub (p n : Bool) (x y : ℝ) :
    |signFactor p * x - signFactor n * y| = if p = n then |x - y| else |x + y| := by
  cases p <;> cases n
  · simp
  · simp
  · rw [← abs_neg]
    simp [add_comm]
  · rw [← abs_neg]
    simp [neg_add_eq_sub]

/-- A value within the amplitude, by the scaled magnitudes. -/
theorem scaledMag_le_iff {a s : Word} (ha : posNormal a = true) :
    scaledMag s ≤ scaledMag a ↔ |val32 s| ≤ val32 a := by
  have habs : |(val32 s : ℝ)| = scaledMag s / 2 ^ 150 := by
    rw [abs_val32, scaledMag_eq]
    push_cast
    ring
  have hreal : |(val32 s : ℝ)| ≤ val32 a ↔ |val32 s| ≤ val32 a := by norm_cast
  rw [← hreal, habs, val32_of_posNormal ha, div_le_div_iff_of_pos_right (by positivity), Nat.cast_le]

/-- A check of every entry with its index. -/
theorem all_zipIdx_iff {α : Type} {l : List α} {p : α × Nat → Bool} (d : α) :
    l.zipIdx.all p = true ↔ ∀ i, i < l.length → p (l.getD i d, i) = true := by
  rw [List.all_eq_true]
  constructor
  · intro h i hi
    refine h _ (List.mk_mem_zipIdx_iff_getElem?.mpr ?_)
    rw [List.getD_eq_getElem _ _ hi, List.getElem?_eq_getElem hi]
  · rintro h ⟨x, i⟩ hx
    obtain ⟨hi, rfl⟩ := List.getElem?_eq_some_iff.mp (List.mk_mem_zipIdx_iff_getElem?.mp hx)
    have hp := h i hi
    rwa [List.getD_eq_getElem _ _ hi] at hp

/-- The check of an image without its first entry against its reversal is the antisymmetry of R62 (f). -/
theorem all_antisymmetric_iff {image : List Word} {len : Nat} (hlen : image.length = len) :
    ((image.tail.zip image.tail.reverse).zipIdx.all fun e =>
        2 * (e.2 + 1) == len || e.1.2 == negate32 e.1.1) = true ↔
      ∀ i, 1 ≤ i → i < len → 2 * i ≠ len →
        image.getD (len - i) 0x00000000#32 = negate32 (image.getD i 0x00000000#32) := by
  have hpair : ∀ k, k + 1 < len → (image.tail.zip image.tail.reverse).getD k (0x00000000#32, 0x00000000#32) =
      (image.getD (k + 1) 0x00000000#32, image.getD (len - (k + 1)) 0x00000000#32) := fun k hk => by
    rw [List.getD_eq_getElem _ _ (by simp [hlen]; omega), List.getD_eq_getElem _ _ (by omega),
      List.getD_eq_getElem _ _ (by omega), List.getElem_zip, List.getElem_tail, List.getElem_reverse, List.getElem_tail]
    simp only [List.length_tail, hlen, Prod.mk.injEq, true_and]
    congr 1
    omega
  have hcount : (image.tail.zip image.tail.reverse).length = len - 1 := by simp [hlen]
  rw [all_zipIdx_iff (0x00000000#32, 0x00000000#32), hcount]
  constructor
  · intro h i h1 hi hmid
    obtain ⟨k, rfl⟩ : ∃ k, i = k + 1 := ⟨i - 1, by omega⟩
    have hk := h k (by omega)
    rw [hpair k hi] at hk
    simpa [hmid] using hk
  · intro h k hk
    rw [hpair k (by omega)]
    by_cases hmid : 2 * (k + 1) = len
    · simp [hmid]
    · simpa [hmid] using h (k + 1) (by omega) (by omega) hmid

/-- The distance of R62 (g) in units of `2^-150`. -/
theorem near_iff_scaled (s : Word) (A y : ℝ) (n : Bool) :
    |(val32 s : ℝ) - A / 2 ^ 150 * (signFactor n * y)| ≤ ulp32 s / 2 ↔
      |signFactor (signBit s) * scaledMag s - signFactor n * (A * y)| ≤ halfUlp s := by
  have hval : (val32 s : ℝ) = signFactor (signBit s) * scaledMag s / 2 ^ 150 := by
    rw [eq_div_iff (by positivity), scaledMag_eq]
    push_cast
    linear_combination 2 * val32_eq_signFactor s
  rw [ulp32_half, hval, show A / 2 ^ 150 * (signFactor n * y) = signFactor n * (A * y) / 2 ^ 150 by ring, ← sub_div,
    abs_div, abs_of_pos (show (0 : ℝ) < 2 ^ 150 by positivity), div_le_div_iff_of_pos_right (by positivity)]

/-- A truncated difference below a number that is not negative. -/
theorem le_or_cast_sub_le {m n : Nat} {y : ℝ} (hy : 0 ≤ y) : (m ≤ n ∨ ((m - n : ℕ) : ℝ) ≤ y) ↔ (m : ℝ) - n ≤ y := by
  rcases le_total m n with h | h
  · have hr : (m : ℝ) ≤ n := by exact_mod_cast h
    exact iff_of_true (.inl h) (by linarith)
  · rw [Nat.cast_sub h]
    refine ⟨?_, .inr⟩
    rintro (h' | h')
    · rw [le_antisymm h' h]
      simpa using hy
    · exact h'

/-- A difference that is not truncated, above a number. -/
theorem le_and_le_cast_sub {m n : Nat} {y : ℝ} (hy : 0 ≤ y) : (m ≤ n ∧ y ≤ ((n - m : ℕ) : ℝ)) ↔ (m : ℝ) + y ≤ n := by
  refine ⟨fun ⟨h, hle⟩ => ?_, fun h => ?_⟩
  · rw [Nat.cast_sub h] at hle
    linarith
  · have hmn : m ≤ n := by
      have : (m : ℝ) ≤ n := by linarith
      exact_mod_cast this
    rw [Nat.cast_sub hmn]
    exact ⟨hmn, by linarith⟩

/-- What 20_memory.md R62 (b) to (e) and (g) ask of the word `s` at index `i`. -/
structure ImageEntryRules (amplitude : Word) (len i : Nat) (s : Word) : Prop where
  finite : isFinite32 s = true
  bounded : |val32 s| ≤ val32 amplitude
  first : i = 0 → s = 0x00000000#32
  middle : 2 * i = len → s = 0x00000000#32
  quarter : 4 * i = len → s = amplitude
  three_quarters : 4 * i = 3 * len → s = negate32 amplitude
  near : |(val32 s : ℝ) - val32 amplitude * Real.sin (2 * Real.pi * i / len)| ≤ ulp32 s / 2

section
variable {c : Config} (ha : posNormal c.amplitude = true)
include ha

/-- The check of (g) on one entry is the distance of 20_memory.md R62 (g). -/
theorem sineImageNear_iff {i : Nat} (hi : i < c.lenSine) (s : Word) :
    sineImageNear c i s = true ↔
      |(val32 s : ℝ) - val32 c.amplitude * Real.sin (2 * Real.pi * i / c.lenSine)| ≤ ulp32 s / 2 := by
  have hl : 0 < c.lenSine := by omega
  have hA := scaledMag_pos (kinds_of_posNormal ha).2.2
  obtain ⟨hfold, hsin⟩ := sin_entry hi
  have hS := foldedSin_nonneg hl hfold
  rw [hsin, val32_of_posNormal ha, near_iff_scaled, abs_signFactor_sub]
  simp only [sineImageNear, beq_iff_eq]
  split
  · rw [Bool.and_eq_true, Bool.or_eq_true, bne_iff_ne, bne_iff_ne, decide_eq_true_iff, sineOrder_ne_gt_iff hl hfold hA,
      sineOrder_ne_lt_iff hl hfold hA, le_or_cast_sub_le (by positivity), abs_le, Nat.cast_add]
    constructor <;> rintro ⟨h1, h2⟩ <;> constructor <;> linarith
  · rw [Bool.and_eq_true, bne_iff_ne, decide_eq_true_iff, sineOrder_ne_gt_iff hl hfold hA,
      le_and_le_cast_sub (by positivity),
      abs_of_nonneg (by positivity)]

/-! ### R62 of a supplied image -/

/-- The checks of one entry are the properties that R62 asks of it. -/
theorem sineImageEntryOk_iff {i : Nat} (hi : i < c.lenSine) (s : Word) :
    sineImageEntryOk c i s = true ↔ ImageEntryRules c.amplitude c.lenSine i s := by
  simp only [sineImageEntryOk, Bool.and_eq_true, Bool.or_eq_true, decide_eq_true_iff, bne_iff_ne, beq_iff_eq,
    ← imp_iff_not_or, sineImageNear_iff ha hi, scaledMag_le_iff ha]
  constructor
  · rintro ⟨⟨⟨⟨⟨⟨hfin, hle⟩, hfirst⟩, hmiddle⟩, hquarter⟩, hthree⟩, hnear⟩
    exact ⟨hfin, hle, hfirst, hmiddle, hquarter, hthree, hnear⟩
  · rintro ⟨hfin, hle, hfirst, hmiddle, hquarter, hthree, hnear⟩
    exact ⟨⟨⟨⟨⟨⟨hfin, hle⟩, hfirst⟩, hmiddle⟩, hquarter⟩, hthree⟩, hnear⟩

/-- A supplied image passes the model's check exactly if it has the length (a) and the properties (b) to (g). -/
theorem sineImageOk_iff (h1 : 1 ≤ c.lenSine) (image : List Word) :
    sineImageOk c image = true ↔
      image.length = c.lenSine ∧ SineImageRules c.amplitude c.lenSine (fun i => image.getD i 0x00000000#32) := by
  simp only [sineImageOk, Bool.and_eq_true, beq_iff_eq, and_assoc]
  refine and_congr_right fun hlen => ?_
  rw [all_zipIdx_iff 0x00000000#32, all_antisymmetric_iff hlen, hlen]
  constructor
  · rintro ⟨hentry, hanti⟩
    have entry : ∀ i, i < c.lenSine → ImageEntryRules c.amplitude c.lenSine i (image.getD i 0x00000000#32) :=
      fun i hi => (sineImageEntryOk_iff ha hi _).mp (hentry i hi)
    exact
      { bounded := fun i hi => ⟨(entry i hi).finite, (entry i hi).bounded⟩
        first := (entry 0 h1).first rfl
        middle := fun i hi => (entry i (by omega)).middle hi
        quarters := fun i hi =>
          ⟨(entry i (by omega)).quarter hi, (entry (3 * i) (by omega)).three_quarters (by omega)⟩
        antisymmetric := hanti
        near := fun i hi => (entry i hi).near }
  · intro hr
    refine ⟨fun i hi => (sineImageEntryOk_iff ha hi _).mpr ?_, hr.antisymmetric⟩
    obtain ⟨hfin, hle⟩ := hr.bounded i hi
    exact
      { finite := hfin
        bounded := hle
        first := by
          rintro rfl
          exact hr.first
        middle := hr.middle i
        quarter := fun h => (hr.quarters i h).1
        three_quarters := fun h => by
          obtain ⟨j, rfl⟩ : ∃ j, i = 3 * j := ⟨i / 3, by omega⟩
          exact (hr.quarters j (by omega)).2
        near := hr.near i hi }

end

/-! ### Legal configurations -/

theorem expField_lt (b : Word) : expField b < 256 := (b.extractLsb' 23 8).isLt

/-- A positive normal pattern by its fields (00_scope.md R11). -/
theorem posNormal_iff_fields (b : Word) :
    posNormal b = true ↔ signBit b = false ∧ 1 ≤ expField b ∧ expField b ≤ 254 := by
  have := expField_lt b
  simp only [posNormal, isNormal32, Bool.and_eq_true, Bool.not_eq_true', bne_iff_ne]
  exact and_congr_right fun _ => by omega

/-- The four lengths are those of the banks (00_scope.md R9). -/
theorem tableLens_iff (c : Config) (P : Nat → Prop) :
    (∀ k, P (tableLen c k)) ↔ P c.lenSine ∧ P c.lenSquare ∧ P c.lenSawtooth ∧ P c.lenTriangle :=
  ⟨fun h => ⟨h 0#2, h 1#2, h 2#2, h 3#2⟩, fun ⟨h0, h1, h2, h3⟩ => tableLen_induct h0 h1 h2 h3⟩

/-- The legal configurations are those of 00_scope.md R11, with a supplied image as 20_memory.md R62 says. -/
theorem configLegal_iff_rules (c : Config) :
    configLegal c = true ↔
      (∀ k, 1 ≤ tableLen c k ∧ tableLen c k ≤ 2 ^ 24) ∧
        (signBit c.sampleRate = false ∧ 1 ≤ expField c.sampleRate ∧ expField c.sampleRate ≤ 254) ∧
        (signBit c.amplitude = false ∧ 1 ≤ expField c.amplitude ∧ expField c.amplitude ≤ 254) ∧
        (1 ≤ c.fpb ∧ c.fpb ≤ 2 ^ 30) ∧ (1 ≤ c.np ∧ c.np ≤ 16) ∧
        ∀ image, c.sineRom = some image →
          image.length = c.lenSine ∧ SineImageRules c.amplitude c.lenSine (fun i => image.getD i 0x00000000#32) := by
  rw [configLegal_iff, ← posNormal_iff_fields, ← posNormal_iff_fields,
    tableLens_iff c fun n => 1 ≤ n ∧ n ≤ 2 ^ 24]
  constructor
  · rintro ⟨hnp, hlens, hsr, hamp, hfpb, himage⟩
    exact ⟨hlens, hsr, hamp, hfpb, hnp, fun image hi => (sineImageOk_iff hamp hlens.1.1 image).mp (himage image hi)⟩
  · rintro ⟨hlens, hsr, hamp, hfpb, hnp, himage⟩
    exact ⟨hnp, hlens, hsr, hamp, hfpb, fun image hi => (sineImageOk_iff hamp hlens.1.1 image).mpr (himage image hi)⟩

/-! ### Refusals -/

theorem drainStep_ne_refused (s : State) (r : Refusal) : drainStep s ≠ .refused r := by
  cases hp : fifoPop s with
  | none =>
    rw [drainStep_of_fifoPop_none hp]
    exact nofun
  | some ws =>
    obtain ⟨t, ht⟩ := exec_next (decode ws.1) ws.2
    simp [drainStep, hp, applyWord, ht]

theorem emitStep_ne_refused (s : State) (r : Refusal) : emitStep s ≠ .refused r := by
  unfold emitStep outputSide
  cases sampleWord s (outCount s) <;> split_ifs <;> exact nofun

theorem engineStep_ne_refused (s : State) (r : Refusal) : engineStep s ≠ .refused r := by
  unfold engineStep
  cases s.estate with
  | idle => exact nofun
  | drain =>
    dsimp only
    split_ifs
    · exact nofun
    · exact drainStep_ne_refused s r
  | step => exact nofun
  | emit => exact emitStep_ne_refused s r
  | fatal => exact nofun
  | undefinedCode c => exact nofun

/-- No command, no engine edge and no step of another agent but `drive` is refused (41_commands.md R173). -/
theorem clkEdge_ne_refused (s : State) (r : Refusal) : clkEdge s ≠ .refused r := by
  have hstep : clkStep s ≠ .refused r := by
    unfold clkStep
    split_ifs
    · exact nofun
    · exact nofun
    · exact nofun
    · exact engineStep_ne_refused s r
  unfold clkEdge
  cases h : clkStep s with
  | next t => exact nofun
  | fault f => exact nofun
  | refused r' =>
    intro hr
    cases hr
    exact hstep h

/-- An agent's step never finds the configuration illegal; `step` has asked before. -/
theorem perform_ne_illegal (a : Action) (s : State) : perform a s ≠ .refused .illegalConfiguration := by
  cases a with
  | drive p => rcases drivePins_cases p s with ⟨h, -⟩ | h <;> rw [perform, h] <;> exact nofun
  | clk => exact clkEdge_ne_refused s _
  | wclk g arb => exact nofun
  | cross => exact nofun
  | sampleAttach p => exact nofun

/-- Settles O9: a step asks for a legal configuration first, and legality is the rules of R11 and R62. -/
theorem illegalConfigurationIsRefused : Obligations.IllegalConfigurationIsRefused := by
  intro s
  rw [← configLegal_iff_rules]
  by_cases hl : configLegal s.cfg = true
  · rw [step_eq_perform hl]
    exact iff_of_false (perform_ne_illegal _ _) (not_not_intro hl)
  · exact iff_of_true (by rw [step, nextStep, if_neg hl]) hl

/-! ### Table reads -/

/-- A supplied image is read word by word (20_memory.md R62). -/
theorem waveRom_supplied {c : Config} (h : configLegal c = true) {image : List Word} (hi : c.sineRom = some image)
    (i : Nat) : waveRom c 0#2 i = image[i]? := by
  by_cases hlt : i < c.lenSine
  · have hbank : waveRom c 0#2 i = sineRomEntry c i := if_pos hlt
    rw [hbank, sineRomEntry, hi]
  · have hbank : waveRom c 0#2 i = none := if_neg hlt
    rw [hbank, List.getElem?_eq_none (by rw [sineImage_length h hi]; exact not_lt.mp hlt)]

/-- A word presented with its cursor out of range faults by name, taken or not (20_memory.md R68, log entry 18). -/
theorem outputSide_out_of_range {s : State} (hpend : outPending s = true) (hsound : s.silent = false)
    (hout : tableLen s.cfg s.waveSel ≤ (if outCount s % 2 = 0 then s.lphase else s.rphase).toNat) :
    outputSide s = .fault .waveRomIndexOutOfRange := by
  have hread : sampleWord s (outCount s) = none := by
    rw [sampleWord, hsound]
    exact if_neg (not_lt.mpr hout)
  rw [outputSide, if_pos hpend, hread]

/-- Settles O30. -/
theorem tableReadsAreInRange : Obligations.TableReadsAreInRange :=
  ⟨fun _ k i h => waveRom_isSome h k i, fun _ _ i h hi => waveRom_supplied h hi i, fun _ j h => sampleWord_isSome h j,
    fun _ => outputSide_out_of_range⟩

end Sys2Proof.Machine

/-! The drain step as the decoded word's `exec`, and the commands' frames (43_buffer_cycle.md R215, 41_commands.md): O8, O12,
O20. -/

namespace Sys2Proof.Machine

open Sys2Proof.Safety

/-- Without reset, driver error and overlap a `clk` edge is the engine's own step and the display of `V`
(60_exceptions.md R250, 43_buffer_cycle.md R230). -/
theorem clkEdge_quiet {s t : State} (hrst : s.pins.rst = false) (hdrv : s.pins.drvFatal = false)
    (hcyc : s.pins.cycStart = false ∨ busy s.estate = false) (h : engineStep s = .next t) :
    clkEdge s = .next { t with levelShown := t.v } :=
  clkEdge_next ((clkStep_eq_engineStep hrst (.inl hdrv) hcyc).trans h)

/-- What such an edge answers, read backwards. -/
theorem engineStep_of_clkEdge {s t : State} (hrst : s.pins.rst = false) (hdrv : s.pins.drvFatal = false)
    (hcyc : s.pins.cycStart = false ∨ busy s.estate = false) (h : clkEdge s = .next t) :
    ∃ u, engineStep s = .next u ∧ t = latchLevel u := by
  obtain ⟨u, hu, rfl⟩ := clkEdge_eq_next.mp h
  exact ⟨u, (clkStep_eq_engineStep hrst (.inl hdrv) hcyc).symm.trans hu, rfl⟩

/-- In DRAIN with words left the engine's own step is a drain step (43_buffer_cycle.md R215). -/
theorem engineStep_drain {s : State} (he : s.estate = .drain) (hd : s.drainLeft ≠ 0#11) :
    engineStep s = drainStep s := by
  rw [engineStep, he]
  exact if_neg hd

/-- Settles O8: the step is a `clk` edge, the edge a drain step, and the drain step applies the head word. -/
theorem stepRunsTheDecodedWord : Obligations.StepRunsTheDecodedWord := by
  intro s w rest hlegal hclk hrst hdrv hcyc he hd hv hq
  obtain ⟨s2, happly, hdrain⟩ := drainStep_next (s := taken s) hq hv
  have hedge : step s = clkEdge (taken s) := by
    rw [step_eq_perform hlegal, show s.schedule.head?.getD .clk = .clk by simpa [clkNext] using hclk]
    rfl
  have hexec : exec (decode w) { s with schedule := s.schedule.tail, q := rest, v := s.v - 1#11 } = .next s2 := happly
  rw [hedge, hexec]
  exact clkEdge_quiet (s := taken s) hrst hdrv (.inl hcyc) ((engineStep_drain (s := taken s) he hd).trans hdrain)

/-- SET_PARAM of parameter id 0 (41_commands.md R152). -/
theorem exec_decode_setParam {w : CmdWord} (s : State) (hopc : opcField w = 0x01#8) (hsub : subField w = 0x00#8) :
    exec (decode w) s = .next (setFreq (payloadField w) s) := by
  rw [decode_of_meetsLine (i := .setParam (payloadField w)) ⟨hopc, hsub, rfl⟩]
  rfl

/-- Settles O12. -/
theorem setParamCopiesThePattern : Obligations.SetParamCopiesThePattern := fun _ s hopc hsub =>
  exec_decode_setParam s hopc hsub

/-- Settles O20, one arm of `exec` at a time. -/
theorem commandsWriteOnlyTheirRegisters : Obligations.CommandsWriteOnlyTheirRegisters := by
  intro i s t h
  cases i <;> cases h <;> rfl

end Sys2Proof.Machine

/-! The ports, the crossing and the attach samples (40_command_fifo.md R121 to R128): O36, O37, O38. -/

namespace Sys2Proof.Machine

open Sys2Proof.Safety

/-! ### Transfers -/

/-- A port that is not ready transfers nothing (40_command_fifo.md R122). -/
theorem transferAt_some (p : Nat) (s : State) :
    transferAt (some p) s =
      if portReady s (some p) p = true ∧ (portPins s p).valid = true then enqueue (portPins s p).data s else s := by
  simp [transferAt]

/-- Settles O36: a granted port is ready under R123's other conditions. -/
theorem transferAppendsTheWord : Obligations.TransferAppendsTheWord := by
  intro s arb hrst
  have hedge : ∀ g, wclkEdge g arb s = { transferAt g s with arbst := arb } := fun g => by
    rw [wclkEdge, if_neg (by simp [hrst])]
  refine ⟨hedge none, fun p => ?_⟩
  have hcond : (portReady s (some p) p = true ∧ (portPins s p).valid = true) ↔
      p < s.cfg.np ∧ s.q.length < depth ∧ s.estate ≠ .fatal ∧ (portPins s p).valid = true := by
    simp [portReady_eq_true, hrst, and_assoc]
  rw [hedge, transferAt_some]
  simp only [hcond]
  split <;> rfl

/-- A full FIFO takes no word (40_command_fifo.md R123). -/
theorem wclkEdge_full {s : State} (hfull : s.q.length = depth) (g : Option Nat) (arb : Nat) :
    (wclkEdge g arb s).q = s.q := by
  rcases wclkEdge_cases g arb s with ⟨-, h⟩ | ⟨-, h⟩ | ⟨-, hroom, -⟩
  · rw [h]
  · rw [h]
  · exact absurd hroom (by omega)

/-- Settles O37, by what a ready port needs. -/
theorem atMostOnePortIsReady : Obligations.AtMostOnePortIsReady := by
  intro s grant p p'
  refine ⟨fun h h' => ?_, fun h => ?_, fun hfull => ⟨Bool.eq_false_iff.mpr fun h => ?_, wclkEdge_full hfull grant⟩⟩
  · obtain ⟨rfl, -⟩ := portReady_eq_true.mp h
    obtain ⟨hp, -⟩ := portReady_eq_true.mp h'
    exact Option.some.inj hp
  · obtain ⟨hg, -, hroom, hrst, hrun⟩ := portReady_eq_true.mp h
    exact ⟨hroom, hrst, hrun, hg⟩
  · obtain ⟨-, -, hroom, -⟩ := portReady_eq_true.mp h
    omega

/-! ### Crossings and samples -/

/-- With every word visible a crossing does nothing (log entry 3). -/
theorem crossStep_of_le {s : State} (hle : s.q.length ≤ s.v.toNat) : crossStep s = s := by
  rw [crossStep, if_neg (by simp [hle])]

/-- While reset is asserted a crossing does nothing (70_reset_and_hazards.md R281). -/
theorem crossStep_of_rst {s : State} (hrst : s.pins.rst = true) : crossStep s = s := by
  rw [crossStep, if_neg (by simp [hrst])]

/-- An attach sample without reset (40_command_fifo.md R121). -/
theorem sampleAttachStep_of_not_rst {s : State} (hrst : s.pins.rst = false) (p : Nat) :
    sampleAttachStep p s = { s with att := s.att.set p (portPins s p).attach } := by
  rw [sampleAttachStep, if_neg (by simp [hrst])]

/-- Settles O38. -/
theorem crossingMovesOneWordOrOneSample : Obligations.CrossingMovesOneWordOrOneSample := by
  intro s hrst hq
  refine ⟨fun hlt => ⟨?_, ?_⟩, fun hle => ?_, fun p b hb => ?_⟩
  · rw [perform, crossStep_of_lt hrst hlt]
  · exact add_one_toNat _ (by unfold depth at hq; omega)
  · rw [perform, crossStep_of_le hle]
  · rw [perform, sampleAttachStep_of_not_rst hrst, hb]

end Sys2Proof.Machine

/-! The buffer cycle's edges (43_buffer_cycle.md R211 to R224): O44, O47, O48. -/

namespace Sys2Proof.Machine

open Sys2Proof.Safety

/-! ### IDLE -/

/-- In IDLE the engine's own step starts a cycle where one is offered, and does nothing else (43_buffer_cycle.md R224). -/
theorem engineStep_idle {s : State} (he : s.estate = .idle) :
    engineStep s = .next (if s.pins.cycStart then cycleStart s else s) := by
  rw [engineStep, he]

/-- IDLE is not busy, so no cycle start overlaps there (43_buffer_cycle.md R221). -/
theorem busy_idle {s : State} (he : s.estate = .idle) : busy s.estate = false := by
  rw [he]
  rfl

/-- Settles O44, by the cycle start written out. -/
theorem cycleStartTakesTheSnapshot : Obligations.CycleStartTakesTheSnapshot := by
  intro s he hrst hdrv hcyc hin hout
  have hlen : lengthMismatch s = false := by
    rw [← Bool.not_eq_true, lengthMismatch_iff]
    simp [bufferWords, hin, hout]
  refine (clkEdge_quiet hrst hdrv (.inr (busy_idle he)) (engineStep_idle he)).trans ?_
  rw [if_pos hcyc, cycleStart_eq, hlen]
  rfl

/-! ### EMIT -/

/-- The output side's next state where `w` is presented (43_buffer_cycle.md R218). -/
def presentWord (w : Word) (s : State) : State := if s.pins.outReady then takeOutput w s else s

/-- An EMIT edge with an output word left presents it and moves each stream on its own (43_buffer_cycle.md R218, R219). -/
theorem emitStep_presenting {s : State} {w : Word} (hout : outCount s < bufferWords s)
    (hw : sampleWord s (outCount s) = some w) : emitStep s = .next (inputSide (presentWord w s)) := by
  have hpend : outPending s = true := decide_eq_true hout
  rw [emitStep, if_neg (by omega), outputSide, if_pos hpend, hw]
  rfl

/-- An EMIT edge with the output complete and input words left (43_buffer_cycle.md R219). -/
theorem emitStep_output_complete {s : State} (hout : outCount s = bufferWords s) (hin : inCount s < bufferWords s) :
    emitStep s = .next (inputSide s) := by
  have hpend : outPending s = false := decide_eq_false (by omega)
  rw [emitStep, if_neg (by omega), outputSide, hpend]
  rfl

/-- An EMIT edge with both streams complete (43_buffer_cycle.md R220). -/
theorem emitStep_complete {s : State} (hout : outCount s = bufferWords s) (hin : inCount s = bufferWords s) :
    emitStep s = .next (completeCycle s) := by
  rw [emitStep, if_pos ⟨hout, hin⟩]

theorem engineStep_emit {s : State} (he : s.estate = .emit) : engineStep s = emitStep s := by
  rw [engineStep, he]

section
variable (w : Word) (s : State)

/-- What the output side writes. -/
theorem presentWord_frame :
    presentWord w s =
      { s with
        outCnt := (presentWord w s).outCnt, outFull := (presentWord w s).outFull
        outWords := (presentWord w s).outWords
        lphase := (presentWord w s).lphase, rphase := (presentWord w s).rphase } := by
  unfold presentWord
  split
  · rw [takeOutput_eq]
  · rfl

theorem presentWord_outWords :
    (presentWord w s).outWords = if s.pins.outReady then s.outWords ++ [w] else s.outWords := by
  unfold presentWord
  split
  · rw [takeOutput_eq]
  · rfl

theorem presentWord_outCount (h : outCount s < 2 ^ 31) :
    outCount (presentWord w s) = if s.pins.outReady then outCount s + 1 else outCount s := by
  unfold presentWord
  split
  · rw [takeOutput_eq]
    exact countOf_next (show outCount s + 1 < 2 ^ 32 by omega)
  · rfl

theorem presentWord_lphase :
    (presentWord w s).lphase =
      if s.pins.outReady ∧ outCount s % 2 = 1 ∧ s.silent = false
        then advance (tableLen s.cfg s.waveSel) s.phaseStep s.lphase else s.lphase := by
  unfold presentWord
  split
  · rename_i hr
    rw [takeOutput_eq]
    simp only [hr, true_and]
  · rename_i hr
    rw [if_neg fun h => hr h.1]

theorem presentWord_rphase :
    (presentWord w s).rphase =
      if s.pins.outReady ∧ outCount s % 2 = 1 ∧ s.silent = false
        then advance (tableLen s.cfg s.waveSel) s.phaseStep s.rphase else s.rphase := by
  unfold presentWord
  split
  · rename_i hr
    rw [takeOutput_eq]
    simp only [hr, true_and]
  · rename_i hr
    rw [if_neg fun h => hr h.1]

/-- What the input side writes. -/
theorem inputSide_frame :
    inputSide s = { s with inCnt := (inputSide s).inCnt, inFull := (inputSide s).inFull } := by
  rw [inputSide_eq]
  split <;> rfl

theorem inputSide_inCount (h : bufferWords s ≤ 2 ^ 31) :
    inCount (inputSide s) = if s.pins.inValid ∧ inCount s < bufferWords s then inCount s + 1 else inCount s := by
  rw [inputSide_eq]
  split
  · exact inCount_countInput (by omega)
  · rfl

/-- Both sides of an EMIT edge: neither reads what the other writes. -/
theorem inputSide_presentWord :
    inputSide (presentWord w s) =
      { s with
        outCnt := (presentWord w s).outCnt, outFull := (presentWord w s).outFull
        outWords := (presentWord w s).outWords
        lphase := (presentWord w s).lphase, rphase := (presentWord w s).rphase
        inCnt := (inputSide s).inCnt, inFull := (inputSide s).inFull } := by
  have hcond : ((presentWord w s).pins.inValid = true ∧ inCount (presentWord w s) < bufferWords (presentWord w s)) ↔
      s.pins.inValid = true ∧ inCount s < bufferWords s := by
    rw [presentWord_frame]
    rfl
  simp only [inputSide_eq, hcond]
  split
  · rw [presentWord_frame]
    rfl
  · rw [presentWord_frame]

end

/-! ### The outputs in EMIT -/

section
variable {s : State} (he : s.estate = .emit) (hrst : s.pins.rst = false)
include he hrst

/-- `out_valid` in EMIT (43_buffer_cycle.md R218). -/
theorem outValidOut_emit : outValidOut s = decide (outCount s < bufferWords s) := by
  simp [outValidOut, outPending, he, hrst]

/-- `in_ready` in EMIT (43_buffer_cycle.md R219). -/
theorem inReadyOut_emit : inReadyOut s = decide (inCount s < bufferWords s) := by
  simp [inReadyOut, inPending, he, hrst]

end

/-- The buffer of a legal block has at most `2^31` words (00_scope.md R11). -/
theorem bufferWords_le_of_legal {s : State} (h : configLegal s.cfg = true) : bufferWords s ≤ 2 ^ 31 := by
  obtain ⟨-, -, -, -, hfpb, -⟩ := configLegal_iff.mp h
  unfold bufferWords
  omega

/-- Settles O47: the edge is the output side and the input side, and each writes its own stream. -/
theorem emitMovesTheStreams : Obligations.EmitMovesTheStreams := by
  intro s hlegal he hrst hdrv hcyc
  have hwords := bufferWords_le_of_legal hlegal
  have hvalid := outValidOut_emit he hrst
  have hready := inReadyOut_emit he hrst
  refine ⟨fun w (hout : _ < bufferWords s) hw => ?_, fun (hout : _ = bufferWords s) (hin : _ < bufferWords s) => ?_⟩
  · have hv : outValidOut s = true := hvalid.trans (decide_eq_true hout)
    have hedge := clkEdge_quiet hrst hdrv (.inl hcyc) ((engineStep_emit he).trans (emitStep_presenting hout hw))
    rw [inputSide_presentWord] at hedge
    exact ⟨hv, by rw [outDataOut, if_pos hv, hw], by simp [outLastOut, hv, bufferWords],
      by rw [hready]; exact decide_eq_true_iff, _, hedge, he, presentWord_outCount w s (by omega), presentWord_outWords w s, inputSide_inCount s hwords,
      presentWord_lphase w s, presentWord_rphase w s, rfl⟩
  · have hv : outValidOut s = false := hvalid.trans (decide_eq_false (by omega))
    have hedge := clkEdge_quiet hrst hdrv (.inl hcyc) ((engineStep_emit he).trans (emitStep_output_complete hout hin))
    rw [inputSide_frame] at hedge
    refine ⟨hv, by simp [outDataOut, hv], by simp [outLastOut, hv], hready.trans (decide_eq_true hin), _, hedge, ?_, rfl⟩
    refine (inputSide_inCount s hwords).trans ?_
    simp only [hin, and_true]

/-! ### Completion -/

/-- An EMIT edge that does not complete the cycle counts none (43_buffer_cycle.md R220). -/
theorem emitStep_cntCycles {s t : State} (h : emitStep s = .next t)
    (hopen : ¬ (outCount s = bufferWords s ∧ inCount s = bufferWords s)) : t.cntCycles = s.cntCycles := by
  rcases emitStep_cases h with ⟨hout, hin, -⟩ | ⟨-, ⟨rfl, -⟩ | ⟨w, -, -, -, rfl⟩⟩
  · exact absurd ⟨hout, hin⟩ hopen
  · rw [inputSide_frame]
  · rw [inputSide_frame, takeOutput_eq]

/-- Settles O48. -/
theorem cycleCompletesWhenBothStreamsAre : Obligations.CycleCompletesWhenBothStreamsAre := by
  refine ⟨fun s he hrst hdrv hcyc hout hin => ?_, fun s t he hrst hdrv hcyc hshort h => ?_, fun s he hrst hdrv hcyc => ?_⟩
  · exact clkEdge_quiet hrst hdrv (.inl hcyc) ((engineStep_emit he).trans (emitStep_complete hout hin))
  · obtain ⟨u, hu, rfl⟩ := engineStep_of_clkEdge hrst hdrv (.inl hcyc) h
    have hopen : ¬ (outCount s = bufferWords s ∧ inCount s = bufferWords s) := not_and_or.mpr hshort
    have hcount := emitStep_cntCycles ((engineStep_emit he).symm.trans hu) hopen
    exact ⟨(engineStep_from_emit hu he).trans (if_neg hopen), hcount⟩
  · refine (clkEdge_quiet hrst hdrv (.inl hcyc) (engineStep_idle he)).trans ?_
    rw [hcyc]
    rfl

end Sys2Proof.Machine

/-! Fatal conditions, reset and the outputs (60_exceptions.md R241, R250, 70_reset_and_hazards.md section 1): O50, O52, O53,
O54, O55. -/

namespace Sys2Proof.Machine

open Sys2Proof.Safety

/-! ### Priorities -/

/-- A fatal condition of a running engine, as its whole `clk` edge (60_exceptions.md R245). -/
theorem clkEdge_raiseFatal {s : State} {c : BitVec 2} (h : clkStep s = .next (raiseFatal c s)) (hrun : s.estate ≠ .fatal) :
    clkEdge s =
      .next
        { s with
          fatal := true, fatalCause := c, estate := .fatal, events := s.events ++ [⟨codeFatal, c.setWidth 32⟩]
          levelShown := s.v } := by
  rw [raiseFatal_of_running c s hrun] at h
  exact clkEdge_next h

/-- A reset edge (70_reset_and_hazards.md R280); the register port then shows the emptied FIFO. -/
theorem clkEdge_of_rst {s : State} (hrst : s.pins.rst = true) : clkEdge s = .next (applyReset s) :=
  clkEdge_next (clkStep_of_rst hrst)

/-- Settles O50: the order of the conditions in `clkStep`. -/
theorem fatalConditionsHavePriority : Obligations.FatalConditionsHavePriority := by
  intro s
  refine ⟨fun hrst hdrv hrun => ?_, fun hrst hdrv hcyc hbusy => ?_, fun hrst => ?_⟩
  · exact clkEdge_raiseFatal (clkStep_of_drvFatal hrst hdrv hrun) hrun
  · have hb : busy s.estate = true ∧ s.estate ≠ .fatal := by rcases hbusy with he | he | he <;> rw [he] <;> decide
    exact clkEdge_raiseFatal (clkStep_of_overlap hrst (.inl hdrv) hcyc hb.1) hb.2
  · exact ⟨_, clkEdge_of_rst hrst, rfl, rfl, rfl⟩

/-! ### Outputs without reset -/

/-- Outside EMIT no sample word is presented or accepted (43_buffer_cycle.md R218, R219). -/
theorem outputs_outside_emit {s : State} (he : s.estate ≠ .emit) :
    outValidOut s = false ∧ outDataOut s = none ∧ outLastOut s = false ∧ inReadyOut s = false := by
  have hemit : (s.estate == .emit) = false := beq_eq_false_iff_ne.mpr he
  have hvalid : outValidOut s = false := by simp [outValidOut, hemit]
  exact ⟨hvalid, by simp [outDataOut, hvalid], by simp [outLastOut, hvalid], by simp [inReadyOut, hemit]⟩

/-- `cyc_idle` without reset (43_buffer_cycle.md R210). -/
theorem cycIdleOut_iff {s : State} (hrst : s.pins.rst = false) : cycIdleOut s = true ↔ s.estate = .idle := by
  simp [cycIdleOut, hrst]

/-- The register port without reset (43_buffer_cycle.md R230). -/
theorem csrRdataOut_of_not_rst {s : State} (hrst : s.pins.rst = false) : csrRdataOut s = csrRead s s.pins.csrAddr := by
  simp [csrRdataOut, hrst]

/-- No port is ready in FATAL (40_command_fifo.md R123). -/
theorem portReady_of_fatal {s : State} (he : s.estate = .fatal) (g : Option Nat) (p : Nat) : portReady s g p = false := by
  refine Bool.eq_false_iff.mpr fun h => ?_
  obtain ⟨-, -, -, -, hrun⟩ := portReady_eq_true.mp h
  exact hrun he

/-- No port is ready during reset (40_command_fifo.md R123). -/
theorem portReady_of_rst {s : State} (hrst : s.pins.rst = true) (g : Option Nat) (p : Nat) : portReady s g p = false := by
  refine Bool.eq_false_iff.mpr fun h => ?_
  obtain ⟨-, -, -, hlow, -⟩ := portReady_eq_true.mp h
  exact absurd (hrst.symm.trans hlow) (by decide)

/-- Settles O52. -/
theorem outputsFollowTheSequencer : Obligations.OutputsFollowTheSequencer := by
  refine ⟨fun s g p h he hrst => ?_, fun s hrst => ⟨cycIdleOut_iff hrst, fun he => ?_⟩, fun s h he => ?_⟩
  · obtain ⟨hvalid, -, -, hready⟩ := outputs_outside_emit (s := s) (by simp [he])
    have hfatal : s.fatal = true := h.fatal_iff.mpr he
    have hidle : cycIdleOut s = false := Bool.eq_false_iff.mpr fun hi =>
      absurd (he.symm.trans ((cycIdleOut_iff hrst).mp hi)) (by decide)
    have hcause : fatalCauseOut s = s.fatalCause := by simp [fatalCauseOut, hrst]
    refine ⟨hvalid, hready, portReady_of_fatal he g p, hidle, by simp [fatalOut, hrst, hfatal], hcause, ?_,
      csrRdataOut_of_not_rst hrst⟩
    rw [hcause, ne_eq, h.cause_iff, hfatal]
    decide
  · exact outputs_outside_emit (by rcases he with he | he | he <;> rw [he] <;> decide)
  · have hfatal := fatal_false h he
    have hcause := h.cause_iff.mpr hfatal
    exact ⟨by simp [fatalOut, hfatal], by simp [fatalCauseOut, hcause]⟩

/-! ### Reset -/

/-- During reset a `wclk` edge transfers nothing (40_command_fifo.md R138). -/
theorem wclkEdge_of_rst {s : State} (hrst : s.pins.rst = true) (g : Option Nat) (arb : Nat) :
    wclkEdge g arb s = { s with rstWclkEdges := min 2 (s.rstWclkEdges + 1) } := by
  rw [wclkEdge, if_pos hrst]

/-- Settles O53: every field of `applyReset` is that of `State.resetOf` or one of the four it keeps. -/
theorem resetEdgeResetsEverything : Obligations.ResetEdgeResetsEverything := by
  intro s hrst
  refine ⟨_, clkEdge_of_rst hrst, ?_⟩
  simp only [applyReset, State.resetOf, perform, crossStep_of_rst hrst, portReady_of_rst hrst, wclkEdge_of_rst hrst,
    and_self, implies_true]

/-- Settles O54. -/
theorem resetQuietsTheOutputs : Obligations.ResetQuietsTheOutputs := by
  intro s g p hrst
  have hvalid : outValidOut s = false := by simp [outValidOut, hrst]
  exact ⟨by simp [cycIdleOut, hrst], hvalid, by simp [outLastOut, hvalid], by simp [inReadyOut, hrst],
    portReady_of_rst hrst g p, by simp [fatalOut, hrst], by simp [fatalCauseOut, hrst], by simp [csrRdataOut, hrst],
    _, clkEdge_of_rst hrst, rfl, rfl⟩

/-- When a reset has had too few edges (70_reset_and_hazards.md R282). -/
theorem resetTooShort_iff {s : State} :
    resetTooShort s = true ↔ s.rstClkEdges < 2 ∨ (s.cfg.wclkMode = .async ∧ s.rstWclkEdges < 2) := by
  simp [resetTooShort]

/-- Ending a reset is refused exactly when it has had too few edges (93_implementation_defined.md K21). -/
theorem drivePins_refused_iff {s : State} {p : Pins} (hrst : s.pins.rst = true) (hp : p.rst = false) :
    drivePins p s = .refused .resetTooShort ↔ resetTooShort s = true := by
  simp [drivePins, hrst, hp]

/-- Settles O55. -/
theorem shortResetIsRefused : Obligations.ShortResetIsRefused := by
  intro s p hrst hp
  refine ⟨(drivePins_refused_iff hrst hp).trans resetTooShort_iff, ⟨_, clkEdge_of_rst hrst, rfl⟩, fun g arb => ?_⟩
  rw [wclkEdge_of_rst hrst]
  exact ⟨rfl, rfl⟩

end Sys2Proof.Machine

/-! The register port's map (10_state.md R50, 43_buffer_cycle.md R230): O56. -/

namespace Sys2Proof.Machine

open Sys2Proof.Safety

/-- Appending as arithmetic. -/
theorem toNat_append_eq_add {n m : Nat} (x : BitVec n) (y : BitVec m) :
    (x ++ y).toNat = x.toNat * 2 ^ m + y.toNat := by
  rw [BitVec.toNat_append, ← Nat.shiftLeft_add_eq_or_of_lt y.isLt, Nat.shiftLeft_eq]

/-- STATUS as the sum of its fields (10_state.md R50). -/
theorem statusWord_toNat (s : State) :
    (statusWord s).toNat =
      s.waveSel.toNat * 2 ^ 8 + (estateCode s.estate).toNat * 2 ^ 5 + s.silent.toNat * 2 ^ 4 +
        s.discLogged.toNat * 2 ^ 3 + s.fatalCause.toNat * 2 ^ 1 + s.fatal.toNat := by
  simp only [statusWord, toNat_append_eq_add, BitVec.toNat_ofBool]
  rw [BitVec.toNat_zero]
  omega

/-- A bit of a word from its number. -/
theorem getLsbD_of_toNat {w : Word} {k : Nat} {b : Bool} (h : w.toNat / 2 ^ k % 2 = b.toNat) : w.getLsbD k = b := by
  rw [BitVec.getLsbD, Nat.testBit_eq_decide_div_mod_eq, h]
  cases b <;> rfl

/-- A field of a word from its number. -/
theorem extractLsb'_of_toNat {w : Word} {k n : Nat} {x : BitVec n} (h : w.toNat / 2 ^ k % 2 ^ n = x.toNat) :
    w.extractLsb' k n = x := by
  apply BitVec.eq_of_toNat_eq
  rw [BitVec.extractLsb'_toNat, Nat.shiftRight_eq_div_pow, h]

/-- The seven fields of STATUS in their places, with zeros above (10_state.md R50). -/
theorem statusWord_fields (s : State) :
    (statusWord s).getLsbD 0 = s.fatal ∧ (statusWord s).extractLsb' 1 2 = s.fatalCause ∧
      (statusWord s).getLsbD 3 = s.discLogged ∧ (statusWord s).getLsbD 4 = s.silent ∧
      (statusWord s).extractLsb' 5 3 = estateCode s.estate ∧ (statusWord s).extractLsb' 8 2 = s.waveSel ∧
      (statusWord s).extractLsb' 10 22 = 0#22 := by
  have hstatus := statusWord_toNat s
  have hfatal := Bool.toNat_lt s.fatal
  have hcause := s.fatalCause.isLt
  have hdisc := Bool.toNat_lt s.discLogged
  have hsilent := Bool.toNat_lt s.silent
  have hcode := (estateCode s.estate).isLt
  have hwave := s.waveSel.isLt
  exact ⟨getLsbD_of_toNat (by omega), extractLsb'_of_toNat (by omega), getLsbD_of_toNat (by omega),
    getLsbD_of_toNat (by omega), extractLsb'_of_toNat (by omega), extractLsb'_of_toNat (by omega),
    extractLsb'_of_toNat (by rw [BitVec.toNat_zero]; omega)⟩

/-- A 24-bit register in its 32-bit word. -/
theorem setWidth_phase_toNat (ph : Phase) : (ph.setWidth 32 : Word).toNat = ph.toNat :=
  BitVec.toNat_setWidth_of_le (by norm_num)

/-- A number of the block's parameters in its 32-bit word. -/
theorem ofNat_param_toNat {n : Nat} (h : n ≤ 2 ^ 30) : (BitVec.ofNat 32 n).toNat = n := by
  rw [BitVec.toNat_ofNat, Nat.mod_eq_of_lt (by omega)]

/-- `FPB` and the selected table's length in a legal block (00_scope.md R11). -/
theorem csrRead_params {s : State} (h : configLegal s.cfg = true) :
    (csrRead s 0xD#4).toNat = s.cfg.fpb ∧ (csrRead s 0xF#4).toNat = tableLen s.cfg s.waveSel := by
  obtain ⟨-, -, -, -, hfpb, -⟩ := configLegal_iff.mp h
  have hlen := tableLen_le h s.waveSel
  exact ⟨ofNat_param_toNat hfpb.2, ofNat_param_toNat (by omega)⟩

/-- After a `clk` edge FIFO_LEVEL is `V` (43_buffer_cycle.md R230). -/
theorem csrRead_level {s t : State} (h : clkEdge s = .next t) : (csrRead t 0x6#4).toNat = t.v.toNat := by
  obtain ⟨u, -, rfl⟩ := clkEdge_eq_next.mp h
  exact BitVec.toNat_setWidth_of_le (by norm_num)

/-- Another agent's step changes no register that the port shows (log entry 16). -/
theorem csrRead_perform {a : Action} {s t : State} (ha : a ≠ .clk) (h : perform a s = .next t) (addr : BitVec 4) :
    csrRead t addr = csrRead s addr := by
  obtain ⟨hframe, -, -⟩ := perform_frame ha h
  rw [hframe]
  rfl

/-- STATUS after reset: `SILENT` alone is set (70_reset_and_hazards.md R280). -/
theorem statusWord_resetOf (c : Config) : statusWord (State.resetOf c) = 0x00000010#32 := by
  apply BitVec.eq_of_toNat_eq
  rw [statusWord_toNat]
  simp [State.resetOf, estateCode]

/-- The reset values of addresses 2 to 12 (70_reset_and_hazards.md R280). -/
theorem csrRead_resetOf (c : Config) {addr : BitVec 4} (h1 : 2 ≤ addr.toNat) (h2 : addr.toNat ≤ 12) :
    csrRead (State.resetOf c) addr = 0x00000000#32 := by
  unfold csrRead
  generalize addr.toNat = n at *
  interval_cases n <;> rfl

/-- Settles O56. -/
theorem registerPortShowsTheMap : Obligations.RegisterPortShowsTheMap := by
  refine ⟨fun s => ?_, fun s hrst => csrRdataOut_of_not_rst hrst, fun s t h => csrRead_level h,
    fun a s t ha h addr => csrRead_perform ha h addr, fun c => ⟨statusWord_resetOf c, fun _ h1 h2 => csrRead_resetOf c h1 h2⟩⟩
  obtain ⟨hfatal, hcause, hdisc, hsilent, hcode, hwave, hzero⟩ := statusWord_fields s
  exact ⟨rfl, hfatal, hcause, hdisc, hsilent, hcode, hwave, hzero, rfl, setWidth_phase_toNat s.lphase,
    setWidth_phase_toNat s.rphase, setWidth_phase_toNat s.phaseStep, rfl, rfl, rfl, rfl, rfl, rfl, rfl, csrRead_params⟩

end Sys2Proof.Machine
